-- ==== Sys2Proof/Word.lean ====
section
/-! DEFINITION. The bit vectors of the block: widths that the spec fixes (00_scope.md R5 to R8). -/

namespace Sys2Proof

/-- A register word. A register of 8 or 16 bits uses the low bits, the others are 0 (log 5). -/
abbrev Word := BitVec 32

/-- A FIFO item (00_scope.md R6). -/
abbrev Byte := BitVec 8

/-- An MMIO address, or an index, in a descriptor (30_encoding.md R58). -/
abbrev Addr := BitVec 64

/-- A timer token: 64 bits, wrapping (00_scope.md R7). -/
abbrev Token := BitVec 64

/-- A transaction descriptor (30_encoding.md R58). -/
abbrev Desc := BitVec 144

end Sys2Proof
end

