-- ==== Sys2Proof/Syntax.lean ====
section
/-! DEFINITION. The operations of spec/opcode_table.json: one constructor per row, operands already decoded.
A register, FIFO, source, line or timer is named by its position in the configuration's list (log 11). -/

namespace Sys2Proof

/-- The three alias windows (20_memory.md R42). -/
inductive Window where
  | set | clear | toggle
deriving DecidableEq, Repr

/-- One constructor per row of spec/opcode_table.json. A bus operation carries the address class that
30_encoding.md R63 gives its address: `r` is a register, `k` the first byte lane, `n` the size in bytes. -/
inductive Instr where
  /-- READ, class EXACT(r, CANON): R85. -/
  | read (r : Nat)
  /-- READ, class EXACT(r, SET): R92. -/
  | readSet (r : Nat)
  /-- READ, class EXACT(r, CLEAR): R92. -/
  | readClr (r : Nat)
  /-- READ, class EXACT(r, TOGGLE): R92. -/
  | readTgl (r : Nat)
  /-- READ, class NARROW(r, CANON, k): R93. -/
  | readNarrow (r k n : Nat)
  /-- READ, class NARROW(r, K, k): R92. -/
  | readNarrowAlias (w : Window) (r k n : Nat)
  /-- READ, class REJECTED: R47. -/
  | readRejected (a : Addr) (n : BitVec 8)
  /-- READ, class UNMAPPED: R96. -/
  | readUnmapped (a : Addr) (n : BitVec 8)
  /-- WRITE, class EXACT(r, CANON): R86. -/
  | write (r : Nat) (v : Word)
  /-- WRITE, class EXACT(r, SET): R88. -/
  | writeSet (r : Nat) (m : Word)
  /-- WRITE, class EXACT(r, CLEAR): R89. -/
  | writeClr (r : Nat) (m : Word)
  /-- WRITE, class EXACT(r, TOGGLE): R90. -/
  | writeTgl (r : Nat) (m : Word)
  /-- WRITE, class NARROW(r, CANON, k): R94. -/
  | writeNarrow (r k n : Nat) (x : Word)
  /-- WRITE, class NARROW(r, K, k): R95. -/
  | writeNarrowAlias (w : Window) (r k n : Nat) (x : Word)
  /-- WRITE, class REJECTED: R47. -/
  | writeRejected (a : Addr) (n : BitVec 8) (v : BitVec 64)
  /-- WRITE, class UNMAPPED: R97. -/
  | writeUnmapped (a : Addr) (n : BitVec 8) (v : BitVec 64)
  /-- RX_BYTE: R125. -/
  | rxByte (b : Byte)
  /-- FLUSH: R131. The index may be out of range (R62). -/
  | flush (q : BitVec 64)
  /-- RESET: R157. -/
  | reset
  /-- TIMER_FIRE: R135. The index may be out of range (R62). -/
  | timerFire (t : BitVec 64) (tok : Token)
  /-- SIGNAL_SAMPLE: R138. The index may be out of range (R62). -/
  | signalSample (g : BitVec 64)
  /-- FIFO_PUSH, internal: R116. -/
  | fifoPush (q : Nat) (b : Byte)
  /-- FIFO_POP, internal: R117. -/
  | fifoPop (q : Nat)
  /-- FIFO_FLUSH, internal: R118. -/
  | fifoFlush (q : Nat)
  /-- FIFO_SET_CAPACITY, internal: R119. -/
  | fifoSetCapacity (q n : Nat)
  /-- FIFO_SET_WATERMARK, internal: R120. -/
  | fifoSetWatermark (q n : Nat)
  /-- IRQ_SET, internal: R104. -/
  | irqSet (i : Nat) (b : Bool)
  /-- IRQ_SET_ENABLED, internal: R105. -/
  | irqSetEnabled (i : Nat) (b : Bool)
  /-- IRQ_IS_PENDING, internal: R106. -/
  | irqIsPending (i : Nat)
  /-- IRQ_LEVEL, internal: R107. -/
  | irqLevel (l : Nat)
  /-- RECOMPUTE, internal: R109. -/
  | recompute
  /-- TX_BYTE, internal: R127. -/
  | txByte (b : Byte)
  /-- TX_DRAIN, internal: R129. -/
  | txDrain
  /-- TX_ENABLE, internal: R128. -/
  | txEnable (b : Bool)
  /-- TIMER_ARM, internal: R133. -/
  | timerArm (t : Nat)
  /-- TIMER_CANCEL, internal: R134. -/
  | timerCancel (t : Nat)
deriving DecidableEq, Repr

end Sys2Proof
end

