-- ==== Sys2Proof/Config.lean ====
section
/-! DEFINITION. The configuration record CFG (10_state.md R11 to R16), as plain data, and the small name sets it uses.
A name that refers to a register, source, line, FIFO, timer or signal is its position in the list of CFG (log 11).
The custom functions of 40_register_file.md R77 are named by numbers here; what they do is opaque (Machine/Custom.lean). -/

namespace Sys2Proof

/-- Field access modes (R72). -/
inductive AccessMode where
  | readOnly | writeOnly | readWrite | writeOneToClear | readToClear | setOnWrite
deriving DecidableEq, Repr

/-- What a field does when its register is read (R72). -/
inductive ReadBeh where
  | read | zero | readToClear
deriving DecidableEq, Repr

/-- What a field does when its register is written (R72). -/
inductive WriteBeh where
  | none | write | w1c | w1s
deriving DecidableEq, Repr

/-- The clear selector of a status register (R12, R98). -/
inductive StatusClear where
  | none | w1c | cor | both
deriving DecidableEq, Repr

/-- The clear policy of a source (R14, R98). -/
inductive ClearPolicy where
  | writeOneToClear | clearOnRead | autoClear | both
deriving DecidableEq, Repr

/-- The three states of a FIFO (R24). -/
inductive FifoState where
  | empty | ready | full
deriving DecidableEq, Repr

/-- The side of the peripheral a FIFO serves (R15). -/
inductive Role where
  | rx | tx
deriving DecidableEq, Repr

/-- The predicates on one FIFO (R108). -/
inductive FifoPred where
  | empty | notEmpty | ready | full | notFull | watermarkCrossed | notWatermarkCrossed
deriving DecidableEq, Repr

/-- A condition: a predicate of one FIFO, or a custom predicate (R108). -/
inductive Cond where
  | fifo (q : Nat) (p : FifoPred)
  | custom (id : Nat)
deriving DecidableEq, Repr

/-- Internal events (R30). -/
inductive IEvent where
  | pushed (q : Nat)
  | overflow (q : Nat)
  | underflow (q : Nat)
  | enterState (q : Nat) (st : FifoState)
  | watermarkRise (q : Nat)
  | watermarkFall (q : Nat)
  | timerFired (t : Nat)
deriving DecidableEq, Repr

/-- The binding catalogue (R75). -/
inductive Binding where
  | stored
  | irqPending (i : Nat)
  | irqEnable (i : Nat)
  | irqMaskMirror (i : Nat)
  /-- The rx FIFO read and the tx FIFO written, where given. -/
  | uartData (qr qt : Option Nat)
  | fifoCount (q : Nat)
  | fifoFlag (q : Nat) (p : FifoPred)
  | fifoWatermark (q : Nat)
  | fifoMode (q : Nat)
  | fifoFlush (q : Nat)
  | rxEnable
  | txEnable
  | loopback
  | timerStart (t : Nat)
  | timerStop (t : Nat)
  /-- Numbers of the custom peek, read action and apply. -/
  | custom (pk rd ap : Nat)
deriving DecidableEq, Repr

/-- A field descriptor (R13); `effect` is the number of a custom write effect. -/
structure FieldDesc where
  name : String
  off : Nat
  wid : Nat
  mode : AccessMode
  bind : Binding
  effect : Option Nat := none
deriving DecidableEq, Repr

/-- A register descriptor (R12); `postRead` and `postWrite` are numbers of custom functions, absent for the identity. -/
structure RegDesc where
  name : String
  addr : Addr
  w : Nat
  fields : List FieldDesc
  resetValue : Word
  statusClear : StatusClear := .none
  postRead : Option Nat := none
  postWrite : Option Nat := none
deriving DecidableEq, Repr

/-- A source descriptor (R14). -/
structure SourceDesc where
  name : String
  clear : ClearPolicy
  cond : Option Cond
  triggers : List IEvent
  enableReset : Bool
deriving DecidableEq, Repr

/-- A FIFO descriptor (R15). -/
structure FifoDesc where
  name : String
  role : Role
  capReset : Nat
  capFifoMode : Nat
  pow2 : Bool
  wmReset : Nat
  dummy : Byte
deriving DecidableEq, Repr

/-- An output line: an OR over sources (R11, R107). -/
structure LineDesc where
  name : String
  sources : List Nat
deriving DecidableEq, Repr

/-- A signal expression (R137). -/
inductive SignalExpr where
  | line (l : Nat)
  | fifo (q : Nat) (p : FifoPred)
  | const (b : Bool)
  | custom (id : Nat)
deriving DecidableEq, Repr

/-- A named output signal (R11, R137). -/
structure SignalDesc where
  name : String
  expr : SignalExpr
deriving DecidableEq, Repr

/-- A timer descriptor (R16). -/
structure TimerDesc where
  name : String
deriving DecidableEq, Repr

/-- The policy for an access narrower than its register (R5, R45). -/
inductive Translation where
  | reject | widen
deriving DecidableEq, Repr

/-- The configuration record (R11). No step changes it. -/
structure Cfg where
  regs : List RegDesc
  hasAlias : Bool
  setOffset : BitVec 64
  clearOffset : BitVec 64
  toggleOffset : BitVec 64
  unmappedReadValue : Word
  translation : Translation
  sources : List SourceDesc
  lines : List LineDesc
  fifos : List FifoDesc
  signals : List SignalDesc
  timers : List TimerDesc
  loopbackAlsoTransmits : Bool
deriving DecidableEq, Repr

/-- A byte range of the window: the canonical range of register `reg` or one of its alias ranges (20_memory.md R43).
Its ends are naturals, so that a range past the last address can be seen and refused at construction. -/
structure Span where
  win : Option Window
  reg : Nat
  base : Nat
  len : Nat
deriving DecidableEq, Repr

/-- The address classes (30_encoding.md R63); no window means the canonical address. -/
inductive AddrClass where
  | exact (win : Option Window) (r : Nat)
  | narrow (win : Option Window) (r k : Nat)
  | rejected
  | unmapped
deriving DecidableEq, Repr

/-- Why construction fails: the numbered checks of 70_reset_and_hazards.md R155. -/
inductive ConfigError where
  /-- Check 1: a register's width or reset value. -/
  | registerWidth
  /-- Check 2: a field outside its register, or two fields that overlap. -/
  | fieldLayout
  /-- Check 3: an address or an offset that is not aligned. -/
  | alignment
  /-- Check 4: ranges that overlap or wrap, or offsets that are equal or zero. -/
  | ranges
  /-- Check 5: a binding not allowed for its field, or naming what does not exist. -/
  | binding
  /-- Check 6: a source or a line. -/
  | source
  /-- Check 7: the FIFOs. -/
  | fifo
  /-- Check 8: a signal expression. -/
  | signal
deriving DecidableEq, Repr

end Sys2Proof
end

