-- ==== Sys2Proof/Machine/Reference.lean ====
section
/-! DEFINITION. The reference configuration REF of 10_state.md R38, the only concrete layout the spec gives.
`State.reset` uses it; every other definition takes any configuration. -/

namespace Sys2Proof

/-- Position of FIFO RXF in REF. -/
abbrev Ref.rxf : Nat := 0
/-- Position of FIFO TXF in REF. -/
abbrev Ref.txf : Nat := 1
/-- Position of source RXNE in REF. -/
abbrev Ref.rxne : Nat := 0
/-- Position of source RXWM in REF. -/
abbrev Ref.rxwm : Nat := 1
/-- Position of source OVR in REF. -/
abbrev Ref.ovr : Nat := 2
/-- Position of source UDR in REF. -/
abbrev Ref.udr : Nat := 3
/-- Position of source TMR in REF. -/
abbrev Ref.tmr : Nat := 4

/-- REF register DATA. -/
def Ref.data : RegDesc :=
  { name := "DATA", addr := 0x00, w := 32, resetValue := 0x00000000
    fields := [⟨"DATA", 0, 8, .readWrite, .uartData (some Ref.rxf) (some Ref.txf), none⟩] }

/-- REF register STATUS. -/
def Ref.status : RegDesc :=
  { name := "STATUS", addr := 0x04, w := 32, resetValue := 0x00000000, statusClear := .w1c
    fields :=
      [⟨"RXNE", 0, 1, .readOnly, .irqPending Ref.rxne, none⟩,
       ⟨"RXWM", 1, 1, .readOnly, .irqPending Ref.rxwm, none⟩,
       ⟨"OVR", 2, 1, .writeOneToClear, .irqPending Ref.ovr, none⟩,
       ⟨"UDR", 3, 1, .writeOneToClear, .irqPending Ref.udr, none⟩,
       ⟨"TMR", 4, 1, .writeOneToClear, .irqPending Ref.tmr, none⟩,
       ⟨"RXEMPTY", 8, 1, .readOnly, .fifoFlag Ref.rxf .empty, none⟩,
       ⟨"RXFULL", 9, 1, .readOnly, .fifoFlag Ref.rxf .full, none⟩,
       ⟨"TXEMPTY", 10, 1, .readOnly, .fifoFlag Ref.txf .empty, none⟩,
       ⟨"RXCOUNT", 16, 8, .readOnly, .fifoCount Ref.rxf, none⟩] }

/-- REF register IRQ_EN. -/
def Ref.irqEn : RegDesc :=
  { name := "IRQ_EN", addr := 0x08, w := 32, resetValue := 0x00000000
    fields :=
      [⟨"EN_RXNE", 0, 1, .readWrite, .irqEnable Ref.rxne, none⟩,
       ⟨"EN_RXWM", 1, 1, .readWrite, .irqEnable Ref.rxwm, none⟩,
       ⟨"EN_OVR", 2, 1, .readWrite, .irqEnable Ref.ovr, none⟩,
       ⟨"EN_UDR", 3, 1, .readWrite, .irqEnable Ref.udr, none⟩,
       ⟨"EN_TMR", 4, 1, .readWrite, .irqEnable Ref.tmr, none⟩,
       ⟨"MSK_RXNE", 8, 1, .readOnly, .irqMaskMirror Ref.rxne, none⟩,
       ⟨"MSK_RXWM", 9, 1, .readOnly, .irqMaskMirror Ref.rxwm, none⟩,
       ⟨"MSK_OVR", 10, 1, .readOnly, .irqMaskMirror Ref.ovr, none⟩,
       ⟨"MSK_UDR", 11, 1, .readOnly, .irqMaskMirror Ref.udr, none⟩,
       ⟨"MSK_TMR", 12, 1, .readOnly, .irqMaskMirror Ref.tmr, none⟩] }

/-- REF register CTRL. Bits 31 to 24 are reserved and hold 0xA5. -/
def Ref.ctrl : RegDesc :=
  { name := "CTRL", addr := 0x0C, w := 32, resetValue := 0xA5000008
    fields :=
      [⟨"RXEN", 0, 1, .readWrite, .rxEnable, none⟩,
       ⟨"TXEN", 1, 1, .readWrite, .txEnable, none⟩,
       ⟨"LOOP", 2, 1, .readWrite, .loopback, none⟩,
       ⟨"FIFOEN", 3, 1, .readWrite, .fifoMode Ref.rxf, none⟩,
       ⟨"RXFLUSH", 4, 1, .writeOnly, .fifoFlush Ref.rxf, none⟩,
       ⟨"TSTART", 5, 1, .writeOnly, .timerStart 0, none⟩,
       ⟨"TSTOP", 6, 1, .writeOnly, .timerStop 0, none⟩,
       ⟨"SCRATCH", 8, 8, .readWrite, .stored, none⟩] }

/-- REF register FIFOCFG. -/
def Ref.fifoCfg : RegDesc :=
  { name := "FIFOCFG", addr := 0x10, w := 32, resetValue := 0x00000002
    fields := [⟨"WM", 0, 3, .readWrite, .fifoWatermark Ref.rxf, none⟩] }

/-- The reference configuration REF (R38). -/
def Cfg.ref : Cfg :=
  { regs := [Ref.data, Ref.status, Ref.irqEn, Ref.ctrl, Ref.fifoCfg]
    hasAlias := true
    setOffset := 0x100
    clearOffset := 0x200
    toggleOffset := 0x300
    unmappedReadValue := 0
    translation := .widen
    sources :=
      [⟨"RXNE", .autoClear, some (.fifo Ref.rxf .notEmpty), [.pushed Ref.rxf], false⟩,
       ⟨"RXWM", .autoClear, some (.fifo Ref.rxf .watermarkCrossed), [.watermarkRise Ref.rxf], false⟩,
       ⟨"OVR", .writeOneToClear, none, [.overflow Ref.rxf, .overflow Ref.txf], false⟩,
       ⟨"UDR", .writeOneToClear, none, [.underflow Ref.rxf], false⟩,
       ⟨"TMR", .writeOneToClear, none, [.timerFired 0], false⟩]
    lines := [⟨"IRQ_RX", [Ref.rxne, Ref.rxwm, Ref.ovr, Ref.udr]⟩, ⟨"IRQ_MISC", [Ref.tmr]⟩]
    fifos :=
      [⟨"RXF", .rx, 4, 4, true, 2, 0x00⟩,
       ⟨"TXF", .tx, 4, 4, true, 0, 0x00⟩]
    signals :=
      [⟨"IRQ_RX", .line 0⟩,
       ⟨"IRQ_MISC", .line 1⟩,
       ⟨"RxReady", .fifo Ref.rxf .watermarkCrossed⟩,
       ⟨"TxEmpty", .fifo Ref.txf .empty⟩,
       ⟨"DmaRequest", .fifo Ref.rxf .full⟩]
    timers := [⟨"T0"⟩]
    loopbackAlsoTransmits := false }

end Sys2Proof
end

