-- ==== Sys2Proof/Machine/State.lean ====
section
/-! DEFINITION. The state: the block's tuple S of 10_state.md R17 (`Block`), and beside it the configuration, the
transactions still to be served and the outputs of the instruction that ran last. All of it plain data. -/

namespace Sys2Proof.Machine

/-- One FIFO (R24). -/
structure Fifo where
  items : List Byte
  cap : Nat
  wm : Nat
  st : FifoState
  wmx : Bool
deriving DecidableEq, Repr

/-- A timer's phase (R27). -/
inductive Phase where
  | idle | armed | fired
deriving DecidableEq, Repr

/-- One timer unit (R27). -/
structure Timer where
  phase : Phase
  token : Token
deriving DecidableEq, Repr

/-- The block state S (R17): nothing else is state. Each list follows the order of its list in the configuration. -/
structure Block where
  /-- Register words: reserved bits and `Stored` fields (R18). -/
  reg : List Word
  /-- Raw pending flags (R20). -/
  pending : List Bool
  /-- Enable flags (R21). -/
  enabled : List Bool
  /-- FIFOs (R24). -/
  fifo : List Fifo
  /-- Transmit enable (R26). -/
  txEn : Bool
  /-- Receive enable (R26). -/
  rxEn : Bool
  /-- Loopback mode (R26). -/
  loopOn : Bool
  /-- Timer units (R27). -/
  timer : List Timer
  /-- Latched output signals (R28). -/
  sig : List Bool
deriving DecidableEq, Repr

/-- Diagnostics (60_exceptions.md R144): not architectural. -/
inductive Diag where
  | rejectedAccess (a : Addr) (n : Nat)
  | unmappedRead (a : Addr)
  | unmappedWrite (a : Addr)
  | readThroughWindow (a : Addr)
  | overflow (q : Nat)
  | underflow (q : Nat)
  | rxDropped (b : Byte)
  | txDropped (b : Byte)
  | setCapacityWhileEnabled (q : Nat)
  | badCapacity (q n : Nat)
  | staleTimer (t : Nat) (tok : Token)
  | badIndex (j : Nat)
deriving DecidableEq, Repr

/-- Output events of the trace (R29). -/
inductive Event where
  | transmit (b : Byte)
  | notify (q : Nat) (st0 st1 : FifoState) (wmx0 wmx1 : Bool)
  | timerSchedule (t : Nat) (tok : Token)
  | timerCancel (t : Nat) (tok : Token)
  | diag (d : Diag)
deriving DecidableEq, Repr

/-- What an operation returns: the value of a bus read, a bit, the outcome of a push or a pop (R62, R116, R117). -/
inductive Result where
  | none
  /-- The `8 * n`-bit value of a bus read of `n` bytes; it never needs more than 32 bits (log 10). -/
  | word (n : Nat) (v : Word)
  | bit (b : Bool)
  | pushOk
  | pushOverflow
  | popOk (b : Byte)
  | popUnderflow (dummy : Byte)
deriving DecidableEq, Repr

/-- The machine: the block under its configuration, with the model's own input and output fields. -/
structure State where
  /-- The configuration CFG (R11): a parameter that no step changes (log 1). -/
  cfg : Cfg
  /-- The block state S (R17). -/
  blk : Block
  /-- The transactions still to be served, in the order of the lock (20_memory.md R54; log 2). -/
  inbox : List Desc
  /-- The trace of the instruction that ran last (R29; log 4). -/
  trace : List Event
  /-- What the instruction that ran last returned (log 4). -/
  result : Result
deriving DecidableEq, Repr

/-- Why the machine stops with a fault. -/
inductive Fault where
  /-- A state in which some FIFO breaks 10_state.md R25, which 60_exceptions.md R143 asks to be a fault. Raised by `advance` before and
  after an entry point (when it checks is log 17). Safe: the machine stops where the spec gives no state. -/
  | invariantViolation
deriving DecidableEq, Repr

/-- Why the machine refuses to run. -/
inductive Refusal where
  /-- An instruction that has no meaning yet; raised by no arm of `exec` now. Safe. -/
  | notModelled (mnemonic : String)
  /-- A descriptor whose code is no operation: "not a transaction" (30_encoding.md R61). Raised by `issue`. Safe. -/
  | notATransaction (op : BitVec 8)
  /-- The code of an internal primitive, issued by an agent (30_encoding.md R61). Raised by `issue`. Safe. -/
  | internalFromAgent (op : BitVec 8)
  /-- An operation that the configuration does not admit, which the decoder never gives. Raised by `perform`. Safe (log 12). -/
  | illFormed
deriving DecidableEq, Repr

/-- The machine right after reset: REF just after construction, every value from 10_state.md R39 (and R156 for the token);
nothing to serve and no output yet (log 1, 2, 4). -/
def State.reset : State :=
  { cfg := Cfg.ref
    blk :=
      { reg := [0x00000000, 0x00000000, 0x00000000, 0xA5000008, 0x00000002]
        pending := [false, false, false, false, false]
        enabled := [false, false, false, false, false]
        fifo := [⟨[], 4, 2, .empty, false⟩, ⟨[], 4, 0, .empty, false⟩]
        txEn := false
        rxEn := false
        loopOn := false
        timer := [⟨.idle, 0⟩]
        sig := [false, false, false, true, false] }
    inbox := []
    trace := []
    result := .none }

end Sys2Proof.Machine
end

