-- ==== Sys2Proof/Machine/Flags.lean ====
section
/-! DEFINITION. Everything that is computed from flags and for flags: FIFO classification and predicates, clear policies,
field behaviours and the write arithmetic of fields, line levels and signal values. Also the custom predicate and the custom
signal function, which are opaque (40_register_file.md R77; log 8). -/

namespace Sys2Proof

/-- A custom predicate (41_interrupts.md R108): it reads the FIFOs and the three control bits (tx, rx, loop), nothing else. -/
opaque Config.customPred : Nat → List Machine.Fifo → Bool → Bool → Bool → Bool

/-- A custom signal function (43_peripheral.md R137): it is applied to a block without its `sig`. -/
opaque Config.customSignal : Nat → Machine.Block → Bool

namespace Machine

/-- `classify(n, cap)` (42_fifo.md R113). -/
def fifoClass (n cap : Nat) : FifoState :=
  if n = 0 then .empty else if cap ≤ n then .full else .ready

/-- The watermark-crossed level (R113). -/
def crossed (n wm : Nat) : Bool := decide (wm < n)

/-- The invariant of one FIFO between entry points (10_state.md R25). -/
def Fifo.consistent (f : Fifo) : Bool :=
  decide (f.items.length ≤ f.cap) && decide (f.st = fifoClass f.items.length f.cap)
    && decide (f.wmx = crossed f.items.length f.wm) && decide (f.wm ≤ f.cap)

/-- Every FIFO satisfies R25. -/
def State.consistent (s : State) : Bool := s.blk.fifo.all Fifo.consistent

/-- A FIFO predicate (41_interrupts.md R108). -/
def Fifo.pred (f : Fifo) : FifoPred → Bool
  | .empty => decide (f.st = .empty)
  | .notEmpty => decide (f.st ≠ .empty)
  | .ready => decide (f.st = .ready)
  | .full => decide (f.st = .full)
  | .notFull => decide (f.st ≠ .full)
  | .watermarkCrossed => f.wmx
  | .notWatermarkCrossed => !f.wmx

/-- `pred(q, p)` (R108); false for a FIFO that does not exist, which no constructed block names (log 14). -/
def Block.fifoPred (b : Block) (q : Nat) (p : FifoPred) : Bool :=
  match b.fifo[q]? with
  | some f => f.pred p
  | none => false

/-- `pred(s.cond, S)` (R101, R108). -/
def Block.holds (b : Block) : Cond → Bool
  | .fifo q p => b.fifoPred q p
  | .custom id => Config.customPred id b.fifo b.txEn b.rxEn b.loopOn

/-- `IRQ_IS_PENDING(s)` (R106). -/
def Block.isPending (b : Block) (i : Nat) : Bool := b.pending.getD i false

/-- `enabled[s]` (10_state.md R21). -/
def Block.isEnabled (b : Block) (i : Nat) : Bool := b.enabled.getD i false

/-- `IRQ_LEVEL(l)` (R107): the OR over the line's sources of pending AND enabled. -/
def lineLevel (c : Cfg) (b : Block) (l : Nat) : Bool :=
  match c.lines[l]? with
  | some d => d.sources.any (fun i => b.isPending i && b.isEnabled i)
  | none => false

/-- `eval(g.expr, S)` (43_peripheral.md R137). -/
def evalSignal (c : Cfg) (b : Block) : SignalExpr → Bool
  | .line l => lineLevel c b l
  | .fifo q p => b.fifoPred q p
  | .const v => v
  | .custom id => Config.customSignal id { b with sig := [] }

/-- The register that holds the field bound to `IrqPending(s)` (41_interrupts.md R98). -/
def statusRegOf (c : Cfg) (i : Nat) : Option RegDesc :=
  c.regs.find? (fun r => r.fields.any (fun f => decide (f.bind = .irqPending i)))

/-- The clear policy that a register's selector asks for (R98). -/
def policyOf (own : ClearPolicy) : StatusClear → ClearPolicy
  | .none => own
  | .w1c => .writeOneToClear
  | .cor => .clearOnRead
  | .both => .both

/-- The effective clear policy `eff(s)` (R98). A source that does not exist has no effect on reads and writes (log 14). -/
def eff (c : Cfg) (i : Nat) : ClearPolicy :=
  match c.sources[i]? with
  | none => .autoClear
  | some d =>
    if d.clear = .autoClear then .autoClear
    else
      match statusRegOf c i with
      | some r => policyOf d.clear r.statusClear
      | none => d.clear

/-- Read behaviour of an access mode (40_register_file.md R72). -/
def modeRead : AccessMode → ReadBeh
  | .readOnly => .read
  | .writeOnly => .zero
  | .readWrite => .read
  | .writeOneToClear => .read
  | .readToClear => .readToClear
  | .setOnWrite => .read

/-- Write behaviour of an access mode (R72). -/
def modeWrite : AccessMode → WriteBeh
  | .readOnly => .none
  | .writeOnly => .write
  | .readWrite => .write
  | .writeOneToClear => .w1c
  | .readToClear => .none
  | .setOnWrite => .w1s

/-- Read behaviour of a pending field (R73). -/
def policyRead : ClearPolicy → ReadBeh
  | .writeOneToClear => .read
  | .clearOnRead => .readToClear
  | .both => .readToClear
  | .autoClear => .read

/-- Write behaviour of a pending field (R73). -/
def policyWrite : ClearPolicy → WriteBeh
  | .writeOneToClear => .w1c
  | .clearOnRead => .none
  | .both => .w1c
  | .autoClear => .none

/-- Read behaviour of a field: by its mode, but for a pending field by its source's policy (R72, R73). -/
def readBeh (c : Cfg) (f : FieldDesc) : ReadBeh :=
  match f.bind with
  | .irqPending i => policyRead (eff c i)
  | _ => modeRead f.mode

/-- Write behaviour of a field (R72, R73). -/
def writeBeh (c : Cfg) (f : FieldDesc) : WriteBeh :=
  match f.bind with
  | .irqPending i => policyWrite (eff c i)
  | _ => modeWrite f.mode

/-- The new value of a written field (R74); with behaviour None the old value stays. -/
def newValue (wb : WriteBeh) (old x be : Word) : Word :=
  match wb with
  | .none => old
  | .write => (x &&& be) ||| (old &&& ~~~be)
  | .w1c => old &&& ~~~(x &&& be)
  | .w1s => old ||| (x &&& be)

end Machine
end Sys2Proof
end

