-- ==== Sys2Proof/Machine/Bits.lean ====
section
/-! DEFINITION. The bit-field operations of 00_scope.md section 5, on register words. -/

namespace Sys2Proof

/-- The word with the low `wid` bits set. -/
def ones (wid : Nat) : Word := BitVec.ofNat 32 (2 ^ wid - 1)

/-- `mask(off, wid)`: bits `off + wid - 1` down to `off` set, all others clear. -/
def mask (off wid : Nat) : Word := ones wid <<< off

/-- `trunc`: the low `wid` bits. -/
def trunc (wid : Nat) (v : Word) : Word := v &&& ones wid

/-- `slice(v, off, wid)`: a field's value, never sign-extended (30_encoding.md R65). -/
def slice (v : Word) (off wid : Nat) : Word := trunc wid (v >>> off)

/-- `insert(v, off, wid, x)`: `v` with a field replaced by the low `wid` bits of `x` (30_encoding.md R66). -/
def insertField (v : Word) (off wid : Nat) (x : Word) : Word :=
  (v &&& ~~~(mask off wid)) ||| (trunc wid x <<< off)

/-- Bit 0, as a truth value: the value of a one-bit field. -/
def bit0 (v : Word) : Bool := v.getLsbD 0

/-- A truth value as a one-bit field. -/
def ofBit (b : Bool) : Word := if b then 1 else 0

/-- The byte enables of a narrow access: lanes `k` to `k + n - 1` (20_memory.md R46). -/
def laneMask (k n : Nat) : Word := mask (8 * k) (8 * n)

/-- The lanes a narrow read returns (30_encoding.md R67). -/
def lanes (v : Word) (k n : Nat) : Word := slice v (8 * k) (8 * n)

end Sys2Proof
end

