-- ==== Sys2Proof/Machine/Window.lean ====
section
/-! DEFINITION. The MMIO window: the ranges of 20_memory.md R43, the decode of 30_encoding.md R63, and the check that
an operation fits the configuration it is run under. -/

namespace Sys2Proof

/-- The offset of an alias window (20_memory.md R42). -/
def Cfg.offset (c : Cfg) : Option Window → Nat
  | none => 0
  | some .set => c.setOffset.toNat
  | some .clear => c.clearOffset.toNat
  | some .toggle => c.toggleOffset.toNat

/-- The range of register `r` at index `i`, canonical or in a window (20_memory.md R43). -/
def Cfg.span (c : Cfg) (r : RegDesc) (i : Nat) (win : Option Window) : Span :=
  ⟨win, i, r.addr.toNat + c.offset win, r.w / 8⟩

/-- The alias windows the block has (30_encoding.md R63, R71: only when `has_alias`). -/
def Cfg.windows (c : Cfg) : List (Option Window) :=
  if c.hasAlias then [some .set, some .clear, some .toggle] else []

/-- All ranges, in the order in which 30_encoding.md R63 tests them: the alias windows first. -/
def Cfg.spans (c : Cfg) : List Span :=
  c.regs.zipIdx.flatMap (fun p => c.windows.map (c.span p.1 p.2))
    ++ c.regs.zipIdx.map (fun p => c.span p.1 p.2 none)

/-- Whether address `a` lies in a range. -/
def Span.covers (sp : Span) (a : Nat) : Bool := decide (sp.base ≤ a) && decide (a < sp.base + sp.len)

/-- The sizes a bus access may have (20_memory.md R40). -/
def busSize (n : Nat) : Bool := n == 1 || n == 2 || n == 4

/-- `access_form` of 30_encoding.md R63, for a hit `k` bytes into a range of `len` bytes (20_memory.md R45). -/
def Cfg.accessForm (c : Cfg) (win : Option Window) (r len k n : Nat) : AddrClass :=
  if busSize n = false then .rejected
  else if n = len ∧ k = 0 then .exact win r
  else if n < len ∧ k % n = 0 ∧ c.translation = .widen then .narrow win r k
  else .rejected

/-- `classify` of 30_encoding.md R63: the address class of an access of `n` bytes at `a`. -/
def Cfg.classify (c : Cfg) (a : Addr) (n : Nat) : AddrClass :=
  match c.spans.find? (·.covers a.toNat) with
  | some sp => c.accessForm sp.win sp.reg sp.len (a.toNat - sp.base) n
  | none => .unmapped

/-- The width in bytes of register `r`; 0 when there is none. -/
def Cfg.regBytes (c : Cfg) (r : Nat) : Nat :=
  match c.regs[r]? with
  | some d => d.w / 8
  | none => 0

/-- A narrow access of `n` bytes at lane `k` of register `r` (20_memory.md R45). -/
def Cfg.narrowFits (c : Cfg) (r k n : Nat) : Bool :=
  busSize n && decide (n < c.regBytes r) && decide (k < c.regBytes r) && decide (k % n = 0)
    && decide (c.translation = .widen)

/-- A bus value of `n` bytes: the bits `data[8n-1:0]` of a descriptor (30_encoding.md R62). -/
def busValue (n : Nat) (data : BitVec 64) : BitVec 64 :=
  if 8 ≤ n then data else data &&& BitVec.ofNat 64 (2 ^ (8 * n) - 1)

/-- A value that fits register `r`. -/
def Cfg.fitsReg (c : Cfg) (r : Nat) (v : Word) : Bool := decide (trunc (8 * c.regBytes r) v = v)

/-- Whether the operation is one that configuration `c` has: the class conditions of 30_encoding.md R63 hold, a value has
the width of its access, and every register, FIFO, source, line and timer it names exists (log 12). -/
def Cfg.admits (c : Cfg) : Instr → Bool
  | .read r => busSize (c.regBytes r)
  | .readSet r | .readClr r | .readTgl r => busSize (c.regBytes r) && c.hasAlias
  | .readNarrow r k n => c.narrowFits r k n
  | .readNarrowAlias _ r k n => c.narrowFits r k n && c.hasAlias
  | .readRejected a n => decide (c.classify a n.toNat = .rejected)
  | .readUnmapped a n => decide (c.classify a n.toNat = .unmapped)
  | .write r v => busSize (c.regBytes r) && c.fitsReg r v
  | .writeSet r m | .writeClr r m | .writeTgl r m => busSize (c.regBytes r) && c.hasAlias && c.fitsReg r m
  | .writeNarrow r k n x => c.narrowFits r k n && decide (trunc (8 * n) x = x)
  | .writeNarrowAlias _ r k n x => c.narrowFits r k n && c.hasAlias && decide (trunc (8 * n) x = x)
  | .writeRejected a n v => decide (c.classify a n.toNat = .rejected) && decide (busValue n.toNat v = v)
  | .writeUnmapped a n v => decide (c.classify a n.toNat = .unmapped) && decide (busValue n.toNat v = v)
  | .rxByte _ | .flush _ | .reset | .timerFire _ _ | .signalSample _ => true
  | .fifoPush q _ | .fifoPop q | .fifoFlush q | .fifoSetCapacity q _ | .fifoSetWatermark q _ => decide (q < c.fifos.length)
  | .irqSet i _ | .irqSetEnabled i _ | .irqIsPending i => decide (i < c.sources.length)
  | .irqLevel l => decide (l < c.lines.length)
  | .recompute | .txByte _ | .txDrain | .txEnable _ => true
  | .timerArm t | .timerCancel t => decide (t < c.timers.length)

end Sys2Proof
end

