-- ==== Sys2Proof/WellFormed.lean ====
section
/-! DEFINITION. Well-formed operations: those the configuration admits and the 144-bit descriptor of 30_encoding.md R58 can hold. -/

namespace Sys2Proof

/-- The operands fit the descriptor's 64-bit fields (30_encoding.md R58). -/
def Instr.fits : Instr → Bool
  | .fifoPush q _ | .fifoPop q | .fifoFlush q => decide (q < 2 ^ 64)
  | .fifoSetCapacity q n | .fifoSetWatermark q n => decide (q < 2 ^ 64) && decide (n < 2 ^ 64)
  | .irqSet i _ | .irqSetEnabled i _ | .irqIsPending i | .irqLevel i => decide (i < 2 ^ 64)
  | .timerArm t | .timerCancel t => decide (t < 2 ^ 64)
  | _ => true

/-- A well-formed operation of configuration `c`: every check of `Cfg.admits` holds and the operands fit. -/
abbrev Instr.WellFormed (c : Cfg) (i : Instr) : Prop := c.admits i = true ∧ i.fits = true

end Sys2Proof
end

