-- ==== Sys2Proof/Machine/Ops.lean ====
section
/-! DEFINITION. The named operations on the state: the updates of one element, raising an internal event, the FIFO
primitives, the receive and transmit paths, the timer primitives and recompute. The block takes no exception and has no
return from one (60_exceptions.md R140, R145); an internal event is what raises a flag here. -/

namespace Sys2Proof.Machine

/-- Replaces the block. -/
def State.withBlk (s : State) (b : Block) : State := { s with blk := b }
/-- `reg[r] <- v`. -/
def State.setReg (s : State) (r : Nat) (v : Word) : State := { s with blk := { s.blk with reg := s.blk.reg.set r v } }
/-- `pending <- p`, for the whole vector of flags. -/
def State.setPendings (s : State) (p : List Bool) : State := { s with blk := { s.blk with pending := p } }
/-- `enabled <- p`, for the whole vector of flags. -/
def State.setEnableds (s : State) (p : List Bool) : State := { s with blk := { s.blk with enabled := p } }
/-- `fifo[q] <- f`. -/
def State.setFifo (s : State) (q : Nat) (f : Fifo) : State := { s with blk := { s.blk with fifo := s.blk.fifo.set q f } }
/-- `tx_en <- b`. -/
def State.setTxEn (s : State) (b : Bool) : State := { s with blk := { s.blk with txEn := b } }
/-- `rx_en <- b`. -/
def State.setRxEn (s : State) (b : Bool) : State := { s with blk := { s.blk with rxEn := b } }
/-- `loop <- b`. -/
def State.setLoop (s : State) (b : Bool) : State := { s with blk := { s.blk with loopOn := b } }
/-- `timer[t] <- x`. -/
def State.setTimer (s : State) (t : Nat) (x : Timer) : State := { s with blk := { s.blk with timer := s.blk.timer.set t x } }
/-- `sig <- v`, for the whole vector of signals. -/
def State.setSig (s : State) (v : List Bool) : State := { s with blk := { s.blk with sig := v } }
/-- `emit E` (10_state.md R29). -/
def State.emit (s : State) (e : Event) : State := { s with trace := s.trace ++ [e] }
/-- Emits a diagnostic (60_exceptions.md R144). -/
def State.diag (s : State) (d : Diag) : State := s.emit (.diag d)
/-- The value the operation returns. -/
def State.returning (s : State) (r : Result) : State := { s with result := r }
/-- An instruction starts with an empty trace and nothing returned (log 4). -/
def State.start (s : State) : State := { s with trace := [], result := .none }

/-- `reg[r]`; 0 for a register that does not exist (log 14). -/
def State.regWord (s : State) (r : Nat) : Word := s.blk.reg.getD r 0

/-- IRQ_SET(s, b) (41_interrupts.md R104). -/
def irqSet (i : Nat) (b : Bool) (s : State) : State := s.setPendings (s.blk.pending.set i b)

/-- IRQ_SET_ENABLED(s, b) (41_interrupts.md R105). -/
def irqSetEnabled (i : Nat) (b : Bool) (s : State) : State := s.setEnableds (s.blk.enabled.set i b)

/-- The pending flags after event `e`: set where the source lists it, kept elsewhere (41_interrupts.md R103). -/
def markTriggered (e : IEvent) : List SourceDesc → List Bool → List Bool
  | d :: ds, p :: ps => (p || d.triggers.contains e) :: markTriggered e ds ps
  | _, ps => ps

/-- Raises an internal event, consumed at once by the triggers (41_interrupts.md R103). -/
def raise (e : IEvent) (s : State) : State := s.setPendings (markTriggered e s.cfg.sources s.blk.pending)

/-- `settle(q, st0, wmx0)` (42_fifo.md R114). -/
def settle (q : Nat) (st0 : FifoState) (wmx0 : Bool) (s : State) : State :=
  match s.blk.fifo[q]? with
  | none => s
  | some f =>
    let st1 := fifoClass f.items.length f.cap
    let wmx1 := crossed f.items.length f.wm
    let s1 := s.setFifo q { f with st := st1, wmx := wmx1 }
    if st1 = st0 ∧ wmx1 = wmx0 then s1
    else
      let s2 := s1.emit (.notify q st0 st1 wmx0 wmx1)
      let s3 := if st1 ≠ st0 then raise (.enterState q st1) s2 else s2
      let s4 := if wmx1 && !wmx0 then raise (.watermarkRise q) s3 else s3
      if wmx0 && !wmx1 then raise (.watermarkFall q) s4 else s4

/-- Replaces a FIFO's items, capacity and watermark and settles it: the shape of every FIFO primitive that changes one (R114). -/
def refit (q : Nat) (f : Fifo) (items : List Byte) (cap wm : Nat) (s : State) : State :=
  settle q f.st f.wmx (s.setFifo q { f with items := items, cap := cap, wm := wm })

/-- FIFO_PUSH(q, b) (42_fifo.md R116). -/
def fifoPush (q : Nat) (b : Byte) (s : State) : State :=
  match s.blk.fifo[q]? with
  | none => s
  | some f =>
    if f.cap ≤ f.items.length then (raise (.overflow q) s).diag (.overflow q)
    else
      settle q f.st f.wmx (raise (.pushed q) (s.setFifo q { f with items := f.items ++ [b] }))

/-- What FIFO_PUSH returns, from the state before it (R116). -/
def pushResult (q : Nat) (s : State) : Result :=
  match s.blk.fifo[q]? with
  | none => .none
  | some f => if f.cap ≤ f.items.length then .pushOverflow else .pushOk

/-- `q.dummy` (10_state.md R15). -/
def dummyOf (c : Cfg) (q : Nat) : Byte :=
  match c.fifos[q]? with
  | some d => d.dummy
  | none => 0

/-- FIFO_POP(q) (42_fifo.md R117). -/
def fifoPop (q : Nat) (s : State) : State :=
  match s.blk.fifo[q]? with
  | none => s
  | some f =>
    match f.items with
    | [] => (raise (.underflow q) s).diag (.underflow q)
    | _ :: rest => refit q f rest f.cap f.wm s

/-- What FIFO_POP returns, from the state before it (R117). -/
def popResult (q : Nat) (s : State) : Result :=
  match s.blk.fifo[q]? with
  | none => .none
  | some f =>
    match f.items with
    | [] => .popUnderflow (dummyOf s.cfg q)
    | b :: _ => .popOk b

/-- FIFO_FLUSH(q) (42_fifo.md R118). -/
def fifoFlush (q : Nat) (s : State) : State :=
  match s.blk.fifo[q]? with
  | none => s
  | some f => refit q f [] f.cap f.wm s

/-- Whether a natural is a power of two. -/
def isPow2 (n : Nat) : Bool := decide (n = 2 ^ n.log2)

/-- Whether FIFO `q` may have only power-of-two capacities (10_state.md R15). -/
def needsPow2 (c : Cfg) (q : Nat) : Bool :=
  match c.fifos[q]? with
  | some d => d.pow2
  | none => false

/-- FIFO_SET_CAPACITY(q, n) (42_fifo.md R119). -/
def fifoSetCapacity (q n : Nat) (s : State) : State :=
  match s.blk.fifo[q]? with
  | none => s
  | some f =>
    if n = f.cap then s
    else if s.blk.txEn || s.blk.rxEn then s.diag (.setCapacityWhileEnabled q)
    else if n < 1 ∨ (needsPow2 s.cfg q = true ∧ isPow2 n = false) then s.diag (.badCapacity q n)
    else refit q f (if n < f.items.length then [] else f.items) n (min f.wm n) s

/-- FIFO_SET_WATERMARK(q, n) (42_fifo.md R120). -/
def fifoSetWatermark (q n : Nat) (s : State) : State :=
  match s.blk.fifo[q]? with
  | none => s
  | some f => refit q f f.items f.cap (min n f.cap) s

/-- The FIFO with a role, where it exists (43_peripheral.md, opening). -/
def fifoOf (c : Cfg) (r : Role) : Option Nat := c.fifos.findIdx? (fun d => decide (d.role = r))

/-- The items of the tx FIFO; none where there is no tx FIFO. -/
def txItems (c : Cfg) (b : Block) : List Byte :=
  match fifoOf c .tx with
  | none => []
  | some q =>
    match b.fifo[q]? with
    | none => []
    | some f => f.items

/-- `rx_path(b)` (43_peripheral.md R124). -/
def rxPath (b : Byte) (s : State) : State :=
  match fifoOf s.cfg .rx, s.blk.rxEn with
  | some q, true => fifoPush q b s
  | _, _ => s.diag (.rxDropped b)

/-- `deliver(b)` (43_peripheral.md R126). -/
def deliver (b : Byte) (s : State) : State :=
  if s.blk.loopOn then
    let s1 := rxPath b s
    if s1.cfg.loopbackAlsoTransmits then s1.emit (.transmit b) else s1
  else s.emit (.transmit b)

/-- TX_BYTE(b) (43_peripheral.md R127). -/
def txByte (b : Byte) (s : State) : State :=
  if s.blk.txEn then deliver b s
  else
    match fifoOf s.cfg .tx with
    | some q => fifoPush q b s
    | none => s.diag (.txDropped b)

/-- At most `n` rounds of the loop of TX_DRAIN on FIFO `q`; each pops one item and delivers it (43_peripheral.md R129). -/
def drainLoop (q : Nat) : Nat → State → State
  | 0, s => s
  | n + 1, s =>
    match s.blk.fifo[q]? with
    | none => s
    | some f =>
      match f.items with
      | [] => s
      | b :: _ => drainLoop q n (deliver b (fifoPop q s))

/-- TX_DRAIN (43_peripheral.md R129). Every round takes an item and none puts one back, so the number of items bounds the loop. -/
def txDrain (s : State) : State :=
  match fifoOf s.cfg .tx with
  | none => s
  | some q =>
    match s.blk.fifo[q]? with
    | none => s
    | some f => drainLoop q f.items.length s

/-- TX_ENABLE(b) (43_peripheral.md R128). -/
def txEnable (b : Bool) (s : State) : State :=
  let s1 := s.setTxEn b
  if !s.blk.txEn && b then txDrain s1 else s1

/-- Announces that the firing of an armed timer is void (43_peripheral.md R133, R134). -/
def voidFiring (t : Nat) (x : Timer) (s : State) : State :=
  if x.phase = .armed then s.emit (.timerCancel t x.token) else s

/-- TIMER_ARM(t) (43_peripheral.md R133). -/
def timerArm (t : Nat) (s : State) : State :=
  match s.blk.timer[t]? with
  | none => s
  | some x => ((voidFiring t x s).setTimer t ⟨.armed, x.token + 1⟩).emit (.timerSchedule t (x.token + 1))

/-- TIMER_CANCEL(t) (43_peripheral.md R134). -/
def timerCancel (t : Nat) (s : State) : State :=
  match s.blk.timer[t]? with
  | none => s
  | some x => (voidFiring t x s).setTimer t ⟨.idle, x.token + 1⟩

/-- Whether a source is cleared by recompute now: its policy is AutoClear and its condition is false (41_interrupts.md R101). -/
def autoClears (b : Block) (d : SourceDesc) : Bool :=
  match d.clear, d.cond with
  | .autoClear, some k => !b.holds k
  | _, _ => false

/-- The pending flags after recompute's first loop (41_interrupts.md R109). -/
def clearAuto (b : Block) : List SourceDesc → List Bool → List Bool
  | d :: ds, p :: ps => (p && !autoClears b d) :: clearAuto b ds ps
  | _, ps => ps

/-- RECOMPUTE (41_interrupts.md R109). -/
def recompute (s : State) : State :=
  let s1 := s.setPendings (clearAuto s.blk s.cfg.sources s.blk.pending)
  s1.setSig (s1.cfg.signals.map (fun g => evalSignal s1.cfg s1.blk g.expr))

/-- Runs an operation that the configuration admits, from an empty trace; refuses one it does not admit (log 12). -/
def State.perform (s : State) (i : Instr) (body : State → State) : Host.Outcome State Fault Refusal :=
  if s.cfg.admits i then .next (body s.start) else .refused .illFormed

end Sys2Proof.Machine
end

