-- ==== Sys2Proof/Machine/Custom.lean ====
section
/-! DEFINITION. The custom functions of a configuration (40_register_file.md R77). What a custom function reads is the whole
block; what it does is a list of actions: an internal primitive, a trace event, an internal event, or a write of the
`Stored` bits of its own register. The functions themselves are opaque: a claim holds for every one of them (log 8). -/

namespace Sys2Proof

/-- What a custom function may do (R77). -/
inductive Act where
  | fifoPush (q : Nat) (b : Byte)
  | fifoPop (q : Nat)
  | fifoFlush (q : Nat)
  | fifoSetCapacity (q n : Nat)
  | fifoSetWatermark (q n : Nat)
  | irqSet (i : Nat) (b : Bool)
  | irqSetEnabled (i : Nat) (b : Bool)
  | recompute
  | txByte (b : Byte)
  | txDrain
  | txEnable (b : Bool)
  | timerArm (t : Nat)
  | timerCancel (t : Nat)
  | emit (e : Machine.Event)
  | raise (e : IEvent)
  /-- Writes the `Stored` bits of the function's own register. -/
  | store (v : Word)
deriving DecidableEq, Repr

/-- `pk` of a `Custom` binding: a value of the block. -/
opaque Config.customPeek : Nat → Machine.Block → Word

/-- `rd` of a `Custom` binding. -/
opaque Config.customRead : Nat → Machine.Block → List Act

/-- `ap` of a `Custom` binding, of the new value. -/
opaque Config.customApply : Nat → Word → Machine.Block → List Act

/-- A field's write effect, of the old and the new value. -/
opaque Config.customEffect : Nat → Word → Word → Machine.Block → List Act

/-- A register's `post_read` or `post_write`. -/
opaque Config.customPost : Nat → Machine.Block → List Act

namespace Machine

/-- The bits of a register that `Stored` fields cover (10_state.md R18). -/
def storedMask (d : RegDesc) : Word :=
  d.fields.foldl (fun m f => if f.bind = .stored then m ||| mask f.off f.wid else m) 0

/-- A write of the `Stored` bits of register `r`; reserved bits and bits under other bindings stay (R18, R19; log 9). -/
def storeOwn (r : Nat) (v : Word) (s : State) : State :=
  match s.cfg.regs[r]? with
  | none => s
  | some d =>
    let m := storedMask d
    s.setReg r ((s.regWord r &&& ~~~m) ||| (v &&& m))

/-- One action of a custom function of register `r`; on an element that the block does not have it does nothing (log 8). -/
def runAct (r : Nat) (s : State) : Act → State
  | .fifoPush q b => fifoPush q b s
  | .fifoPop q => fifoPop q s
  | .fifoFlush q => fifoFlush q s
  | .fifoSetCapacity q n => fifoSetCapacity q n s
  | .fifoSetWatermark q n => fifoSetWatermark q n s
  | .irqSet i b => irqSet i b s
  | .irqSetEnabled i b => irqSetEnabled i b s
  | .recompute => recompute s
  | .txByte b => txByte b s
  | .txDrain => txDrain s
  | .txEnable b => txEnable b s
  | .timerArm t => timerArm t s
  | .timerCancel t => timerCancel t s
  | .emit e => s.emit e
  | .raise e => raise e s
  | .store v => storeOwn r v s

/-- Whether the tx FIFO holds nothing that 43_peripheral.md R130 forbids: transmit is disabled, or the FIFO is empty. -/
def queueClear (s : State) : Bool := !s.blk.txEn || (txItems s.cfg s.blk).isEmpty

/-- A custom function of register `r`: its actions in order. R77 asks that R130 hold after the whole function, so a list that
leaves bytes queued with transmit enabled is no custom function and does nothing (log 9); one that pushes and then drains,
flushes or disables transmit runs as it stands. -/
def runActs (r : Nat) (l : List Act) (s : State) : State :=
  let t := l.foldl (runAct r) s
  if queueClear s && !queueClear t then s else t

end Machine
end Sys2Proof
end

