-- ==== Sys2Proof/Machine/Operands.lean ====
section
/-! DEFINITION. The operand forms of the register file: what each binding reads, does when read, and does when written
(40_register_file.md R75). -/

namespace Sys2Proof.Machine

/-- The value a `UartData` field shows: the head of the rx FIFO, its dummy when it is empty, 0 without an rx FIFO (R75). -/
def uartPeek (c : Cfg) (b : Block) : Option Nat → Word
  | none => 0
  | some q =>
    match b.fifo[q]? with
    | none => 0
    | some f =>
      match f.items with
      | [] => (dummyOf c q).setWidth 32
      | x :: _ => x.setWidth 32

/-- A number of FIFO `q`, 0 for one that does not exist (log 14). -/
def fifoNumber (b : Block) (q : Nat) (g : Fifo → Nat) : Word :=
  match b.fifo[q]? with
  | some f => BitVec.ofNat 32 (g f)
  | none => 0

/-- Whether FIFO `q` is in FIFO mode: its capacity is above 1 (R75, `FifoMode`). -/
def inFifoMode (b : Block) (q : Nat) : Bool :=
  match b.fifo[q]? with
  | some f => decide (1 < f.cap)
  | none => false

/-- `peek` of field `f` of register `r`, before it is cut to the field's width (R75). -/
def bindPeek (c : Cfg) (b : Block) (r : Nat) (f : FieldDesc) : Word :=
  match f.bind with
  | .stored => slice (b.reg.getD r 0) f.off f.wid
  | .irqPending i => ofBit (b.isPending i)
  | .irqEnable i => ofBit (b.isEnabled i)
  | .irqMaskMirror i => ofBit (b.isEnabled i)
  | .uartData qr _ => uartPeek c b qr
  | .fifoCount q => fifoNumber b q (·.items.length)
  | .fifoFlag q p => ofBit (b.fifoPred q p)
  | .fifoWatermark q => fifoNumber b q (·.wm)
  | .fifoMode q => ofBit (inFifoMode b q)
  | .fifoFlush _ => 0
  | .rxEnable => ofBit b.rxEn
  | .txEnable => ofBit b.txEn
  | .loopback => ofBit b.loopOn
  | .timerStart _ => 0
  | .timerStop _ => 0
  | .custom pk _ _ => Config.customPeek pk b

/-- The value of a field: its binding's peek at the field's width (R78). -/
def fieldValue (c : Cfg) (b : Block) (r : Nat) (f : FieldDesc) : Word := trunc f.wid (bindPeek c b r f)

/-- `onRead` of a binding (R75): a `UartData` field pops the rx FIFO, a custom one runs its read action. -/
def bindRead (r : Nat) (f : FieldDesc) (s : State) : State :=
  match f.bind with
  | .uartData (some q) _ => fifoPop q s
  | .custom _ rd _ => runActs r (Config.customRead rd s.blk) s
  | _ => s

/-- The capacity a FIFO has in FIFO mode (10_state.md R15); 1 for one that does not exist (log 14). -/
def fifoModeCap (c : Cfg) (q : Nat) : Nat :=
  match c.fifos[q]? with
  | some d => d.capFifoMode
  | none => 1

/-- `apply(new)` of a binding (R75). A pending field writes `pending[s]` itself; no standard binding invokes IRQ_SET
(41_interrupts.md R102). -/
def bindApply (r : Nat) (f : FieldDesc) (new : Word) (s : State) : State :=
  match f.bind with
  | .stored => s.setReg r (insertField (s.regWord r) f.off f.wid new)
  | .irqPending i => s.setPendings (s.blk.pending.set i (bit0 new))
  | .irqEnable i => irqSetEnabled i (bit0 new) s
  | .irqMaskMirror _ => s
  | .uartData _ (some _) => txByte (new.setWidth 8) s
  | .uartData _ none => s
  | .fifoCount _ => s
  | .fifoFlag _ _ => s
  | .fifoWatermark q => fifoSetWatermark q new.toNat s
  | .fifoMode q => fifoSetCapacity q (if bit0 new then fifoModeCap s.cfg q else 1) s
  | .fifoFlush q => if bit0 new then fifoFlush q s else s
  | .rxEnable => s.setRxEn (bit0 new)
  | .txEnable => txEnable (bit0 new) s
  | .loopback => s.setLoop (bit0 new)
  | .timerStart t => if bit0 new then timerArm t s else s
  | .timerStop t => if bit0 new then timerCancel t s else s
  | .custom _ _ ap => runActs r (Config.customApply ap new s.blk) s

end Sys2Proof.Machine
end

