-- ==== Sys2Proof/Machine/RegisterFile.lean ====
section
/-! DEFINITION. The register file: peek, the masked read and the masked write (40_register_file.md R78, R80, R82), and the
write through a Set, Clear or Toggle window (R87). -/

namespace Sys2Proof.Machine

/-- The fields of register `r`; none for a register that does not exist. -/
def fieldsOf (c : Cfg) (r : Nat) : List FieldDesc :=
  match c.regs[r]? with
  | some d => d.fields
  | none => []

/-- The width of register `r` in bits. -/
def widthOf (c : Cfg) (r : Nat) : Nat :=
  match c.regs[r]? with
  | some d => d.w
  | none => 0

/-- `post_read` or `post_write` of a register: the identity when absent (10_state.md R12). -/
def runPost (r : Nat) (h : Option Nat) (s : State) : State :=
  match h with
  | none => s
  | some id => runActs r (Config.customPost id s.blk) s

/-- What a field contributes to a composed value (R78): 0 where its read behaviour is Zero. -/
def shownValue (c : Cfg) (b : Block) (r : Nat) (f : FieldDesc) : Word :=
  if readBeh c f = .zero then 0 else fieldValue c b r f

/-- `peek(r)`: the composed value with no side effect (R78). -/
def peekReg (c : Cfg) (b : Block) (r : Nat) : Word :=
  (fieldsOf c r).foldl (fun acc f => insertField acc f.off f.wid (shownValue c b r f)) (b.reg.getD r 0)

/-- Whether a field has a bit among the enabled ones (R80, R82). -/
def touched (be : Word) (f : FieldDesc) : Bool := decide (slice be f.off f.wid ≠ 0)

/-- One field of the first loop of `read_masked` (R80): its value is taken, then its read action runs. -/
def readField (r : Nat) (be : Word) (p : State × Word) (f : FieldDesc) : State × Word :=
  if readBeh p.1.cfg f = .zero then (p.1, insertField p.2 f.off f.wid 0)
  else
    let x := fieldValue p.1.cfg p.1.blk r f
    (if touched be f then bindRead r f p.1 else p.1, insertField p.2 f.off f.wid x)

/-- One field of the second loop of `read_masked` (R80, R81): a ReadToClear field is cleared. -/
def clearField (r : Nat) (be : Word) (s : State) (f : FieldDesc) : State :=
  if readBeh s.cfg f = .readToClear ∧ touched be f = true then bindApply r f 0 s else s

/-- The first loop of `read_masked` (R80). -/
def readLoop (r : Nat) (be : Word) (s : State) : State × Word :=
  (fieldsOf s.cfg r).foldl (readField r be) (s, s.regWord r)

/-- `read_masked(r, BE)` (R80): the state after the read, and the composed word. -/
def readMasked (r : Nat) (be : Word) (s : State) : State × Word :=
  let p := readLoop r be s
  let s1 := (fieldsOf s.cfg r).foldl (clearField r be) p.1
  (runPost r ((s.cfg.regs[r]?).bind (·.postRead)) s1, p.2)

/-- A field to be written, with its value before the write and after it (R82). -/
abbrev FieldWrite := FieldDesc × Word × Word

/-- The fields a write reaches, `W` of R82, each with its old and new value; all old values are those before the write. -/
def fieldWrites (c : Cfg) (b : Block) (r : Nat) (v be : Word) : List FieldWrite :=
  ((fieldsOf c r).filter (fun f => decide (writeBeh c f ≠ .none) && touched be f)).map (fun f =>
    let old := fieldValue c b r f
    (f, old, newValue (writeBeh c f) old (slice v f.off f.wid) (slice be f.off f.wid)))

/-- A field's apply (R82). -/
def applyWrite (r : Nat) (s : State) (w : FieldWrite) : State := bindApply r w.1 w.2.2 s

/-- A field's write effect, where it has one (R82, R77). -/
def effectWrite (r : Nat) (s : State) (w : FieldWrite) : State :=
  match w.1.effect with
  | none => s
  | some id => runActs r (Config.customEffect id w.2.1 w.2.2 s.blk) s

/-- `write_masked(r, v, BE)` (R82): every apply, then every effect, then `post_write`. -/
def writeMasked (r : Nat) (v be : Word) (s : State) : State :=
  let ws := fieldWrites s.cfg s.blk r v be
  let s1 := ws.foldl (applyWrite r) s
  let s2 := ws.foldl (effectWrite r) s1
  runPost r ((s.cfg.regs[r]?).bind (·.postWrite)) s2

/-- The combination a window makes (R87). -/
def combine : Window → Word → Word → Word
  | .set, c, m => c ||| m
  | .clear, c, m => c &&& ~~~m
  | .toggle, c, m => c ^^^ m

/-- `alias_write(r, K, m, BE)` (R87): the peek, the combination and the write. -/
def windowWrite (w : Window) (r : Nat) (m be : Word) (s : State) : State :=
  writeMasked r (combine w (peekReg s.cfg s.blk r) m) be s

end Sys2Proof.Machine
end

