-- ==== Sys2Proof/Machine/Construct.lean ====
section
/-! DEFINITION. Reset values (10_state.md R31 to R37), the checks of construction (70_reset_and_hazards.md R155) and
construction itself (R156). -/

namespace Sys2Proof.Machine

/-- The reset-value slice of the first field with a binding, in register order, then field order (10_state.md R33). -/
def resetFieldOf (c : Cfg) (b : Binding) : Option Word :=
  c.regs.findSome? (fun r =>
    r.fields.findSome? (fun f => if f.bind = b then some (slice r.resetValue f.off f.wid) else none))

/-- `rst_enabled(s)` (10_state.md R33). -/
def rstEnabled (c : Cfg) (i : Nat) (d : SourceDesc) : Bool :=
  match resetFieldOf c (.irqEnable i) with
  | some v => bit0 v
  | none => d.enableReset

/-- `rst_wm(q)` (10_state.md R34). -/
def rstWm (c : Cfg) (q : Nat) (d : FifoDesc) : Nat :=
  match resetFieldOf c (.fifoWatermark q) with
  | some v => min v.toNat d.capReset
  | none => d.wmReset

/-- A control bit after reset (10_state.md R35). -/
def rstBit (c : Cfg) (b : Binding) : Bool :=
  match resetFieldOf c b with
  | some v => bit0 v
  | none => false

/-- A FIFO after reset (10_state.md R34). -/
def rstFifo (c : Cfg) (q : Nat) (d : FifoDesc) : Fifo :=
  { items := [], cap := d.capReset, wm := rstWm c q d, st := .empty, wmx := false }

/-- Every element of the block after reset but the signals, with the timers given (R157); recompute gives the signals. -/
def rstBlock (c : Cfg) (timers : List Timer) : Block :=
  { reg := c.regs.map (·.resetValue)
    pending := c.sources.map (fun _ => false)
    enabled := c.sources.zipIdx.map (fun p => rstEnabled c p.2 p.1)
    fifo := c.fifos.zipIdx.map (fun p => rstFifo c p.2 p.1)
    txEn := rstBit c .txEnable
    rxEn := rstBit c .rxEnable
    loopOn := rstBit c .loopback
    timer := timers
    sig := [] }

/-- The trace events of a reset: the firing of each armed timer is void (R157). -/
def rstEvents (timers : List Timer) : List Event :=
  timers.zipIdx.filterMap (fun p => if p.1.phase = .armed then some (.timerCancel p.2 p.1.token) else none)

/-- The body of RESET before its recompute (R157). -/
def resetBody (s : State) : State :=
  { s with
    blk := rstBlock s.cfg (s.blk.timer.map (fun t => ⟨.idle, t.token + 1⟩))
    trace := s.trace ++ rstEvents s.blk.timer }

/-- Check 1 (R155): widths and reset values. -/
def checkWidths (c : Cfg) : Bool :=
  c.regs.all (fun r => (r.w == 8 || r.w == 16 || r.w == 32) && decide (trunc r.w r.resetValue = r.resetValue))

/-- Two fields have no common bit (10_state.md R13). -/
def disjointFields (f g : FieldDesc) : Bool := decide (mask f.off f.wid &&& mask g.off g.wid = 0)

/-- Check 2 (R155): fields inside their register, no two overlapping. -/
def checkFields (c : Cfg) : Bool :=
  c.regs.all (fun r =>
    r.fields.all (fun f => decide (1 ≤ f.wid) && decide (f.off + f.wid ≤ r.w))
      && decide (r.fields.Pairwise (fun f g => disjointFields f g = true)))

/-- Check 3 (R155): alignment of addresses and offsets. -/
def checkAlignment (c : Cfg) : Bool :=
  c.regs.all (fun r => r.addr.toNat % (r.w / 8) == 0)
    && c.setOffset.toNat % 4 == 0 && c.clearOffset.toNat % 4 == 0 && c.toggleOffset.toNat % 4 == 0

/-- Two ranges have no common address (20_memory.md R43). -/
def disjointSpans (x y : Span) : Bool := decide (x.base + x.len ≤ y.base) || decide (y.base + y.len ≤ x.base)

/-- Check 4 (R155): no two ranges overlap, none wraps, the offsets of a window are distinct and not zero. -/
def checkRanges (c : Cfg) : Bool :=
  c.spans.all (fun x => decide (x.base + x.len ≤ 2 ^ 64))
    && decide (c.spans.Pairwise (fun x y => disjointSpans x y = true))
    && (!c.hasAlias ||
      (decide (c.setOffset ≠ c.clearOffset) && decide (c.setOffset ≠ c.toggleOffset) && decide (c.clearOffset ≠ c.toggleOffset)
        && decide (c.setOffset ≠ 0) && decide (c.clearOffset ≠ 0) && decide (c.toggleOffset ≠ 0)))

/-- FIFO `q` exists and has a role. -/
def hasRole (c : Cfg) (q : Nat) (r : Role) : Bool :=
  match c.fifos[q]? with
  | some d => decide (d.role = r)
  | none => false

/-- The declared mode a pending field must have (40_register_file.md R73). -/
def pendingMode (p : ClearPolicy) (m : AccessMode) : Bool :=
  match p with
  | .writeOneToClear => decide (m = .writeOneToClear)
  | .clearOnRead => decide (m = .readToClear)
  | .both => decide (m = .readToClear) || decide (m = .writeOneToClear)
  | .autoClear => decide (m = .readOnly)

/-- The modes a `UartData` field may have (R75): by which FIFOs it names, each with its role. -/
def uartMode (c : Cfg) (qr qt : Option Nat) (m : AccessMode) : Bool :=
  match qr, qt with
  | some q, some t => hasRole c q .rx && hasRole c t .tx && decide (m = .readWrite)
  | some q, none => hasRole c q .rx && decide (m = .readOnly)
  | none, some t => hasRole c t .tx && decide (m = .writeOnly)
  | none, none => false

/-- Whether a binding is allowed for its field's width and mode and names what exists (R75, R76). -/
def bindingAllowed (c : Cfg) (f : FieldDesc) : Bool :=
  let one := decide (f.wid = 1)
  let m := f.mode
  match f.bind with
  | .stored => true
  | .irqPending i => one && decide (i < c.sources.length) && pendingMode (eff c i) m
  | .irqEnable i => one && decide (i < c.sources.length)
      && (decide (m = .readWrite) || decide (m = .writeOnly) || decide (m = .writeOneToClear) || decide (m = .setOnWrite))
  | .irqMaskMirror i => one && decide (i < c.sources.length) && decide (m = .readOnly)
  | .uartData qr qt => decide (f.wid ≤ 8) && uartMode c qr qt m
  | .fifoCount q => decide (q < c.fifos.length) && decide (m = .readOnly)
  | .fifoFlag q _ => one && decide (q < c.fifos.length) && decide (m = .readOnly)
  | .fifoWatermark q => decide (q < c.fifos.length) && decide (m = .readWrite)
  | .fifoMode q => one && decide (q < c.fifos.length) && decide (m = .readWrite)
  | .fifoFlush q => one && decide (q < c.fifos.length) && decide (m = .writeOnly)
  | .rxEnable => one && decide (m = .readWrite)
  | .txEnable => one && decide (m = .readWrite)
  | .loopback => one && decide (m = .readWrite)
  | .timerStart t => one && decide (t < c.timers.length) && decide (m = .writeOnly)
  | .timerStop t => one && decide (t < c.timers.length) && decide (m = .writeOnly)
  | .custom _ _ _ => true

/-- The source a field shows the pending flag of. -/
def pendingOf (f : FieldDesc) : Option Nat :=
  match f.bind with
  | .irqPending i => some i
  | _ => none

/-- Check 5 (R155): bindings, and no source bound by `IrqPending` in two fields. -/
def checkBindings (c : Cfg) : Bool :=
  c.regs.all (fun r => r.fields.all (bindingAllowed c))
    && decide ((c.regs.flatMap (fun r => r.fields.filterMap pendingOf)).Nodup)

/-- The FIFO or timer an internal event names exists (log 15). -/
def eventExists (c : Cfg) : IEvent → Bool
  | .pushed q | .overflow q | .underflow q | .enterState q _ | .watermarkRise q | .watermarkFall q => decide (q < c.fifos.length)
  | .timerFired t => decide (t < c.timers.length)

/-- The FIFO a condition names exists (log 15). -/
def condExists (c : Cfg) : Cond → Bool
  | .fifo q _ => decide (q < c.fifos.length)
  | .custom _ => true

/-- Check 6 (R155): conditions exactly on AutoClear sources, and lines over existing sources. -/
def checkSources (c : Cfg) : Bool :=
  c.sources.all (fun d =>
    decide (d.cond.isSome = true ↔ d.clear = .autoClear) && d.cond.all (condExists c) && d.triggers.all (eventExists c))
    && c.lines.all (fun l => l.sources.all (fun i => decide (i < c.sources.length)))

/-- Check 7 (R155): the FIFOs. -/
def checkFifos (c : Cfg) : Bool :=
  (c.fifos.length == 1 || c.fifos.length == 2)
    && decide ((c.fifos.map (·.role)).Nodup)
    && c.fifos.all (fun d =>
      decide (1 ≤ d.capReset) && decide (1 ≤ d.capFifoMode) && (!d.pow2 || (isPow2 d.capReset && isPow2 d.capFifoMode))
        && decide (d.wmReset ≤ d.capReset) && (d.dummy == 0x00 || d.dummy == 0xFF))

/-- Check 8 (R155): what a signal expression names exists. -/
def checkSignals (c : Cfg) : Bool :=
  c.signals.all (fun g =>
    match g.expr with
    | .line l => decide (l < c.lines.length)
    | .fifo q _ => decide (q < c.fifos.length)
    | .const _ => true
    | .custom _ => true)

/-- The checks in the order of R155. Check 9, the translation and the unmapped value, holds by their types. -/
def configChecks (c : Cfg) : List (ConfigError × Bool) :=
  [(.registerWidth, checkWidths c), (.fieldLayout, checkFields c), (.alignment, checkAlignment c), (.ranges, checkRanges c),
   (.binding, checkBindings c), (.source, checkSources c), (.fifo, checkFifos c), (.signal, checkSignals c)]

/-- The check that construction reports: the first in the order of R155 that fails. R155 and 60_exceptions.md R142 say only that construction
fails when any check does; which of several is reported is the model's choice (DESIGN CHOICE, log 21). -/
def configError (c : Cfg) : Option ConfigError := ((configChecks c).find? (fun p => !p.2)).map (·.1)

/-- A configuration that construction accepts (R155). -/
def validCfg (c : Cfg) : Bool := (configChecks c).all (·.2)

/-- Construction (R155, R156; 60_exceptions.md R142): the block in its initial state, or the reason it fails. -/
def construct (c : Cfg) : Except ConfigError State :=
  match configError c with
  | some e => .error e
  | none =>
    .ok (recompute
      { cfg := c, blk := rstBlock c (c.timers.map (fun _ => ⟨.idle, 0⟩)), inbox := [], trace := [], result := .none })

end Sys2Proof.Machine
end

