-- ==== Sys2Proof/Machine/Agents.lean ====
section
/-! DEFINITION. The entry points of the agents other than the bus masters: RX_BYTE, FLUSH, RESET, TIMER_FIRE, SIGNAL_SAMPLE. -/

namespace Sys2Proof.Machine

/-- The body of RX_BYTE(b) (43_peripheral.md R125). -/
def runRxByte (b : Byte) (s : State) : State :=
  recompute (rxPath b s)

/-- RX_BYTE(b) (43_peripheral.md R125). -/
def execRxByte (b : Byte) (s : State) : Host.Outcome State Fault Refusal :=
  s.perform (.rxByte b) (runRxByte b)

/-- The body of FLUSH before its recompute (43_peripheral.md R131). -/
def flushBody (q : Nat) (s : State) : State :=
  if q < s.cfg.fifos.length then fifoFlush q s else s.diag (.badIndex q)

/-- The body of FLUSH(q) (43_peripheral.md R131). -/
def runFlush (q : BitVec 64) (s : State) : State :=
  recompute (flushBody q.toNat s)

/-- FLUSH(q) (43_peripheral.md R131). -/
def execFlush (q : BitVec 64) (s : State) : Host.Outcome State Fault Refusal :=
  s.perform (.flush q) (runFlush q)

/-- The body of RESET (70_reset_and_hazards.md R157). -/
def runReset (s : State) : State :=
  recompute (resetBody s)

/-- RESET (70_reset_and_hazards.md R157). -/
def execReset (s : State) : Host.Outcome State Fault Refusal :=
  s.perform .reset runReset

/-- The body of TIMER_FIRE before its recompute (43_peripheral.md R135). -/
def timerFireBody (t : Nat) (tok : Token) (s : State) : State :=
  if t < s.cfg.timers.length then
    match s.blk.timer[t]? with
    | none => s
    | some x =>
      if x.phase = .armed ∧ x.token = tok then raise (.timerFired t) (s.setTimer t ⟨.fired, x.token⟩)
      else s.diag (.staleTimer t tok)
  else s.diag (.badIndex t)

/-- The body of TIMER_FIRE(t, tok) (43_peripheral.md R135). -/
def runTimerFire (t : BitVec 64) (tok : Token) (s : State) : State :=
  recompute (timerFireBody t.toNat tok s)

/-- TIMER_FIRE(t, tok) (43_peripheral.md R135). -/
def execTimerFire (t : BitVec 64) (tok : Token) (s : State) : Host.Outcome State Fault Refusal :=
  s.perform (.timerFire t tok) (runTimerFire t tok)

/-- The bit SIGNAL_SAMPLE returns (43_peripheral.md R138). -/
def sampled (s : State) (g : Nat) : Bool :=
  if g < s.cfg.signals.length then s.blk.sig.getD g false else false

/-- The body of SIGNAL_SAMPLE(g) (43_peripheral.md R138): no recompute, no trace, no change of the block. -/
def runSignalSample (g : BitVec 64) (s : State) : State :=
  s.returning (.bit (sampled s g.toNat))

/-- SIGNAL_SAMPLE(g) (43_peripheral.md R138): no recompute, no trace, no change of the block. -/
def execSignalSample (g : BitVec 64) (s : State) : Host.Outcome State Fault Refusal :=
  s.perform (.signalSample g) (runSignalSample g)

end Sys2Proof.Machine
end

