-- ==== Sys2Proof/Decode.lean ====
section
/-! DEFINITION. The transaction descriptor (30_encoding.md R58): its decoder, total on any 144 bits and rejecting by name,
and the encoder. The operand places of the internal primitives are the model's own (log 6): an index in `addr`, a byte,
bit or number in `data`. -/

namespace Sys2Proof

/-- Why a descriptor is no row of the opcode table. -/
inductive DecodeError where
  /-- The operation code is no code of the table (30_encoding.md R61). -/
  | notAnOperation (op : BitVec 8)
  /-- An internal primitive's code with an operand that names nothing in the configuration (log 6). -/
  | noSuchOperand (op : BitVec 8)
deriving DecidableEq, Repr

/-- Bits [143:136] (R58). -/
def Desc.op (d : Desc) : BitVec 8 := d.extractLsb' 136 8
/-- Bits [135:128] (R58). -/
def Desc.size (d : Desc) : BitVec 8 := d.extractLsb' 128 8
/-- Bits [127:64] (R58). -/
def Desc.addr (d : Desc) : BitVec 64 := d.extractLsb' 64 64
/-- Bits [63:0] (R58). -/
def Desc.data (d : Desc) : BitVec 64 := d.extractLsb' 0 64

/-- The descriptor with the four fields given (R58). -/
def Desc.pack (op size : BitVec 8) (addr data : BitVec 64) : Desc := op ++ size ++ addr ++ data

/-- A READ (R62, R64): the address class chooses the row. -/
def Cfg.decodeRead (c : Cfg) (size : BitVec 8) (a : Addr) : Instr :=
  match c.classify a size.toNat with
  | .exact none r => .read r
  | .exact (some .set) r => .readSet r
  | .exact (some .clear) r => .readClr r
  | .exact (some .toggle) r => .readTgl r
  | .narrow none r k => .readNarrow r k size.toNat
  | .narrow (some w) r k => .readNarrowAlias w r k size.toNat
  | .rejected => .readRejected a size
  | .unmapped => .readUnmapped a size

/-- A WRITE (R62, R64): the address class chooses the row, and the value is `data[8n-1:0]`. -/
def Cfg.decodeWrite (c : Cfg) (size : BitVec 8) (a : Addr) (data : BitVec 64) : Instr :=
  let v := busValue size.toNat data
  let x := v.setWidth 32
  match c.classify a size.toNat with
  | .exact none r => .write r x
  | .exact (some .set) r => .writeSet r x
  | .exact (some .clear) r => .writeClr r x
  | .exact (some .toggle) r => .writeTgl r x
  | .narrow none r k => .writeNarrow r k size.toNat x
  | .narrow (some w) r k => .writeNarrowAlias w r k size.toNat x
  | .rejected => .writeRejected a size v
  | .unmapped => .writeUnmapped a size v

/-- The row a code names, before its operands are checked (R59, R60). -/
def Cfg.decodeRow (c : Cfg) (op size : BitVec 8) (addr data : BitVec 64) : Option Instr :=
  let j := addr.toNat
  let b := data.getLsbD 0
  match op.toNat with
  | 0x00 => some (c.decodeRead size addr)
  | 0x01 => some (c.decodeWrite size addr data)
  | 0x10 => some (.rxByte (data.setWidth 8))
  | 0x20 => some (.flush addr)
  | 0x30 => some .reset
  | 0x40 => some (.timerFire addr data)
  | 0x50 => some (.signalSample addr)
  | 0x80 => some (.fifoPush j (data.setWidth 8))
  | 0x81 => some (.fifoPop j)
  | 0x82 => some (.fifoFlush j)
  | 0x83 => some (.fifoSetCapacity j data.toNat)
  | 0x84 => some (.fifoSetWatermark j data.toNat)
  | 0x90 => some (.irqSet j b)
  | 0x91 => some (.irqSetEnabled j b)
  | 0x92 => some (.irqIsPending j)
  | 0x93 => some (.irqLevel j)
  | 0x94 => some .recompute
  | 0xA0 => some (.txByte (data.setWidth 8))
  | 0xA1 => some .txDrain
  | 0xA2 => some (.txEnable b)
  | 0xB0 => some (.timerArm j)
  | 0xB1 => some (.timerCancel j)
  | _ => none

/-- The decoder: total, the answer depending on the configuration only through the address classes. -/
def decode (c : Cfg) (d : Desc) : Except DecodeError Instr :=
  match c.decodeRow d.op d.size d.addr d.data with
  | none => .error (.notAnOperation d.op)
  | some i => if c.admits i then .ok i else .error (.noSuchOperand d.op)

/-- The operation code of a row (R59, R60). -/
def Instr.opcode : Instr → BitVec 8
  | .read _ | .readSet _ | .readClr _ | .readTgl _ | .readNarrow _ _ _ | .readNarrowAlias _ _ _ _
  | .readRejected _ _ | .readUnmapped _ _ => 0x00
  | .write _ _ | .writeSet _ _ | .writeClr _ _ | .writeTgl _ _ | .writeNarrow _ _ _ _ | .writeNarrowAlias _ _ _ _ _
  | .writeRejected _ _ _ | .writeUnmapped _ _ _ => 0x01
  | .rxByte _ => 0x10
  | .flush _ => 0x20
  | .reset => 0x30
  | .timerFire _ _ => 0x40
  | .signalSample _ => 0x50
  | .fifoPush _ _ => 0x80
  | .fifoPop _ => 0x81
  | .fifoFlush _ => 0x82
  | .fifoSetCapacity _ _ => 0x83
  | .fifoSetWatermark _ _ => 0x84
  | .irqSet _ _ => 0x90
  | .irqSetEnabled _ _ => 0x91
  | .irqIsPending _ => 0x92
  | .irqLevel _ => 0x93
  | .recompute => 0x94
  | .txByte _ => 0xA0
  | .txDrain => 0xA1
  | .txEnable _ => 0xA2
  | .timerArm _ => 0xB0
  | .timerCancel _ => 0xB1

/-- Whether an agent may issue the operation: the seven codes of 30_encoding.md R59. -/
def Instr.isTransaction (i : Instr) : Bool :=
  [0x00#8, 0x01, 0x10, 0x20, 0x30, 0x40, 0x50].contains i.opcode

/-- The bus address of lane `k` of register `r`, canonical or in a window (20_memory.md R46). -/
def Cfg.busAddr (c : Cfg) (win : Option Window) (r k : Nat) : Addr :=
  match c.regs[r]? with
  | some d => BitVec.ofNat 64 (d.addr.toNat + c.offset win + k)
  | none => 0

/-- A bus descriptor for an exact access. -/
def Cfg.packExact (c : Cfg) (op : BitVec 8) (win : Option Window) (r : Nat) (v : Word) : Desc :=
  Desc.pack op (BitVec.ofNat 8 (c.regBytes r)) (c.busAddr win r 0) (v.setWidth 64)

/-- A bus descriptor for a narrow access. -/
def Cfg.packNarrow (c : Cfg) (op : BitVec 8) (win : Option Window) (r k n : Nat) (x : Word) : Desc :=
  Desc.pack op (BitVec.ofNat 8 n) (c.busAddr win r k) (x.setWidth 64)

/-- A descriptor with an index and a number. -/
def packIndex (op : BitVec 8) (j n : Nat) : Desc := Desc.pack op 0 (BitVec.ofNat 64 j) (BitVec.ofNat 64 n)

/-- The encoder: the descriptor of an operation (30_encoding.md R58, R59, R62), ignored fields 0. -/
def encode (c : Cfg) : Instr → Desc
  | .read r => c.packExact 0x00 none r 0
  | .readSet r => c.packExact 0x00 (some .set) r 0
  | .readClr r => c.packExact 0x00 (some .clear) r 0
  | .readTgl r => c.packExact 0x00 (some .toggle) r 0
  | .readNarrow r k n => c.packNarrow 0x00 none r k n 0
  | .readNarrowAlias w r k n => c.packNarrow 0x00 (some w) r k n 0
  | .readRejected a n => Desc.pack 0x00 n a 0
  | .readUnmapped a n => Desc.pack 0x00 n a 0
  | .write r v => c.packExact 0x01 none r v
  | .writeSet r m => c.packExact 0x01 (some .set) r m
  | .writeClr r m => c.packExact 0x01 (some .clear) r m
  | .writeTgl r m => c.packExact 0x01 (some .toggle) r m
  | .writeNarrow r k n x => c.packNarrow 0x01 none r k n x
  | .writeNarrowAlias w r k n x => c.packNarrow 0x01 (some w) r k n x
  | .writeRejected a n v => Desc.pack 0x01 n a v
  | .writeUnmapped a n v => Desc.pack 0x01 n a v
  | .rxByte b => Desc.pack 0x10 0 0 (b.setWidth 64)
  | .flush q => Desc.pack 0x20 0 q 0
  | .reset => Desc.pack 0x30 0 0 0
  | .timerFire t tok => Desc.pack 0x40 0 t tok
  | .signalSample g => Desc.pack 0x50 0 g 0
  | .fifoPush q b => packIndex 0x80 q b.toNat
  | .fifoPop q => packIndex 0x81 q 0
  | .fifoFlush q => packIndex 0x82 q 0
  | .fifoSetCapacity q n => packIndex 0x83 q n
  | .fifoSetWatermark q n => packIndex 0x84 q n
  | .irqSet i b => packIndex 0x90 i b.toNat
  | .irqSetEnabled i b => packIndex 0x91 i b.toNat
  | .irqIsPending i => packIndex 0x92 i 0
  | .irqLevel l => packIndex 0x93 l 0
  | .recompute => packIndex 0x94 0 0
  | .txByte b => packIndex 0xA0 0 b.toNat
  | .txDrain => packIndex 0xA1 0 0
  | .txEnable b => packIndex 0xA2 0 b.toNat
  | .timerArm t => packIndex 0xB0 t 0
  | .timerCancel t => packIndex 0xB1 t 0

/-- The low `nbits` bits of `w` as a descriptor, every bit above them 0. -/
def tableWord (nbits w : Nat) : Desc := BitVec.ofNat 144 (w % 2 ^ nbits)

/-- The instruction the decoder reads from a descriptor under the reset configuration REF; none where it refuses. -/
def decodeTableWord (nbits w : Nat) : Option Instr :=
  match decode Cfg.ref (tableWord nbits w) with
  | .ok i => some i
  | .error _ => none

end Sys2Proof
end

