-- ==== Sys2Proof/Machine/Bus.lean ====
section
/-! DEFINITION. READ and WRITE in each address class (40_register_file.md part 4, 20_memory.md R47). -/

namespace Sys2Proof.Machine

/-- All byte enables of register `r` (40_register_file.md R85). -/
def allLanes (c : Cfg) (r : Nat) : Word := ones (widthOf c r)

/-- A read of register `r` with byte enables, then recompute, returning `n` bytes of the composed word (R85, R93). -/
def readEntry (r : Nat) (be : Word) (n : Nat) (view : Word → Word) (s : State) : State :=
  let p := readMasked r be s
  (recompute p.1).returning (.word n (view p.2))

/-- A read through a window: the canonical value, no side effect (R92). -/
def windowReadEntry (w : Window) (r k n : Nat) (view : Word → Word) (s : State) : State :=
  (recompute (s.diag (.readThroughWindow (s.cfg.busAddr (some w) r k)))).returning
    (.word n (view (peekReg s.cfg s.blk r)))

/-- The value of a read that reaches no register: the unmapped value, cut to `8n` bits or zero-extended to them (R96, 20_memory.md R47). -/
def unmappedValue (c : Cfg) (n : Nat) : Word := trunc (8 * min n 4) c.unmappedReadValue

/-- A read that reaches no register (R96, 20_memory.md R47). -/
def absentReadEntry (d : Diag) (n : Nat) (s : State) : State :=
  (recompute (s.diag d)).returning (.word n (unmappedValue s.cfg n))

/-- A value placed in the lanes of a narrow write (R94). -/
def atLane (k : Nat) (x : Word) : Word := x <<< (8 * k)

/-- The body of READ, exact, canonical address (R85). -/
def runRead (r : Nat) (s : State) : State :=
  readEntry r (allLanes s.cfg r) (s.cfg.regBytes r) id s

/-- READ, exact, canonical address (R85). -/
def execRead (r : Nat) (s : State) : Host.Outcome State Fault Refusal :=
  s.perform (.read r) (runRead r)

/-- The body of READ of a SET address (R92). -/
def runReadSet (r : Nat) (s : State) : State :=
  windowReadEntry .set r 0 (s.cfg.regBytes r) id s

/-- READ of a SET address (R92). -/
def execReadSet (r : Nat) (s : State) : Host.Outcome State Fault Refusal :=
  s.perform (.readSet r) (runReadSet r)

/-- The body of READ of a CLEAR address (R92). -/
def runReadClr (r : Nat) (s : State) : State :=
  windowReadEntry .clear r 0 (s.cfg.regBytes r) id s

/-- READ of a CLEAR address (R92). -/
def execReadClr (r : Nat) (s : State) : Host.Outcome State Fault Refusal :=
  s.perform (.readClr r) (runReadClr r)

/-- The body of READ of a TOGGLE address (R92). -/
def runReadTgl (r : Nat) (s : State) : State :=
  windowReadEntry .toggle r 0 (s.cfg.regBytes r) id s

/-- READ of a TOGGLE address (R92). -/
def execReadTgl (r : Nat) (s : State) : Host.Outcome State Fault Refusal :=
  s.perform (.readTgl r) (runReadTgl r)

/-- The body of READ, narrow, canonical address (R93). -/
def runReadNarrow (r k n : Nat) (s : State) : State :=
  readEntry r (laneMask k n) n (fun v => lanes v k n) s

/-- READ, narrow, canonical address (R93). -/
def execReadNarrow (r k n : Nat) (s : State) : Host.Outcome State Fault Refusal :=
  s.perform (.readNarrow r k n) (runReadNarrow r k n)

/-- The body of READ, narrow, through a window (R92). -/
def runReadNarrowAlias (w : Window) (r k n : Nat) (s : State) : State :=
  windowReadEntry w r k n (fun v => lanes v k n) s

/-- READ, narrow, through a window (R92). -/
def execReadNarrowAlias (w : Window) (r k n : Nat) (s : State) : Host.Outcome State Fault Refusal :=
  s.perform (.readNarrowAlias w r k n) (runReadNarrowAlias w r k n)

/-- The body of READ, rejected (20_memory.md R47). -/
def runReadRejected (a : Addr) (n : BitVec 8) (s : State) : State :=
  absentReadEntry (.rejectedAccess a n.toNat) n.toNat s

/-- READ, rejected (20_memory.md R47). -/
def execReadRejected (a : Addr) (n : BitVec 8) (s : State) : Host.Outcome State Fault Refusal :=
  s.perform (.readRejected a n) (runReadRejected a n)

/-- The body of READ, unmapped (R96). -/
def runReadUnmapped (a : Addr) (n : BitVec 8) (s : State) : State :=
  absentReadEntry (.unmappedRead a) n.toNat s

/-- READ, unmapped (R96). -/
def execReadUnmapped (a : Addr) (n : BitVec 8) (s : State) : Host.Outcome State Fault Refusal :=
  s.perform (.readUnmapped a n) (runReadUnmapped a n)

/-- The body of WRITE, exact, canonical address (R86). -/
def runWrite (r : Nat) (v : Word) (s : State) : State :=
  recompute (writeMasked r v (allLanes s.cfg r) s)

/-- WRITE, exact, canonical address (R86). -/
def execWrite (r : Nat) (v : Word) (s : State) : Host.Outcome State Fault Refusal :=
  s.perform (.write r v) (runWrite r v)

/-- The body of WRITE of a SET address (R88). -/
def runWriteSet (r : Nat) (m : Word) (s : State) : State :=
  recompute (windowWrite .set r m (allLanes s.cfg r) s)

/-- WRITE of a SET address (R88). -/
def execWriteSet (r : Nat) (m : Word) (s : State) : Host.Outcome State Fault Refusal :=
  s.perform (.writeSet r m) (runWriteSet r m)

/-- The body of WRITE of a CLEAR address (R89). -/
def runWriteClr (r : Nat) (m : Word) (s : State) : State :=
  recompute (windowWrite .clear r m (allLanes s.cfg r) s)

/-- WRITE of a CLEAR address (R89). -/
def execWriteClr (r : Nat) (m : Word) (s : State) : Host.Outcome State Fault Refusal :=
  s.perform (.writeClr r m) (runWriteClr r m)

/-- The body of WRITE of a TOGGLE address (R90). -/
def runWriteTgl (r : Nat) (m : Word) (s : State) : State :=
  recompute (windowWrite .toggle r m (allLanes s.cfg r) s)

/-- WRITE of a TOGGLE address (R90). -/
def execWriteTgl (r : Nat) (m : Word) (s : State) : Host.Outcome State Fault Refusal :=
  s.perform (.writeTgl r m) (runWriteTgl r m)

/-- The body of WRITE, narrow, canonical address (R94). -/
def runWriteNarrow (r k n : Nat) (x : Word) (s : State) : State :=
  recompute (writeMasked r (atLane k x) (laneMask k n) s)

/-- WRITE, narrow, canonical address (R94). -/
def execWriteNarrow (r k n : Nat) (x : Word) (s : State) : Host.Outcome State Fault Refusal :=
  s.perform (.writeNarrow r k n x) (runWriteNarrow r k n x)

/-- The body of WRITE, narrow, through a window (R95). -/
def runWriteNarrowAlias (w : Window) (r k n : Nat) (x : Word) (s : State) : State :=
  recompute (windowWrite w r (atLane k x) (laneMask k n) s)

/-- WRITE, narrow, through a window (R95). -/
def execWriteNarrowAlias (w : Window) (r k n : Nat) (x : Word) (s : State) : Host.Outcome State Fault Refusal :=
  s.perform (.writeNarrowAlias w r k n x) (runWriteNarrowAlias w r k n x)

/-- The body of WRITE, rejected (20_memory.md R47). -/
def runWriteRejected (a : Addr) (n : BitVec 8) (s : State) : State :=
  recompute (s.diag (.rejectedAccess a n.toNat))

/-- WRITE, rejected (20_memory.md R47). -/
def execWriteRejected (a : Addr) (n : BitVec 8) (v : BitVec 64) (s : State) : Host.Outcome State Fault Refusal :=
  s.perform (.writeRejected a n v) (runWriteRejected a n)

/-- The body of WRITE, unmapped (R97). -/
def runWriteUnmapped (a : Addr) (s : State) : State :=
  recompute (s.diag (.unmappedWrite a))

/-- WRITE, unmapped (R97). -/
def execWriteUnmapped (a : Addr) (n : BitVec 8) (v : BitVec 64) (s : State) : Host.Outcome State Fault Refusal :=
  s.perform (.writeUnmapped a n v) (runWriteUnmapped a)

end Sys2Proof.Machine
end

