-- ==== Sys2Proof/Machine/FifoPrims.lean ====
section
/-! DEFINITION. The FIFO primitives as instructions (42_fifo.md R116 to R120). -/

namespace Sys2Proof.Machine

/-- The body of FIFO_PUSH(q, b) (R116). -/
def runFifoPush (q : Nat) (b : Byte) (s : State) : State :=
  (fifoPush q b s).returning (pushResult q s)

/-- FIFO_PUSH(q, b) (R116). -/
def execFifoPush (q : Nat) (b : Byte) (s : State) : Host.Outcome State Fault Refusal :=
  s.perform (.fifoPush q b) (runFifoPush q b)

/-- The body of FIFO_POP(q) (R117). -/
def runFifoPop (q : Nat) (s : State) : State :=
  (fifoPop q s).returning (popResult q s)

/-- FIFO_POP(q) (R117). -/
def execFifoPop (q : Nat) (s : State) : Host.Outcome State Fault Refusal :=
  s.perform (.fifoPop q) (runFifoPop q)

/-- FIFO_FLUSH(q) (R118). -/
def execFifoFlush (q : Nat) (s : State) : Host.Outcome State Fault Refusal :=
  s.perform (.fifoFlush q) (fifoFlush q)

/-- FIFO_SET_CAPACITY(q, n) (R119). -/
def execFifoSetCapacity (q n : Nat) (s : State) : Host.Outcome State Fault Refusal :=
  s.perform (.fifoSetCapacity q n) (fifoSetCapacity q n)

/-- FIFO_SET_WATERMARK(q, n) (R120). -/
def execFifoSetWatermark (q n : Nat) (s : State) : Host.Outcome State Fault Refusal :=
  s.perform (.fifoSetWatermark q n) (fifoSetWatermark q n)

end Sys2Proof.Machine
end

