-- ==== Sys2Proof/Machine/IrqPrims.lean ====
section
/-! DEFINITION. The interrupt controller's primitives as instructions (41_interrupts.md R104 to R107, R109). -/

namespace Sys2Proof.Machine

/-- IRQ_SET(s, b) (R104). -/
def execIrqSet (i : Nat) (b : Bool) (s : State) : Host.Outcome State Fault Refusal :=
  s.perform (.irqSet i b) (irqSet i b)

/-- IRQ_SET_ENABLED(s, b) (R105). -/
def execIrqSetEnabled (i : Nat) (b : Bool) (s : State) : Host.Outcome State Fault Refusal :=
  s.perform (.irqSetEnabled i b) (irqSetEnabled i b)

/-- The body of IRQ_IS_PENDING(s) (R106). -/
def runIrqIsPending (i : Nat) (s : State) : State :=
  s.returning (.bit (s.blk.isPending i))

/-- IRQ_IS_PENDING(s) (R106). -/
def execIrqIsPending (i : Nat) (s : State) : Host.Outcome State Fault Refusal :=
  s.perform (.irqIsPending i) (runIrqIsPending i)

/-- The body of IRQ_LEVEL(l) (R107). -/
def runIrqLevel (l : Nat) (s : State) : State :=
  s.returning (.bit (lineLevel s.cfg s.blk l))

/-- IRQ_LEVEL(l) (R107). -/
def execIrqLevel (l : Nat) (s : State) : Host.Outcome State Fault Refusal :=
  s.perform (.irqLevel l) (runIrqLevel l)

/-- RECOMPUTE (R109). -/
def execRecompute (s : State) : Host.Outcome State Fault Refusal :=
  s.perform .recompute recompute

end Sys2Proof.Machine
end

