-- ==== Sys2Proof/Machine/TimerPrims.lean ====
section
/-! DEFINITION. The timer primitives as instructions (43_peripheral.md R133, R134). -/

namespace Sys2Proof.Machine

/-- TIMER_ARM(t) (R133). -/
def execTimerArm (t : Nat) (s : State) : Host.Outcome State Fault Refusal :=
  s.perform (.timerArm t) (timerArm t)

/-- TIMER_CANCEL(t) (R134). -/
def execTimerCancel (t : Nat) (s : State) : Host.Outcome State Fault Refusal :=
  s.perform (.timerCancel t) (timerCancel t)

end Sys2Proof.Machine
end

