-- ==== Sys2Proof/Machine/TxPrims.lean ====
section
/-! DEFINITION. The transmit primitives as instructions (43_peripheral.md R127 to R129). -/

namespace Sys2Proof.Machine

/-- TX_BYTE(b) (R127). -/
def execTxByte (b : Byte) (s : State) : Host.Outcome State Fault Refusal :=
  s.perform (.txByte b) (txByte b)

/-- TX_DRAIN (R129). -/
def execTxDrain (s : State) : Host.Outcome State Fault Refusal :=
  s.perform .txDrain txDrain

/-- TX_ENABLE(b) (R128). -/
def execTxEnable (b : Bool) (s : State) : Host.Outcome State Fault Refusal :=
  s.perform (.txEnable b) (txEnable b)

end Sys2Proof.Machine
end

