-- ==== Sys2Proof/Machine/Dispatch.lean ====
section
/-! DEFINITION. One arm per row of spec/opcode_table.json, each one call of the row's meaning. -/

namespace Sys2Proof.Machine

/-- The meaning of an instruction. -/
def exec (i : Instr) (s : State) : Host.Outcome State Fault Refusal :=
  match i with
  | .read r => Sys2Proof.Machine.execRead r s
  | .readSet r => Sys2Proof.Machine.execReadSet r s
  | .readClr r => Sys2Proof.Machine.execReadClr r s
  | .readTgl r => Sys2Proof.Machine.execReadTgl r s
  | .readNarrow r k n => Sys2Proof.Machine.execReadNarrow r k n s
  | .readNarrowAlias w r k n => Sys2Proof.Machine.execReadNarrowAlias w r k n s
  | .readRejected a n => Sys2Proof.Machine.execReadRejected a n s
  | .readUnmapped a n => Sys2Proof.Machine.execReadUnmapped a n s
  | .write r v => Sys2Proof.Machine.execWrite r v s
  | .writeSet r m => Sys2Proof.Machine.execWriteSet r m s
  | .writeClr r m => Sys2Proof.Machine.execWriteClr r m s
  | .writeTgl r m => Sys2Proof.Machine.execWriteTgl r m s
  | .writeNarrow r k n x => Sys2Proof.Machine.execWriteNarrow r k n x s
  | .writeNarrowAlias w r k n x => Sys2Proof.Machine.execWriteNarrowAlias w r k n x s
  | .writeRejected a n v => Sys2Proof.Machine.execWriteRejected a n v s
  | .writeUnmapped a n v => Sys2Proof.Machine.execWriteUnmapped a n v s
  | .rxByte b => Sys2Proof.Machine.execRxByte b s
  | .flush q => Sys2Proof.Machine.execFlush q s
  | .reset => Sys2Proof.Machine.execReset s
  | .timerFire t tok => Sys2Proof.Machine.execTimerFire t tok s
  | .signalSample g => Sys2Proof.Machine.execSignalSample g s
  | .fifoPush q b => Sys2Proof.Machine.execFifoPush q b s
  | .fifoPop q => Sys2Proof.Machine.execFifoPop q s
  | .fifoFlush q => Sys2Proof.Machine.execFifoFlush q s
  | .fifoSetCapacity q n => Sys2Proof.Machine.execFifoSetCapacity q n s
  | .fifoSetWatermark q n => Sys2Proof.Machine.execFifoSetWatermark q n s
  | .irqSet k b => Sys2Proof.Machine.execIrqSet k b s
  | .irqSetEnabled k b => Sys2Proof.Machine.execIrqSetEnabled k b s
  | .irqIsPending k => Sys2Proof.Machine.execIrqIsPending k s
  | .irqLevel l => Sys2Proof.Machine.execIrqLevel l s
  | .recompute => Sys2Proof.Machine.execRecompute s
  | .txByte b => Sys2Proof.Machine.execTxByte b s
  | .txDrain => Sys2Proof.Machine.execTxDrain s
  | .txEnable b => Sys2Proof.Machine.execTxEnable b s
  | .timerArm t => Sys2Proof.Machine.execTimerArm t s
  | .timerCancel t => Sys2Proof.Machine.execTimerCancel t s

end Sys2Proof.Machine
end

