-- ==== Sys2Proof/Machine/Issue.lean ====
section
/-! DEFINITION. Serving transactions: the next descriptor of the inbox is decoded, checked (30_encoding.md R61) and run, and
a state that breaks 10_state.md R25 is a fault (60_exceptions.md R143). -/

namespace Sys2Proof.Machine

/-- A next state that breaks R25 is a fault (60_exceptions.md R143). -/
def guarded : Host.Outcome State Fault Refusal → Host.Outcome State Fault Refusal
  | .next t => if t.consistent then .next t else .fault .invariantViolation
  | o => o

/-- Why a descriptor is refused (30_encoding.md R61). -/
def refusalOf : DecodeError → Refusal
  | .notAnOperation op => .notATransaction op
  | .noSuchOperand op => .internalFromAgent op

/-- Serves one descriptor: an operation an agent may issue is run, any other is refused (30_encoding.md R59, R61). -/
def issue (d : Desc) (s : State) : Host.Outcome State Fault Refusal :=
  match decode s.cfg d with
  | .error e => .refused (refusalOf e)
  | .ok i => if i.isTransaction then guarded (exec i s) else .refused (.internalFromAgent i.opcode)

/-- One step: the first transaction in the order of the lock is taken and served; with none, nothing changes
(20_memory.md R54, 41_interrupts.md R112; log 2, 3). -/
def advance (s : State) : Host.Outcome State Fault Refusal :=
  if s.consistent then
    match s.inbox with
    | [] => .next s
    | d :: rest => issue d { s with inbox := rest }
  else .fault .invariantViolation

/-- The state with a descriptor first in the inbox (log 2). -/
def withDescriptor (s : State) (d : Desc) : State := { s with inbox := d :: s.inbox }

end Sys2Proof.Machine
end

