-- ==== Sys2Proof/Machine/Step.lean ====
section
/-! DEFINITION. One step of the machine, and the state whose next step runs a given descriptor. -/

namespace Sys2Proof.Machine

/-- One step (Machine/Issue.lean). -/
def step (s : State) : Host.Outcome State Fault Refusal := advance s

/-- `s` with the low `nbits` bits of `w` as the next transaction to be served (log 2). -/
def State.withFetchWord (s : State) (nbits w : Nat) : State := withDescriptor s (tableWord nbits w)

end Sys2Proof.Machine
end

