-- ==== Sys2Proof/Safety.lean ====
section
/-! DEFINITION. The terms in which statements speak: what an instruction's outcome is, which trace events are architectural,
which events a FIFO change raises, what construction checks, and the invariant that holds between entry points. -/

namespace Sys2Proof.Machine

/-- An architectural trace event: any but a diagnostic (60_exceptions.md R144). -/
def Event.architectural : Event → Bool
  | .diag _ => false
  | _ => true

/-- The architectural events of a trace; a claim must not depend on the others (R144). -/
def outputs (l : List Event) : List Event := l.filter Event.architectural

/-- Running `i` at `s` answers a next state with the block `b`, the result `res` and the architectural events `out`; the
configuration and the transactions still to be served are as before. -/
def Completes (i : Instr) (s : State) (b : Block) (res : Result) (out : List Event) : Prop :=
  ∃ t, exec i s = .next t ∧ t.cfg = s.cfg ∧ t.inbox = s.inbox ∧ t.blk = b ∧ t.result = res ∧ outputs t.trace = out

/-- Whether one of the events `es` is among the triggers of a source (41_interrupts.md R103). -/
def SourceDesc.setBy (d : SourceDesc) (es : List IEvent) : Bool := es.any (fun e => d.triggers.contains e)

/-- The flags after the events `es`: the flag of source `i` as it was, or set because the source lists one of them (R103). -/
def triggered (c : Cfg) (es : List IEvent) (p : List Bool) : List Bool :=
  p.mapIdx (fun i v => v || (c.sources[i]?).any (fun d => SourceDesc.setBy d es))

/-- The internal events of a settle that takes the state from `st0` to `st1` and the level from `w0` to `w1` (42_fifo.md R114). -/
def noticeEvents (q : Nat) (st0 st1 : FifoState) (w0 w1 : Bool) : List IEvent :=
  (if st1 ≠ st0 then [IEvent.enterState q st1] else [])
    ++ ((if w1 && !w0 then [IEvent.watermarkRise q] else []) ++ (if w0 && !w1 then [IEvent.watermarkFall q] else []))

/-- The notification of such a settle: one when either changed, none when neither did (R114). -/
def noticeTrace (q : Nat) (st0 st1 : FifoState) (w0 w1 : Bool) : List Event :=
  if st1 = st0 ∧ w1 = w0 then [] else [.notify q st0 st1 w0 w1]

/-- A FIFO with these contents, its state and level computed from them (42_fifo.md R113). -/
def settledFifo (items : List Byte) (cap wm : Nat) : Fifo :=
  { items := items
    cap := cap
    wm := wm
    st := if items.length = 0 then .empty else if cap ≤ items.length then .full else .ready
    wmx := decide (wm < items.length) }

/-- A FIFO shows a predicate: the table of 41_interrupts.md R108. -/
def Fifo.shows (f : Fifo) : FifoPred → Prop
  | .empty => f.st = .empty
  | .notEmpty => f.st ≠ .empty
  | .ready => f.st = .ready
  | .full => f.st = .full
  | .notFull => f.st ≠ .full
  | .watermarkCrossed => f.wmx = true
  | .notWatermarkCrossed => f.wmx = false

/-- The block after FIFO `q` went from `f` to `g`: the FIFO replaced, and the flags set by `es` and by the settle's events. -/
def Block.afterFifo (c : Cfg) (b : Block) (q : Nat) (f g : Fifo) (es : List IEvent) : Block :=
  { b with
    fifo := b.fifo.set q g
    pending := triggered c (es ++ noticeEvents q f.st g.st f.wmx g.wmx) b.pending }

/-- The notification of that change. -/
def fifoNotice (q : Nat) (f g : Fifo) : List Event := noticeTrace q f.st g.st f.wmx g.wmx

/-- The block after recompute (41_interrupts.md R109). -/
def Block.recomputed (c : Cfg) (b : Block) : Block :=
  let b1 := { b with pending := clearAuto b c.sources b.pending }
  { b1 with sig := c.signals.map (fun g => evalSignal c b1 g.expr) }

/-- Recompute has nothing left to do: no AutoClear source is pending while its condition is false, and every signal shows the
value of its expression (41_interrupts.md R111). -/
structure Settled (c : Cfg) (b : Block) : Prop where
  pending : clearAuto b c.sources b.pending = b.pending
  sig : b.sig = c.signals.map (fun g => evalSignal c b g.expr)

/-- The block has one element for each element of the configuration (10_state.md R18 to R28). -/
structure Shaped (c : Cfg) (b : Block) : Prop where
  reg : b.reg.length = c.regs.length
  pending : b.pending.length = c.sources.length
  enabled : b.enabled.length = c.sources.length
  fifo : b.fifo.length = c.fifos.length
  timer : b.timer.length = c.timers.length
  sig : b.sig.length = c.signals.length

/-- Every FIFO satisfies 10_state.md R25, and its capacity is at least 1 (R24). -/
def FifosOk (b : Block) : Prop := ∀ f ∈ b.fifo, f.consistent = true ∧ 1 ≤ f.cap

/-- Outside the bits of `Stored` fields every register word is its reset value: reserved bits and bits under other bindings
are written by reset only (10_state.md R18, R19). -/
def FixedBits (c : Cfg) (b : Block) : Prop :=
  ∀ (r : Nat) (d : RegDesc) (v : Word), c.regs[r]? = some d → b.reg[r]? = some v → v &&& ~~~(storedMask d) = d.resetValue &&& ~~~(storedMask d)

/-- With transmit enabled the tx FIFO is empty (43_peripheral.md R130). -/
def Drained (c : Cfg) (b : Block) : Prop := b.txEn = true → txItems c b = []

/-- The invariant between entry points of a constructed block. -/
structure Inv (s : State) : Prop where
  valid : validCfg s.cfg = true
  shaped : Shaped s.cfg s.blk
  fifos : FifosOk s.blk
  fixed : FixedBits s.cfg s.blk
  drained : Drained s.cfg s.blk
  settled : Settled s.cfg s.blk

/-! ## Construction -/

/-- The binding table of 40_register_file.md R75 and R76: the width and the mode a field may have for its binding, which names what exists;
for a pending field the mode that R73 asks for. -/
def FieldAllowed (c : Cfg) (f : FieldDesc) : Prop :=
  match f.bind with
  | .stored => True
  | .irqPending i => f.wid = 1 ∧ i < c.sources.length ∧
    ((eff c i = .writeOneToClear ∧ f.mode = .writeOneToClear) ∨ (eff c i = .clearOnRead ∧ f.mode = .readToClear) ∨
      (eff c i = .both ∧ (f.mode = .readToClear ∨ f.mode = .writeOneToClear)) ∨ (eff c i = .autoClear ∧ f.mode = .readOnly))
  | .irqEnable i => f.wid = 1 ∧ i < c.sources.length ∧
    (f.mode = .readWrite ∨ f.mode = .writeOnly ∨ f.mode = .writeOneToClear ∨ f.mode = .setOnWrite)
  | .irqMaskMirror i => f.wid = 1 ∧ i < c.sources.length ∧ f.mode = .readOnly
  | .uartData qr qt => f.wid ≤ 8 ∧ (qr ≠ none ∨ qt ≠ none) ∧
    (∀ q, qr = some q → ∃ d, c.fifos[q]? = some d ∧ d.role = .rx) ∧ (∀ q, qt = some q → ∃ d, c.fifos[q]? = some d ∧ d.role = .tx) ∧
    f.mode = (if qr = none then .writeOnly else if qt = none then .readOnly else .readWrite)
  | .fifoCount q => q < c.fifos.length ∧ f.mode = .readOnly
  | .fifoFlag q _ => f.wid = 1 ∧ q < c.fifos.length ∧ f.mode = .readOnly
  | .fifoWatermark q => q < c.fifos.length ∧ f.mode = .readWrite
  | .fifoMode q => f.wid = 1 ∧ q < c.fifos.length ∧ f.mode = .readWrite
  | .fifoFlush q => f.wid = 1 ∧ q < c.fifos.length ∧ f.mode = .writeOnly
  | .rxEnable => f.wid = 1 ∧ f.mode = .readWrite
  | .txEnable => f.wid = 1 ∧ f.mode = .readWrite
  | .loopback => f.wid = 1 ∧ f.mode = .readWrite
  | .timerStart t => f.wid = 1 ∧ t < c.timers.length ∧ f.mode = .writeOnly
  | .timerStop t => f.wid = 1 ∧ t < c.timers.length ∧ f.mode = .writeOnly
  | .custom _ _ _ => True

/-- What an internal event names exists. -/
def EventExists (c : Cfg) : IEvent → Prop
  | .pushed q => q < c.fifos.length
  | .overflow q => q < c.fifos.length
  | .underflow q => q < c.fifos.length
  | .enterState q _ => q < c.fifos.length
  | .watermarkRise q => q < c.fifos.length
  | .watermarkFall q => q < c.fifos.length
  | .timerFired t => t < c.timers.length

/-- The checks of construction, as 70_reset_and_hazards.md R155 numbers them; check 9 holds by the types of the configuration. -/
structure PassesChecks (c : Cfg) : Prop where
  /-- Check 1. -/
  widths : ∀ r ∈ c.regs, (r.w = 8 ∨ r.w = 16 ∨ r.w = 32) ∧ r.resetValue.toNat < 2 ^ r.w
  /-- Check 2. -/
  inside : ∀ r ∈ c.regs, ∀ f ∈ r.fields, 1 ≤ f.wid ∧ f.off + f.wid ≤ r.w
  /-- Check 2. -/
  apart : ∀ r ∈ c.regs, r.fields.Pairwise (fun f g => f.off + f.wid ≤ g.off ∨ g.off + g.wid ≤ f.off)
  /-- Check 3. -/
  aligned : ∀ r ∈ c.regs, r.addr.toNat % (r.w / 8) = 0
  /-- Check 3; asked of a block without windows too (log 16). -/
  offsets : c.setOffset.toNat % 4 = 0 ∧ c.clearOffset.toNat % 4 = 0 ∧ c.toggleOffset.toNat % 4 = 0
  /-- Check 4. -/
  ranges : (∀ x ∈ c.spans, x.base + x.len ≤ 2 ^ 64) ∧ c.spans.Pairwise (fun x y => x.base + x.len ≤ y.base ∨ y.base + y.len ≤ x.base)
  /-- Check 4. -/
  windows : c.hasAlias = true → c.setOffset ≠ c.clearOffset ∧ c.setOffset ≠ c.toggleOffset ∧ c.clearOffset ≠ c.toggleOffset ∧
    c.setOffset ≠ 0 ∧ c.clearOffset ≠ 0 ∧ c.toggleOffset ≠ 0
  /-- Check 5. -/
  bindings : ∀ r ∈ c.regs, ∀ f ∈ r.fields, FieldAllowed c f
  /-- Check 5: no source is bound by `IrqPending` in two fields. -/
  pendingOnce : ∀ i, (c.regs.flatMap (·.fields)).countP (fun f => decide (f.bind = .irqPending i)) ≤ 1
  /-- Check 6. -/
  conditions : ∀ d ∈ c.sources, d.cond.isSome = true ↔ d.clear = .autoClear
  /-- Check 6. -/
  lines : ∀ l ∈ c.lines, ∀ i ∈ l.sources, i < c.sources.length
  /-- Asked by the model beside check 6: what a condition or a trigger names exists (log 15). -/
  named : ∀ d ∈ c.sources, (∀ q p, d.cond = some (.fifo q p) → q < c.fifos.length) ∧ ∀ e ∈ d.triggers, EventExists c e
  /-- Check 7. -/
  roles : (c.fifos.length = 1 ∨ c.fifos.length = 2) ∧ (c.fifos.map (·.role)).Nodup
  /-- Check 7. -/
  fifos : ∀ d ∈ c.fifos, 1 ≤ d.capReset ∧ 1 ≤ d.capFifoMode ∧ d.wmReset ≤ d.capReset ∧ (d.dummy = 0x00 ∨ d.dummy = 0xFF) ∧
    (d.pow2 = true → (∃ e, d.capReset = 2 ^ e) ∧ ∃ e, d.capFifoMode = 2 ^ e)
  /-- Check 8. -/
  signals : ∀ g ∈ c.signals, (∀ l, g.expr = .line l → l < c.lines.length) ∧ ∀ q p, g.expr = .fifo q p → q < c.fifos.length

/-! ## Reads -/

/-- A binding with a read action (20_memory.md R51). -/
def readAction (f : FieldDesc) : Bool :=
  match f.bind with
  | .uartData (some _) _ => true
  | .custom _ _ _ => true
  | _ => false

/-- A field whose read runs no read action: it has none, or it reads as Zero (40_register_file.md R72). -/
def idleOnRead (c : Cfg) (f : FieldDesc) : Bool := decide (readBeh c f = .zero) || !readAction f

/-- The register of a canonical READ and its byte enables (40_register_file.md R85, R93). -/
def readParts (c : Cfg) : Instr → Option (Nat × Word)
  | .read r => some (r, ones (widthOf c r))
  | .readNarrow r k n => some (r, mask (8 * k) (8 * n))
  | _ => none

/-- What a canonical READ of the composed word `v` returns (R85, R93). -/
def readValue (c : Cfg) : Instr → Word → Result
  | .read r, v => .word (c.regBytes r) v
  | .readNarrow _ k n, v => .word n (slice v (8 * k) (8 * n))
  | _, _ => .none

/-- Whether a read with byte enables `be` of register `r` clears source `i` (40_register_file.md R80, R81). -/
def clearedFlag (c : Cfg) (r : Nat) (be : Word) (i : Nat) : Bool :=
  (fieldsOf c r).any (fun f => decide (f.bind = .irqPending i) && decide (readBeh c f = .readToClear) && touched be f)

/-- The bits of `reg[r]` that such a read clears: those of `Stored` ReadToClear fields (R80, R81). -/
def clearedBits (c : Cfg) (r : Nat) (be : Word) : Word :=
  (fieldsOf c r).foldl
    (fun m f => if f.bind = .stored ∧ readBeh c f = .readToClear ∧ touched be f = true then m ||| mask f.off f.wid else m) 0

/-- The block after the ReadToClear fields of a read were cleared. -/
def Block.readCleared (c : Cfg) (b : Block) (r : Nat) (be : Word) : Block :=
  { b with
    reg := b.reg.set r (b.reg.getD r 0 &&& ~~~(clearedBits c r be))
    pending := b.pending.mapIdx (fun i p => p && !clearedFlag c r be i) }

/-- Composes the fields of a list into a word, as the block shows them (R78). -/
def composeFrom (c : Cfg) (b : Block) (r : Nat) (acc : Word) (l : List FieldDesc) : Word :=
  l.foldl (fun acc f => insertField acc f.off f.wid (shownValue c b r f)) acc

/-! ## FIFO primitives -/

/-- The block after FIFO `q`, which is `f`, was popped (42_fifo.md R117). -/
def popBlock (c : Cfg) (b : Block) (q : Nat) (f : Fifo) : Block :=
  match f.items with
  | [] => { b with pending := triggered c [.underflow q] b.pending }
  | _ :: rest => Block.afterFifo c b q f (settledFifo rest f.cap f.wm) []

/-- The internal events of that pop (R117, R114). -/
def popRaises (q : Nat) (f : Fifo) : List IEvent :=
  match f.items with
  | [] => [.underflow q]
  | _ :: rest => noticeEvents q f.st (settledFifo rest f.cap f.wm).st f.wmx (settledFifo rest f.cap f.wm).wmx

/-- The byte that pop gives: the head, or the dummy (R117). -/
def popByte (c : Cfg) (q : Nat) (f : Fifo) : Byte :=
  match f.items with
  | [] => dummyOf c q
  | x :: _ => x

/-- The architectural events of that pop (R117, R114). -/
def popEvents (q : Nat) (f : Fifo) : List Event :=
  match f.items with
  | [] => []
  | _ :: rest => fifoNotice q f (settledFifo rest f.cap f.wm)

/-- The block after byte `x` was pushed to FIFO `q`, which is `f` (42_fifo.md R116). -/
def pushBlock (c : Cfg) (b : Block) (q : Nat) (f : Fifo) (x : Byte) : Block :=
  if f.cap ≤ f.items.length then { b with pending := triggered c [.overflow q] b.pending }
  else Block.afterFifo c b q f (settledFifo (f.items ++ [x]) f.cap f.wm) [.pushed q]

/-- The architectural events of that push (R116, R114). -/
def pushEvents (q : Nat) (f : Fifo) (x : Byte) : List Event :=
  if f.cap ≤ f.items.length then [] else fifoNotice q f (settledFifo (f.items ++ [x]) f.cap f.wm)

/-- FIFO `f` after byte `x` was pushed to it: as it was when it is full (R116). -/
def pushedFifo (f : Fifo) (x : Byte) : Fifo :=
  if f.cap ≤ f.items.length then f else settledFifo (f.items ++ [x]) f.cap f.wm

/-- The internal events of that push to FIFO `q` (R116, R114). -/
def pushRaises (q : Nat) (f : Fifo) (x : Byte) : List IEvent :=
  if f.cap ≤ f.items.length then [.overflow q]
  else .pushed q :: noticeEvents q f.st (pushedFifo f x).st f.wmx (pushedFifo f x).wmx

/-- FIFO `f` after all its items were popped (R117): an empty one was never popped. -/
def drainedFifo (f : Fifo) : Fifo := if f.items = [] then f else settledFifo [] f.cap f.wm

/-- Where a drain pushes its bytes: nowhere, or to the FIFO with this number and value. -/
abbrev Into := Option (Nat × Fifo)

/-- The target after byte `x`. -/
def Into.pushed (into : Into) (x : Byte) : Into := into.map (fun p => (p.1, pushedFifo p.2 x))

/-- The internal events of handing byte `x` to the target (R116). -/
def Into.raises : Into → Byte → List IEvent
  | none, _ => []
  | some (r, g), x => pushRaises r g x

/-- The notifications of handing byte `x` to the target (R116). -/
def Into.events : Into → Byte → List Event
  | none, _ => []
  | some (r, g), x => pushEvents r g x

/-- The internal events of a drain of FIFO `q`, which is `f`, of the given items (43_peripheral.md R129): each pop settles on its own,
then the byte is handed on. -/
def drainRaises (q : Nat) : Fifo → Into → List Byte → List IEvent
  | _, _, [] => []
  | f, into, x :: rest =>
    let g := settledFifo rest f.cap f.wm
    noticeEvents q f.st g.st f.wmx g.wmx ++ (into.raises x ++ drainRaises q g (into.pushed x) rest)

/-- The architectural events of such a drain, in order: for each byte the notification of its pop, that of its push, and the byte itself
where it goes to the `line` (R129, R126). -/
def drainOutputs (q : Nat) (line : Bool) : Fifo → Into → List Byte → List Event
  | _, _, [] => []
  | f, into, x :: rest =>
    let g := settledFifo rest f.cap f.wm
    fifoNotice q f g
      ++ (into.events x ++ ((if line then [.transmit x] else []) ++ drainOutputs q line g (into.pushed x) rest))

/-- The bytes a trace hands to the line, in order (43_peripheral.md R126). -/
def sentBytes (l : List Event) : List Byte :=
  l.filterMap (fun e => match e with | .transmit b => some b | _ => none)

/-- Whether a trace event is a FIFO notification. -/
def isNotify : Event → Bool
  | .notify _ _ _ _ _ => true
  | _ => false

/-- The FIFO primitives of 42_fifo.md, on any FIFO. -/
def isFifoPrimitive : Instr → Bool
  | .fifoPush _ _ | .fifoPop _ | .fifoFlush _ | .fifoSetCapacity _ _ | .fifoSetWatermark _ _ => true
  | _ => false

/-- The state after a list of instructions, one after the other; none as soon as one gives no next state. -/
def runAll : List Instr → State → Option State
  | [], s => some s
  | i :: l, s =>
    match exec i s with
    | .next t => runAll l t
    | _ => none

/-! ## Writes -/

/-- The register of a WRITE that reaches one, the word written and its byte enables: the value itself, or its combination with
the peeked word in a window (40_register_file.md R86 to R90, R94, R95). -/
def writeParts (c : Cfg) (b : Block) : Instr → Option (Nat × Word × Word)
  | .write r v => some (r, v, ones (widthOf c r))
  | .writeSet r m => some (r, peekReg c b r ||| m, ones (widthOf c r))
  | .writeClr r m => some (r, peekReg c b r &&& ~~~m, ones (widthOf c r))
  | .writeTgl r m => some (r, peekReg c b r ^^^ m, ones (widthOf c r))
  | .writeNarrow r k n x => some (r, x <<< (8 * k), mask (8 * k) (8 * n))
  | .writeNarrowAlias w r k n x => some (r, combine w (peekReg c b r) (x <<< (8 * k)), mask (8 * k) (8 * n))
  | _ => none

/-- The primitive that a field's apply invokes, with its operands (40_register_file.md R75). -/
def applyPrimitive (c : Cfg) (w : FieldWrite) : Option Instr :=
  let new := w.2.2
  match w.1.bind with
  | .irqEnable i => some (.irqSetEnabled i (bit0 new))
  | .uartData _ (some _) => some (.txByte (new.setWidth 8))
  | .fifoWatermark q => some (.fifoSetWatermark q new.toNat)
  | .fifoMode q => some (.fifoSetCapacity q (if bit0 new then (match c.fifos[q]? with | some d => d.capFifoMode | none => 1) else 1))
  | .fifoFlush q => if bit0 new then some (.fifoFlush q) else none
  | .txEnable => some (.txEnable (bit0 new))
  | .timerStart t => if bit0 new then some (.timerArm t) else none
  | .timerStop t => if bit0 new then some (.timerCancel t) else none
  | _ => none

/-- The block after an apply that invokes no primitive (R75). -/
def applyDirect (r : Nat) (w : FieldWrite) (b : Block) : Block :=
  match w.1.bind with
  | .stored => { b with reg := b.reg.set r (insertField (b.reg.getD r 0) w.1.off w.1.wid w.2.2) }
  | .irqPending i => { b with pending := b.pending.set i (bit0 w.2.2) }
  | .rxEnable => { b with rxEn := bit0 w.2.2 }
  | .loopback => { b with loopOn := bit0 w.2.2 }
  | _ => b

/-! ## Operations in turn

Each relation below leads from a state to a state with the architectural events `out` in between. Only the block of these states counts. -/

/-- The operations of a list one after the other, each as `P` says (60_exceptions.md R148). -/
def InTurn {α : Type} (P : α → State → State → List Event → Prop) : List α → State → State → List Event → Prop
  | [], s, t, out => t = s ∧ out = []
  | a :: l, s, t, out => ∃ u o o', P a s u o ∧ InTurn P l u t o' ∧ out = o ++ o'

/-- The primitive that an action of a custom function invokes (40_register_file.md R77; log 8). -/
def actPrimitive : Act → Option Instr
  | .fifoPush q x => some (.fifoPush q x)
  | .fifoPop q => some (.fifoPop q)
  | .fifoFlush q => some (.fifoFlush q)
  | .fifoSetCapacity q n => some (.fifoSetCapacity q n)
  | .fifoSetWatermark q n => some (.fifoSetWatermark q n)
  | .irqSet i v => some (.irqSet i v)
  | .irqSetEnabled i v => some (.irqSetEnabled i v)
  | .recompute => some .recompute
  | .txByte x => some (.txByte x)
  | .txDrain => some .txDrain
  | .txEnable v => some (.txEnable v)
  | .timerArm t => some (.timerArm t)
  | .timerCancel t => some (.timerCancel t)
  | .emit _ | .raise _ | .store _ => none

/-- The bits of register `r` that a custom function of it may write: those of its `Stored` fields (log 9). -/
def ownBits (c : Cfg) (r : Nat) : Word :=
  (fieldsOf c r).foldl (fun m f => if f.bind = .stored then m ||| mask f.off f.wid else m) 0

/-- The block after an action of register `r` that invokes no primitive: a raised event sets its flags (41_interrupts.md R103), a store
writes the register's own bits (R77). -/
def actDirect (c : Cfg) (r : Nat) (b : Block) : Act → Block
  | .raise e => { b with pending := triggered c [e] b.pending }
  | .store v => { b with reg := b.reg.set r ((b.reg.getD r 0 &&& ~~~(ownBits c r)) ||| (v &&& ownBits c r)) }
  | _ => b

/-- The trace events of such an action. -/
def actEvents : Act → List Event
  | .emit e => [e]
  | _ => []

/-- One action of a custom function of register `r`; on an element that the block does not have it does nothing (log 8). -/
def ActDone (r : Nat) (a : Act) (s t : State) (out : List Event) : Prop :=
  match actPrimitive a with
  | some i => (s.cfg.admits i = true → exec i s = .next t ∧ out = outputs t.trace) ∧ (s.cfg.admits i = false → t = s ∧ out = [])
  | none => t = { s with blk := actDirect s.cfg r s.blk a } ∧ out = outputs (actEvents a)

/-- A custom function of register `r`, which is its actions in order (R77; log 8). One that would break 43_peripheral.md R130 is none that
R77 allows, and does nothing (log 9). -/
def CustomDone (r : Nat) (l : List Act) (s t : State) (out : List Event) : Prop :=
  ∃ u o, InTurn (ActDone r) l s u o ∧
    ((Drained s.cfg s.blk → Drained u.cfg u.blk) → t = u ∧ out = o) ∧
    (¬ (Drained s.cfg s.blk → Drained u.cfg u.blk) → t = s ∧ out = [])

/-- The apply of a field's binding (R75): its custom function, the primitive it invokes, or its direct write. -/
def ApplyDone (r : Nat) (w : FieldWrite) (s t : State) (out : List Event) : Prop :=
  match w.1.bind with
  | .custom _ _ ap => CustomDone r (Config.customApply ap w.2.2 s.blk) s t out
  | _ =>
    match applyPrimitive s.cfg w with
    | some i => exec i s = .next t ∧ out = outputs t.trace
    | none => t = { s with blk := applyDirect r w s.blk } ∧ out = []

/-- The write effect of a field, of its old and its new value, where it has one (R82, R77). -/
def EffectDone (r : Nat) (w : FieldWrite) (s t : State) (out : List Event) : Prop :=
  match w.1.effect with
  | some id => CustomDone r (Config.customEffect id w.2.1 w.2.2 s.blk) s t out
  | none => t = s ∧ out = []

/-- The `post_read` or `post_write` of register `r`, run once, where it has one (R83). -/
def PostDone (r : Nat) (h : Option Nat) (s t : State) (out : List Event) : Prop :=
  match h with
  | some id => CustomDone r (Config.customPost id s.blk) s t out
  | none => t = s ∧ out = []

/-- The read action of a field's binding (R75, `onRead`): a pop of the rx FIFO, or a custom function. -/
def OnReadDone (r : Nat) (f : FieldDesc) (s t : State) (out : List Event) : Prop :=
  match f.bind with
  | .uartData (some q) _ => exec (.fifoPop q) s = .next t ∧ out = outputs t.trace
  | .custom _ rd _ => CustomDone r (Config.customRead rd s.blk) s t out
  | _ => t = s ∧ out = []

/-- The first loop of a masked read (R80), from the word `v` to the word `v'`: each field's value is taken as `peek(r)` shows it at that
moment, then the field's read action runs, if the read reaches the field and the field does not read as Zero. -/
def FieldsRead (r : Nat) (be : Word) : List FieldDesc → State → Word → State → Word → List Event → Prop
  | [], s, v, t, v', out => t = s ∧ v' = v ∧ out = []
  | f :: l, s, v, t, v', out => ∃ u o o',
    ((readBeh s.cfg f ≠ .zero ∧ slice be f.off f.wid ≠ 0) → OnReadDone r f s u o) ∧
    (¬ (readBeh s.cfg f ≠ .zero ∧ slice be f.off f.wid ≠ 0) → u = s ∧ o = []) ∧
    FieldsRead r be l u (insertField v f.off f.wid (slice (peekReg s.cfg s.blk r) f.off f.wid)) t v' o' ∧ out = o ++ o'

/-- One field of the second loop (R80, R81): a ReadToClear field that the read reaches has 0 applied. -/
def ClearDone (r : Nat) (be : Word) (f : FieldDesc) (s t : State) (out : List Event) : Prop :=
  ((readBeh s.cfg f = .readToClear ∧ slice be f.off f.wid ≠ 0) → ApplyDone r (f, 0, 0) s t out) ∧
  (¬ (readBeh s.cfg f = .readToClear ∧ slice be f.off f.wid ≠ 0) → t = s ∧ out = [])

/-- A field without a custom binding and without a custom effect. -/
def standardField (f : FieldDesc) : Bool :=
  f.effect.isNone && (match f.bind with | .custom _ _ _ => false | _ => true)

/-- A register without custom functions (40_register_file.md R77). -/
def standardReg (c : Cfg) (r : Nat) : Bool :=
  match c.regs[r]? with
  | some d => d.fields.all standardField && d.postRead.isNone && d.postWrite.isNone
  | none => true

/-- A configuration whose registers have no custom functions. -/
def standardCfg (c : Cfg) : Bool := c.regs.all (fun d => d.fields.all standardField && d.postRead.isNone && d.postWrite.isNone)

/-- No signal of the configuration is computed by a custom function (43_peripheral.md R137). -/
def plainSignals (c : Cfg) : Bool := c.signals.all (fun g => match g.expr with | .custom _ => false | _ => true)

/-- A binding whose apply writes one element of the block and does nothing else, or nothing at all. -/
def plainBinding : Binding → Bool
  | .uartData _ (some _) | .fifoWatermark _ | .fifoMode _ | .fifoFlush _ | .txEnable | .timerStart _ | .timerStop _
  | .custom _ _ _ => false
  | _ => true

/-- The value that the last write to binding `k` gives, in declaration order (R82). -/
def lastWrite (ws : List FieldWrite) (k : Binding) : Option Word :=
  ((ws.filter (fun w => decide (w.1.bind = k))).getLast?).map (·.2.2)

/-- A bit after the writes: the last value written to binding `k`, or the old bit. -/
def lastBit (ws : List FieldWrite) (k : Binding) (old : Bool) : Bool :=
  match lastWrite ws k with
  | some v => bit0 v
  | none => old

/-- The block after writes to plain bindings: stored fields, pending flags, enable flags, receive enable and loopback. -/
def Block.plainWritten (b : Block) (r : Nat) (ws : List FieldWrite) : Block :=
  { b with
    reg := b.reg.set r ((ws.filter (fun w => decide (w.1.bind = .stored))).foldl
      (fun v w => insertField v w.1.off w.1.wid w.2.2) (b.reg.getD r 0))
    pending := b.pending.mapIdx (fun i p => lastBit ws (.irqPending i) p)
    enabled := b.enabled.mapIdx (fun i p => lastBit ws (.irqEnable i) p)
    rxEn := lastBit ws .rxEnable b.rxEn
    loopOn := lastBit ws .loopback b.loopOn }

/-- The mask of a list of fields: the `F` of 40_register_file.md R91. -/
def fieldsMask (l : List FieldDesc) : Word := l.foldl (fun m f => m ||| mask f.off f.wid) 0

end Sys2Proof.Machine
end

