-- ==== Sys2Proof/Certificates/Slice0/Obligations.lean ====
section
/-! DEFINITION. The statements for the provers. Each is a proposition about the model, with the rule of spec/ it comes from.
No statement speaks of a diagnostic (60_exceptions.md R144): outputs are the architectural events of a trace. -/

open Sys2Proof Sys2Proof.Machine

/-! ## Encoding -/

/-- Decoding the descriptor of a well-formed operation gives the operation back, for every row of the table and every operand
(30_encoding.md R58, R62, R63). Where the operands of an internal primitive stand is the model's choice (log 6). -/
def Obligations.DecodeEncodeRoundTrip : Prop :=
  ∀ (c : Cfg) (i : Instr), validCfg c = true → i.WellFormed c → decode c (encode c i) = .ok i

/-- What the decoder gives is well-formed and has the descriptor's code (R58, R59). -/
def Obligations.DecodedIsWellFormed : Prop :=
  ∀ (c : Cfg) (d : Desc) (i : Instr), decode c d = .ok i → i.WellFormed c ∧ i.opcode = d.op

/-- A descriptor whose code is none of the seven has no step (R61). -/
def Obligations.OtherCodesHaveNoStep : Prop :=
  ∀ (s : State) (d : Desc) (rest : List Desc), s.consistent = true → s.inbox = d :: rest →
    d.op ∉ [0x00#8, 0x01, 0x10, 0x20, 0x30, 0x40, 0x50] →
      step s = .refused (.notATransaction d.op) ∨ step s = .refused (.internalFromAgent d.op)

/-- The bits that an operation ignores do not change what is decoded (R62): a READ's data, a WRITE's data above its value,
all but one byte for RX_BYTE, everything for RESET, all but the index for FLUSH and SIGNAL_SAMPLE, the size for TIMER_FIRE. -/
def Obligations.IgnoredBitsChangeNothing : Prop :=
  ∀ (c : Cfg) (n n' : BitVec 8) (a a' x x' : BitVec 64),
    decode c (Desc.pack 0x00 n a x) = decode c (Desc.pack 0x00 n a x') ∧
    ((∀ j, j < 8 * n.toNat → x.getLsbD j = x'.getLsbD j) →
      decode c (Desc.pack 0x01 n a x) = decode c (Desc.pack 0x01 n a x')) ∧
    ((∀ j, j < 8 → x.getLsbD j = x'.getLsbD j) →
      decode c (Desc.pack 0x10 n a x) = decode c (Desc.pack 0x10 n' a' x')) ∧
    decode c (Desc.pack 0x20 n a x) = decode c (Desc.pack 0x20 n' a x') ∧
    decode c (Desc.pack 0x30 n a x) = decode c (Desc.pack 0x30 n' a' x') ∧
    decode c (Desc.pack 0x40 n a x) = decode c (Desc.pack 0x40 n' a x) ∧
    decode c (Desc.pack 0x50 n a x) = decode c (Desc.pack 0x50 n' a x')

/-- The ranges are those of the registers and, in a block with windows, of their three aliases (20_memory.md R42, R43). Every address
lies in at most one range, so the order in which ranges are tested does not matter (R43), and the class of an access is exact, narrow,
rejected or unmapped as R45 and 30_encoding.md R63 say. -/
def Obligations.AddressHasOneRangeAndClass : Prop :=
  ∀ (c : Cfg) (a : Addr) (n : Nat), validCfg c = true →
    (∀ sp : Span, sp ∈ c.spans ↔ ∃ d, c.regs[sp.reg]? = some d ∧ sp.len = d.w / 8 ∧
      ((sp.win = none ∧ sp.base = d.addr.toNat) ∨
        (c.hasAlias = true ∧ ((sp.win = some .set ∧ sp.base = d.addr.toNat + c.setOffset.toNat) ∨
          (sp.win = some .clear ∧ sp.base = d.addr.toNat + c.clearOffset.toNat) ∨
          (sp.win = some .toggle ∧ sp.base = d.addr.toNat + c.toggleOffset.toNat))))) ∧
    (∀ x ∈ c.spans, ∀ y ∈ c.spans, x.covers a.toNat = true → y.covers a.toNat = true → x = y) ∧
    (∀ l : List Span, l.Perm c.spans → l.find? (·.covers a.toNat) = c.spans.find? (·.covers a.toNat)) ∧
    ((∀ sp ∈ c.spans, sp.covers a.toNat = false) → c.classify a n = .unmapped) ∧
    (∀ sp ∈ c.spans, sp.covers a.toNat = true →
      ((n = sp.len ∧ a.toNat = sp.base) → c.classify a n = .exact sp.win sp.reg) ∧
      ((n ∈ [1, 2, 4] ∧ n < sp.len ∧ a.toNat % n = 0 ∧ c.translation = .widen) →
        c.classify a n = .narrow sp.win sp.reg (a.toNat - sp.base)) ∧
      ((n ∉ [1, 2, 4] ∨ sp.len < n ∨ a.toNat % n ≠ 0 ∨ (n = sp.len ∧ a.toNat ≠ sp.base) ∨
        (n < sp.len ∧ c.translation = .reject)) → c.classify a n = .rejected))

/-- Descriptors written out from R58 and R59 decode, under REF, to the operations they stand for. -/
def Obligations.WordsFromTheSpecDecode : Prop :=
  decode Cfg.ref 0x01_04_000000000000000C_0000000000000003#144 = .ok (.write 3 3) ∧
  decode Cfg.ref 0x00_01_0000000000000006_0000000000000000#144 = .ok (.readNarrow 1 2 1) ∧
  decode Cfg.ref 0x01_04_000000000000010C_0000000000002100#144 = .ok (.writeSet 3 0x2100) ∧
  decode Cfg.ref 0x10_00_0000000000000000_0000000000000041#144 = .ok (.rxByte 0x41) ∧
  decode Cfg.ref 0x40_00_0000000000000000_0000000000000006#144 = .ok (.timerFire 0 6)

/-! ## Steps -/

/-- A step takes the first transaction of the inbox and runs exactly the operation it decodes to (20_memory.md R49, R54; the inbox
is the model's choice, log 2). A state that breaks 10_state.md R25 is a fault: that the step checks R25 before and after the transaction,
and that the fault then stands in place of what exec answers, is the model's choice (log 17); 60_exceptions.md R143 names no moment of
the check. -/
def Obligations.StepRunsDecodedTransaction : Prop :=
  (∀ (s : State) (d : Desc) (rest : List Desc) (i : Instr), s.consistent = true → s.inbox = d :: rest →
    decode s.cfg d = .ok i → i.isTransaction = true →
      ∃ t, exec i { s with inbox := rest } = .next t ∧ (t.consistent = true → step s = .next t) ∧
        (t.consistent = false → step s = .fault .invariantViolation)) ∧
  (∀ s : State, s.consistent = false → step s = .fault .invariantViolation)

/-- With no transaction to serve, nothing changes (41_interrupts.md R112). That a step with an empty inbox answers the same state is the
model's choice (log 3). -/
def Obligations.NothingChangesBetweenEntryPoints : Prop :=
  ∀ s : State, s.consistent = true → s.inbox = [] → step s = .next s

/-- Every entry point completes, whatever the configuration, the state and the custom functions; and in a constructed block READ always
returns a value, of the size that its descriptor asks for (60_exceptions.md R140, 30_encoding.md R62). -/
def Obligations.EveryEntryPointCompletes : Prop :=
  (∀ (s : State) (i : Instr), s.cfg.admits i = true → i.isTransaction = true → ∃ t, exec i s = .next t) ∧
  (∀ (s : State) (i : Instr), Inv s → s.cfg.admits i = true → i.opcode = 0x00 →
    ∃ t n v, exec i s = .next t ∧ t.result = .word n v ∧ trunc (8 * n) v = v ∧ (encode s.cfg i).size.toNat = n)

/-- From a state of a constructed block, every descriptor with an agent's code has a step, which is never a fault and never a
refusal, and the invariant holds after it (R140, R143). -/
def Obligations.AgentTransactionsNeverStop : Prop :=
  ∀ (s : State) (d : Desc) (rest : List Desc), Inv s → s.inbox = d :: rest →
    d.op ∈ [0x00#8, 0x01, 0x10, 0x20, 0x30, 0x40, 0x50] → ∃ t, step s = .next t ∧ t.inbox = rest ∧ Inv t

/-- Every step keeps the invariant: FIFOs as R25 says, tx FIFO empty while transmitting (43_peripheral.md R130), reserved bits
at their reset values (10_state.md R19), every latched output up to date (41_interrupts.md R111). -/
def Obligations.StepKeepsInvariant : Prop :=
  ∀ s t : State, Inv s → step s = .next t → Inv t

/-- The state after reset, which is REF just constructed (the model's choice, log 1), satisfies the invariant (10_state.md R39). -/
def Obligations.ResetStateSatisfiesInvariant : Prop := Inv State.reset

/-- No instruction and no step changes the configuration (10_state.md R11). -/
def Obligations.ConfigurationNeverChanges : Prop :=
  (∀ (s t : State) (i : Instr), exec i s = .next t → t.cfg = s.cfg) ∧ (∀ s t : State, step s = .next t → t.cfg = s.cfg)

/-! ## Construction and reset -/

/-- Construction succeeds exactly for a configuration that passes the checks of 70_reset_and_hazards.md R155 and two that the model reads
into it: that what conditions and triggers name exists (log 15), and that alias offsets are multiples of 4 also without windows (log 16).
The block starts in the state of 10_state.md R31 to R37 with every timer token 0 and no event (R156): registers, pending flags, FIFOs and
signals are said here, and a RESET right after changes only the timer tokens, so that enable flags, control bits and watermarks are those
of ResetEnablesFollowFields and ResetEmptiesFifos. A custom signal could show a token, so of such a signal RESET may change the level. -/
def Obligations.ConstructionStartsBlock : Prop :=
  (∀ c : Cfg, validCfg c = true ↔ PassesChecks c) ∧
  (∀ c : Cfg, validCfg c = true → ∃ s t, construct c = .ok s ∧ s.cfg = c ∧ Inv s ∧ s.trace = [] ∧ s.inbox = [] ∧
    (∀ x ∈ s.blk.timer, x = ⟨.idle, 0⟩) ∧
    s.blk.reg = c.regs.map (·.resetValue) ∧ s.blk.pending = c.sources.map (fun _ => false) ∧
    (∀ (q : Nat) (d : FifoDesc), c.fifos[q]? = some d → ∃ x, s.blk.fifo[q]? = some x ∧
      x.items = [] ∧ x.cap = d.capReset ∧ x.st = .empty ∧ x.wmx = false) ∧
    (∀ (g : Nat) (d : SignalDesc), c.signals[g]? = some d → s.blk.sig[g]? = some (evalSignal c s.blk d.expr)) ∧
    exec .reset s = .next t ∧ t.trace = [] ∧
    t.blk = { s.blk with timer := s.blk.timer.map (fun x => ⟨x.phase, x.token + 1⟩), sig := t.blk.sig } ∧
    (plainSignals c = true → t.blk.sig = s.blk.sig)) ∧
  (∀ c : Cfg, validCfg c = false → ∃ e, construct c = .error e)

/-- In a configuration that construction accepts, no two fields of a register share a bit, and no field leaves its register
(10_state.md R13). -/
def Obligations.FieldsOfRegisterShareNoBit : Prop :=
  ∀ (c : Cfg) (d : RegDesc) (j m n : Nat) (f g : FieldDesc), validCfg c = true → d ∈ c.regs →
    d.fields[m]? = some f → d.fields[n]? = some g →
      (f.off ≤ j ∧ j < f.off + f.wid → j < d.w) ∧
      (m ≠ n → ¬ ((f.off ≤ j ∧ j < f.off + f.wid) ∧ (g.off ≤ j ∧ j < g.off + g.wid)))

/-- RESET gives every register its reset value, clears every pending flag, and leaves every signal at the value of its
expression in the new state (R31, R32, R37). -/
def Obligations.ResetRestoresRegistersFlagsSignals : Prop :=
  ∀ s : State, ∃ t, exec .reset s = .next t ∧
    (∀ (r : Nat) (d : RegDesc), s.cfg.regs[r]? = some d → t.blk.reg[r]? = some d.resetValue) ∧
    (∀ (i : Nat) (d : SourceDesc), s.cfg.sources[i]? = some d → t.blk.pending[i]? = some false) ∧
    (∀ (g : Nat) (d : SignalDesc), s.cfg.signals[g]? = some d → t.blk.sig[g]? = some (evalSignal s.cfg t.blk d.expr))

/-- After RESET a source's enable flag is the reset bit of the first field bound to it, in register order, then field order, and its
`enable_reset` where no field is (R33). Transmit enable, receive enable and loopback are the reset bit of the field bound to them, and 0
where none is (R35); of two such fields the statement asks only that they agree. -/
def Obligations.ResetEnablesFollowFields : Prop :=
  ∀ s : State, validCfg s.cfg = true → ∃ t, exec .reset s = .next t ∧
    (∀ (i : Nat) (d : SourceDesc), s.cfg.sources[i]? = some d →
      ((∀ r ∈ s.cfg.regs, ∀ f ∈ r.fields, f.bind ≠ .irqEnable i) → t.blk.enabled[i]? = some d.enableReset) ∧
      (∀ (rs rs' : List RegDesc) (r : RegDesc) (fs fs' : List FieldDesc) (f : FieldDesc),
        s.cfg.regs = rs ++ r :: rs' → r.fields = fs ++ f :: fs' → f.bind = .irqEnable i →
        (∀ x ∈ rs, ∀ g ∈ x.fields, g.bind ≠ .irqEnable i) → (∀ g ∈ fs, g.bind ≠ .irqEnable i) →
          t.blk.enabled[i]? = some (bit0 (slice r.resetValue f.off 1)))) ∧
    (∀ (k : Binding) (v : Bool),
      ((∀ r ∈ s.cfg.regs, ∀ f ∈ r.fields, f.bind ≠ k) ∧ v = false ∨
        (∃ r ∈ s.cfg.regs, ∃ f ∈ r.fields, f.bind = k) ∧
          (∀ r ∈ s.cfg.regs, ∀ f ∈ r.fields, f.bind = k → r.resetValue.getLsbD f.off = v)) →
      (k = .txEnable → t.blk.txEn = v) ∧ (k = .rxEnable → t.blk.rxEn = v) ∧ (k = .loopback → t.blk.loopOn = v))

/-- After RESET every FIFO is empty with its reset capacity, and its watermark is the reset value of the field bound to it, cut to the
capacity, or `wm_reset` where no field is (R34); of two such fields the statement asks only that they agree. -/
def Obligations.ResetEmptiesFifos : Prop :=
  ∀ (s : State) (q : Nat) (d : FifoDesc), s.cfg.fifos[q]? = some d → ∃ t x, exec .reset s = .next t ∧ t.blk.fifo[q]? = some x ∧
    x.items = [] ∧ x.cap = d.capReset ∧ x.st = .empty ∧ x.wmx = false ∧
    ((∀ r ∈ s.cfg.regs, ∀ f ∈ r.fields, f.bind ≠ .fifoWatermark q) → x.wm = d.wmReset) ∧
    (∀ v : Nat, (∃ r ∈ s.cfg.regs, ∃ f ∈ r.fields, f.bind = .fifoWatermark q) →
      (∀ r ∈ s.cfg.regs, ∀ f ∈ r.fields, f.bind = .fifoWatermark q →
        min (slice r.resetValue f.off f.wid).toNat d.capReset = v) → x.wm = v)

/-- RESET leaves every timer idle with its token advanced, announces each armed timer's firing as void, and emits nothing else:
no byte is sent and no FIFO notifies (R157, 10_state.md R36). -/
def Obligations.ResetIdlesTimers : Prop :=
  ∀ s : State, ∃ t, exec .reset s = .next t ∧
    (∀ (n : Nat) (x : Timer), s.blk.timer[n]? = some x → t.blk.timer[n]? = some ⟨.idle, x.token + 1⟩) ∧
    t.blk.timer.length = s.blk.timer.length ∧
    (∀ e, e ∈ t.trace ↔ ∃ n x, s.blk.timer[n]? = some x ∧ x.phase = .armed ∧ e = .timerCancel n x.token) ∧
    sentBytes t.trace = []

/-- Two RESETs in a row leave the same state as one, but for the timer tokens, and the second emits nothing (R159). A custom
signal could show a token, so the configuration has none. -/
def Obligations.SecondResetOnlyAdvancesTokens : Prop :=
  ∀ s : State, plainSignals s.cfg = true → ∃ t u, exec .reset s = .next t ∧ exec .reset t = .next u ∧
    u.blk = { t.blk with timer := t.blk.timer.map (fun x => ⟨x.phase, x.token + 1⟩) } ∧ u.trace = []

/-- REF just after construction: the values of R39, and what its three reads return. -/
def Obligations.ReferenceStateAfterReset : Prop :=
  construct Cfg.ref = .ok State.reset ∧
  State.reset.blk.reg = [0, 0, 0, 0xA5000008, 2] ∧
  State.reset.blk.pending = [false, false, false, false, false] ∧
  State.reset.blk.enabled = [false, false, false, false, false] ∧
  State.reset.blk.fifo = [⟨[], 4, 2, .empty, false⟩, ⟨[], 4, 0, .empty, false⟩] ∧
  (State.reset.blk.rxEn = false ∧ State.reset.blk.txEn = false ∧ State.reset.blk.loopOn = false) ∧
  State.reset.blk.timer.map (·.phase) = [.idle] ∧
  State.reset.blk.sig = [false, false, false, true, false] ∧
  Completes (.read 3) State.reset State.reset.blk (.word 4 0xA5000008) [] ∧
  Completes (.read 4) State.reset State.reset.blk (.word 4 0x00000002) [] ∧
  Completes (.read 1) State.reset State.reset.blk (.word 4 0x00000500) []

/-! ## Register file: reads -/

/-- The composed value of a register, by parts: reserved bits from `reg[r]`, 0 for a field that reads as Zero, the binding's value
for every other field (R79). That value is said for each binding (the peek column of R75): the stored bits, `pending[s]`, `enabled[s]`
for an enable field and, not inverted, for its mirror (10_state.md R22), the head of the rx FIFO or its dummy, the count, the
predicate of 41_interrupts.md R108, the watermark, whether the capacity is above 1, a control bit, the custom value; 0 for an action
bit and for a data field without rx FIFO, which read as Zero in every configuration that construction accepts. -/
def Obligations.ComposedValueByParts : Prop :=
  ∀ (c : Cfg) (b : Block) (r : Nat) (d : RegDesc), validCfg c = true → c.regs[r]? = some d →
    (∀ j, (∀ f ∈ d.fields, ¬ (f.off ≤ j ∧ j < f.off + f.wid)) →
      (peekReg c b r).getLsbD j = (b.reg.getD r 0).getLsbD j) ∧
    (∀ f ∈ d.fields, readBeh c f = .zero → slice (peekReg c b r) f.off f.wid = 0) ∧
    (∀ f ∈ d.fields, readBeh c f ≠ .zero → slice (peekReg c b r) f.off f.wid = trunc f.wid (bindPeek c b r f)) ∧
    (∀ f ∈ d.fields, readBeh c f ≠ .zero →
      let x := slice (peekReg c b r) f.off f.wid
      match f.bind with
      | .stored => x = slice (b.reg.getD r 0) f.off f.wid
      | .irqPending i => x = if b.pending[i]? = some true then 1 else 0
      | .irqEnable i => x = if b.enabled[i]? = some true then 1 else 0
      | .irqMaskMirror i => x = if b.enabled[i]? = some true then 1 else 0
      | .uartData none _ => x = 0
      | .uartData (some q) _ => ∀ F D, b.fifo[q]? = some F → c.fifos[q]? = some D →
        (∀ y l, F.items = y :: l → x.toNat = y.toNat % 2 ^ f.wid) ∧ (F.items = [] → x.toNat = D.dummy.toNat % 2 ^ f.wid)
      | .fifoCount q => ∀ F, b.fifo[q]? = some F → x.toNat = F.items.length % 2 ^ f.wid
      | .fifoFlag q p => ∀ F, b.fifo[q]? = some F → (x = 0 ∨ x = 1) ∧ (x = 1 ↔ F.shows p)
      | .fifoWatermark q => ∀ F, b.fifo[q]? = some F → x.toNat = F.wm % 2 ^ f.wid
      | .fifoMode q => ∀ F, b.fifo[q]? = some F → x = if 1 < F.cap then 1 else 0
      | .fifoFlush _ => x = 0
      | .rxEnable => x = if b.rxEn then 1 else 0
      | .txEnable => x = if b.txEn then 1 else 0
      | .loopback => x = if b.loopOn then 1 else 0
      | .timerStart _ => x = 0
      | .timerStop _ => x = 0
      | .custom pk _ _ => x = trunc f.wid (Config.customPeek pk b)) ∧
    (∀ f ∈ d.fields, ∀ n, (f.bind = .fifoFlush n ∨ f.bind = .timerStart n ∨ f.bind = .timerStop n ∨ f.bind = .uartData none (some n)) →
      slice (peekReg c b r) f.off f.wid = 0)

/-- A canonical READ, exact or narrow, whatever its fields. First the word is composed in declaration order, each field as it stands at its
turn, whose read action then runs if the read reaches it; then the ReadToClear fields that it reaches are cleared, in order; then `post_read`
runs once; then recompute (R80, R81, R83, R85, R93, 60_exceptions.md R148, 70_reset_and_hazards.md R166). On a register with custom
functions this is said of a constructed block. Where no field reached has a read action and there is no `post_read`, it returns the composed
value, or its lanes, and clears stored bits and pending flags; nothing else changes but by recompute (41_interrupts.md R100). What a custom
function may do is R77's, in the model's form (log 8, log 9). -/
def Obligations.ReadComposesThenClears : Prop :=
  ∀ (i : Instr) (s : State) (r : Nat) (be : Word), validCfg s.cfg = true → s.cfg.admits i = true →
    readParts s.cfg i = some (r, be) →
    ((standardReg s.cfg r = true ∨ Inv s) → ∃ s1 v o1 s2 o2 s3 o3,
      FieldsRead r be (fieldsOf s.cfg r) s (s.blk.reg.getD r 0) s1 v o1 ∧
      InTurn (ClearDone r be) (fieldsOf s.cfg r) s1 s2 o2 ∧
      PostDone r ((s.cfg.regs[r]?).bind (·.postRead)) s2 s3 o3 ∧
      Completes i s (Block.recomputed s.cfg s3.blk) (readValue s.cfg i v) (o1 ++ (o2 ++ o3))) ∧
    ((∀ f ∈ fieldsOf s.cfg r, touched be f = true → idleOnRead s.cfg f = true) →
      (∀ d, s.cfg.regs[r]? = some d → d.postRead = none) →
        Completes i s (Block.recomputed s.cfg (Block.readCleared s.cfg s.blk r be))
          (readValue s.cfg i (peekReg s.cfg s.blk r)) [])

/-- Such a READ that reaches no ReadToClear field changes no state, and a second one returns the same value (20_memory.md R52). -/
def Obligations.PlainReadRepeats : Prop :=
  ∀ (i : Instr) (s : State) (r : Nat) (be : Word), Inv s → s.cfg.admits i = true →
    readParts s.cfg i = some (r, be) →
    (∀ f ∈ fieldsOf s.cfg r, touched be f = true → idleOnRead s.cfg f = true ∧ readBeh s.cfg f ≠ .readToClear) →
    (∀ d, s.cfg.regs[r]? = some d → d.postRead = none) →
      ∃ t u, exec i s = .next t ∧ t.blk = s.blk ∧ exec i t = .next u ∧ u.blk = s.blk ∧ u.result = t.result ∧
        t.result = readValue s.cfg i (peekReg s.cfg s.blk r)

/-- A canonical READ that reaches one field with a read action, a `UartData` field, and runs no `post_read`: it pops the rx FIFO once. The
field shows the head, or the dummy when there is none, the fields before it show the state before the pop and those after it the state
after. The ReadToClear fields that the read reaches are cleared after the pop, so that a flag the pop set is cleared by the same read (R80,
R81, R85, 70_reset_and_hazards.md R165, R166, 42_fifo.md R117). Other reads are those of ReadComposesThenClears. -/
def Obligations.ReadOfDataFieldPops : Prop :=
  ∀ (i : Instr) (s : State) (r : Nat) (be : Word) (l l' : List FieldDesc) (f : FieldDesc) (q : Nat) (qt : Option Nat) (x : Fifo),
    validCfg s.cfg = true → s.cfg.admits i = true → readParts s.cfg i = some (r, be) →
    fieldsOf s.cfg r = l ++ f :: l' → f.bind = .uartData (some q) qt → touched be f = true →
    (∀ g ∈ l ++ l', touched be g = true → idleOnRead s.cfg g = true) →
    (∀ d, s.cfg.regs[r]? = some d → d.postRead = none) → s.blk.fifo[q]? = some x →
      let b := popBlock s.cfg s.blk q x
      Completes i s (Block.recomputed s.cfg (Block.readCleared s.cfg b r be))
        (readValue s.cfg i (composeFrom s.cfg b r
          (insertField (composeFrom s.cfg s.blk r (s.blk.reg.getD r 0) l) f.off f.wid ((popByte s.cfg q x).setWidth 32)) l'))
        (popEvents q x)

/-- A READ through a window returns the composed value, or its lanes, and has no side effect: no FIFO is popped and no flag is
cleared (R92). -/
def Obligations.WindowReadHasNoSideEffect : Prop :=
  ∀ (s : State) (w : Window) (r k n : Nat),
    (s.cfg.admits (.readSet r) = true →
      Completes (.readSet r) s (Block.recomputed s.cfg s.blk) (.word (s.cfg.regBytes r) (peekReg s.cfg s.blk r)) []) ∧
    (s.cfg.admits (.readClr r) = true →
      Completes (.readClr r) s (Block.recomputed s.cfg s.blk) (.word (s.cfg.regBytes r) (peekReg s.cfg s.blk r)) []) ∧
    (s.cfg.admits (.readTgl r) = true →
      Completes (.readTgl r) s (Block.recomputed s.cfg s.blk) (.word (s.cfg.regBytes r) (peekReg s.cfg s.blk r)) []) ∧
    (s.cfg.admits (.readNarrowAlias w r k n) = true →
      Completes (.readNarrowAlias w r k n) s (Block.recomputed s.cfg s.blk)
        (.word n (slice (peekReg s.cfg s.blk r) (8 * k) (8 * n))) [])

/-- An access that reaches no register changes nothing; a read of it returns the unmapped value, cut to its size or extended with
zeros (20_memory.md R47, 40_register_file.md R96, R97; the form of the result is the model's, log 10). -/
def Obligations.AbsentAccessHasNoEffect : Prop :=
  ∀ (s : State) (a : Addr) (n : BitVec 8) (v : BitVec 64), Inv s →
    (s.cfg.classify a n.toNat = .rejected →
      Completes (.readRejected a n) s s.blk (.word n.toNat (trunc (8 * min n.toNat 4) s.cfg.unmappedReadValue)) [] ∧
      (busValue n.toNat v = v → Completes (.writeRejected a n v) s s.blk .none [])) ∧
    (s.cfg.classify a n.toNat = .unmapped →
      Completes (.readUnmapped a n) s s.blk (.word n.toNat (trunc (8 * min n.toNat 4) s.cfg.unmappedReadValue)) [] ∧
      (busValue n.toNat v = v → Completes (.writeUnmapped a n v) s s.blk .none []))

/-! ## Register file: writes -/

/-- The new value of a written field, bit by bit: Write takes the enabled bits, W1C clears the bits written 1, W1S sets them
(R74). Which behaviours a field has: those of its access mode (R72), or, bound to IrqPending, those of its source's effective clear
policy (R73), which is AutoClear for an AutoClear source, else what the `status_clear` of the register holding its field selects, else its own
(41_interrupts.md R98). A write reaches, in declaration order, the fields with a write behaviour that have an enabled bit, and each
one's old value is its binding's value before the write and its new value the one above (R82). -/
def Obligations.NewValueBitByBit : Prop :=
  (∀ (old x be : Word) (j : Nat),
    (newValue .write old x be).getLsbD j = (if be.getLsbD j then x.getLsbD j else old.getLsbD j) ∧
    (newValue .w1c old x be).getLsbD j = (old.getLsbD j && !(x.getLsbD j && be.getLsbD j)) ∧
    (newValue .w1s old x be).getLsbD j = (old.getLsbD j || (x.getLsbD j && be.getLsbD j))) ∧
  (∀ (c : Cfg) (f : FieldDesc), (∀ i, f.bind ≠ .irqPending i) →
    (f.mode = .readOnly → readBeh c f = .read ∧ writeBeh c f = .none) ∧
    (f.mode = .writeOnly → readBeh c f = .zero ∧ writeBeh c f = .write) ∧
    (f.mode = .readWrite → readBeh c f = .read ∧ writeBeh c f = .write) ∧
    (f.mode = .writeOneToClear → readBeh c f = .read ∧ writeBeh c f = .w1c) ∧
    (f.mode = .readToClear → readBeh c f = .readToClear ∧ writeBeh c f = .none) ∧
    (f.mode = .setOnWrite → readBeh c f = .read ∧ writeBeh c f = .w1s)) ∧
  (∀ (c : Cfg) (f : FieldDesc) (i : Nat), f.bind = .irqPending i →
    (eff c i = .writeOneToClear → readBeh c f = .read ∧ writeBeh c f = .w1c) ∧
    (eff c i = .clearOnRead → readBeh c f = .readToClear ∧ writeBeh c f = .none) ∧
    (eff c i = .both → readBeh c f = .readToClear ∧ writeBeh c f = .w1c) ∧
    (eff c i = .autoClear → readBeh c f = .read ∧ writeBeh c f = .none)) ∧
  (∀ (c : Cfg) (i : Nat) (d : SourceDesc), validCfg c = true → c.sources[i]? = some d →
    (d.clear = .autoClear → eff c i = .autoClear) ∧
    (d.clear ≠ .autoClear → (∀ r ∈ c.regs, ∀ f ∈ r.fields, f.bind ≠ .irqPending i) → eff c i = d.clear) ∧
    (d.clear ≠ .autoClear → ∀ r ∈ c.regs, ∀ f ∈ r.fields, f.bind = .irqPending i →
      (r.statusClear = .none → eff c i = d.clear) ∧ (r.statusClear = .w1c → eff c i = .writeOneToClear) ∧
      (r.statusClear = .cor → eff c i = .clearOnRead) ∧ (r.statusClear = .both → eff c i = .both))) ∧
  (∀ (c : Cfg) (b : Block) (r : Nat) (v be : Word),
    (fieldWrites c b r v be).map (·.1) =
      (fieldsOf c r).filter (fun f => decide (writeBeh c f ≠ .none) && decide (slice be f.off f.wid ≠ 0)) ∧
    ∀ w ∈ fieldWrites c b r v be,
      w.2.1 = trunc w.1.wid (bindPeek c b r w.1) ∧
      (∀ d, validCfg c = true → c.regs[r]? = some d → readBeh c w.1 ≠ .zero → w.2.1 = slice (peekReg c b r) w.1.off w.1.wid) ∧
      (∀ j, j < w.1.wid →
        let x := v.getLsbD (w.1.off + j)
        let e := be.getLsbD (w.1.off + j)
        (writeBeh c w.1 = .write → w.2.2.getLsbD j = if e then x else w.2.1.getLsbD j) ∧
        (writeBeh c w.1 = .w1c → w.2.2.getLsbD j = (w.2.1.getLsbD j && !(x && e))) ∧
        (writeBeh c w.1 = .w1s → w.2.2.getLsbD j = (w.2.1.getLsbD j || (x && e)))) ∧
      (∀ j, w.1.wid ≤ j → w.2.2.getLsbD j = false))

/-- A WRITE applies the fields it reaches in declaration order, then runs their effects in declaration order, each of its old and new
value, then `post_write` once, then recomputes. Each apply is the one of R75: a write of the stored bits, of `pending[s]`, of receive enable
or of loopback itself, the primitive that R75 names for the binding, or the custom function; old values are those before the write, and a
window writes the combination with the peeked word. All six forms that reach a register (R75, R82, R83, R86 to R90, R94, R95,
60_exceptions.md R148, 70_reset_and_hazards.md R169). On a register with custom functions this is said of a constructed block; what they may
do is R77's, in the model's form (log 8, log 9). -/
def Obligations.WriteAppliesFieldsInOrder : Prop :=
  ∀ (i : Instr) (s : State) (r : Nat) (v be : Word), validCfg s.cfg = true → s.cfg.admits i = true →
    writeParts s.cfg s.blk i = some (r, v, be) → (standardReg s.cfg r = true ∨ Inv s) →
      ∃ s1 o1 s2 o2 s3 o3,
        InTurn (ApplyDone r) (fieldWrites s.cfg s.blk r v be) s s1 o1 ∧
        InTurn (EffectDone r) (fieldWrites s.cfg s.blk r v be) s1 s2 o2 ∧
        PostDone r ((s.cfg.regs[r]?).bind (·.postWrite)) s2 s3 o3 ∧
        Completes i s (Block.recomputed s.cfg s3.blk) .none (o1 ++ (o2 ++ o3))

/-- A WRITE that reaches only plain bindings: stored fields, pending flags, enable flags, receive enable and loopback take their
new values, and nothing else changes but by recompute (R82, R94). -/
def Obligations.PlainWriteChangesOnlyItsFields : Prop :=
  ∀ (i : Instr) (s : State) (r : Nat) (v be : Word), s.cfg.admits i = true →
    writeParts s.cfg s.blk i = some (r, v, be) → standardReg s.cfg r = true →
    (∀ w ∈ fieldWrites s.cfg s.blk r v be, plainBinding w.1.bind = true) →
      Completes i s (Block.recomputed s.cfg (Block.plainWritten s.blk r (fieldWrites s.cfg s.blk r v be))) .none []

/-- A WRITE never changes a reserved bit, nor a bit under a binding that is not `Stored`, whatever the form and the custom
functions (R84, 10_state.md R18, R19). -/
def Obligations.WriteKeepsReservedBits : Prop :=
  ∀ (i : Instr) (s : State), s.cfg.admits i = true → i.opcode = 0x01 →
    ∃ t, exec i s = .next t ∧ ∀ (r : Nat) (d : RegDesc) (j : Nat), s.cfg.regs[r]? = some d →
      (∀ f ∈ d.fields, f.bind = .stored → ¬ (f.off ≤ j ∧ j < f.off + f.wid)) →
        (t.blk.reg.getD r 0).getLsbD j = (s.blk.reg.getD r 0).getLsbD j

/-- A window write of `m` and then a READ of a register whose fields are all `Stored`, ReadWrite and without effect returns
`(c op m)` in the fields and the old value elsewhere (R91). -/
def Obligations.WindowWriteThenRead : Prop :=
  ∀ (s : State) (r : Nat) (d : RegDesc) (m : Word), Inv s → s.cfg.hasAlias = true → s.cfg.regs[r]? = some d →
    s.cfg.fitsReg r m = true →
    (∀ f ∈ d.fields, f.bind = .stored ∧ f.mode = .readWrite ∧ f.effect = none) → d.postRead = none → d.postWrite = none →
      let c := peekReg s.cfg s.blk r
      let F := fieldsMask d.fields
      (∃ t u, exec (.writeSet r m) s = .next t ∧ exec (.read r) t = .next u ∧
        u.result = .word (d.w / 8) (((c ||| m) &&& F) ||| (c &&& ~~~F))) ∧
      (∃ t u, exec (.writeClr r m) s = .next t ∧ exec (.read r) t = .next u ∧
        u.result = .word (d.w / 8) (((c &&& ~~~m) &&& F) ||| (c &&& ~~~F))) ∧
      (∃ t u, exec (.writeTgl r m) s = .next t ∧ exec (.read r) t = .next u ∧
        u.result = .word (d.w / 8) (((c ^^^ m) &&& F) ||| (c &&& ~~~F)))

/-- Writing 1 to the pending field of a WriteOneToClear or BOTH source clears it, writing 0 leaves it, on a register with plain
bindings, exact or narrow (41_interrupts.md R99). -/
def Obligations.WriteOneClearsPending : Prop :=
  ∀ (i : Instr) (s : State) (r : Nat) (v be : Word) (f : FieldDesc) (n : Nat), Inv s → s.cfg.admits i = true →
    writeParts s.cfg s.blk i = some (r, v, be) → standardReg s.cfg r = true →
    (∀ w ∈ fieldWrites s.cfg s.blk r v be, plainBinding w.1.bind = true) →
    f ∈ fieldsOf s.cfg r → f.bind = .irqPending n → (eff s.cfg n = .writeOneToClear ∨ eff s.cfg n = .both) →
    be.getLsbD f.off = true →
      ∃ t, exec i s = .next t ∧ t.blk.isPending n = (s.blk.isPending n && !v.getLsbD f.off)

/-- A window write to a register of plain bindings and the WriteOneToClear flags in it: SET clears every flag that is set, CLEAR and
TOGGLE clear those whose bit is 0 in `m` and keep the others (70_reset_and_hazards.md R163). -/
def Obligations.WindowWriteClearsFlags : Prop :=
  ∀ (s : State) (r : Nat) (m : Word) (f : FieldDesc) (n : Nat), Inv s → s.cfg.hasAlias = true → s.cfg.fitsReg r m = true →
    standardReg s.cfg r = true →
    (∀ g ∈ fieldsOf s.cfg r, writeBeh s.cfg g ≠ .none → plainBinding g.bind = true) →
    f ∈ fieldsOf s.cfg r → f.bind = .irqPending n → eff s.cfg n = .writeOneToClear →
      (∃ t, exec (.writeSet r m) s = .next t ∧ t.blk.isPending n = false) ∧
      (∃ t, exec (.writeClr r m) s = .next t ∧ t.blk.isPending n = (s.blk.isPending n && m.getLsbD f.off)) ∧
      (∃ t, exec (.writeTgl r m) s = .next t ∧ t.blk.isPending n = (s.blk.isPending n && m.getLsbD f.off))

/-- In a block whose registers have no custom functions, transmit enable, receive enable, loopback and the enable flags change
only by a WRITE that reaches a field bound to them, or by RESET (10_state.md R21, R26). -/
def Obligations.ControlBitsChangeOnlyByTheirFields : Prop :=
  ∀ (i : Instr) (s : State), validCfg s.cfg = true → standardCfg s.cfg = true → s.cfg.admits i = true →
    i.isTransaction = true → i ≠ .reset →
    ∃ t, exec i s = .next t ∧
      ∀ k : Binding,
        (∀ r v be, writeParts s.cfg s.blk i = some (r, v, be) → ∀ f ∈ fieldsOf s.cfg r, touched be f = true → f.bind ≠ k) →
        (k = .txEnable → t.blk.txEn = s.blk.txEn) ∧ (k = .rxEnable → t.blk.rxEn = s.blk.rxEn) ∧
        (k = .loopback → t.blk.loopOn = s.blk.loopOn) ∧
        (∀ n, k = .irqEnable n → t.blk.enabled[n]? = s.blk.enabled[n]?)

/-! ## Interrupt controller -/

/-- IRQ_SET writes one pending flag and nothing else; a set of an AutoClear source whose condition is false is undone by the next
recompute (R104). -/
def Obligations.IrqSetWritesOneFlag : Prop :=
  ∀ (s : State) (i : Nat) (b : Bool), i < s.cfg.sources.length →
    Completes (.irqSet i b) s { s.blk with pending := s.blk.pending.set i b } .none [] ∧
    (∀ (d : SourceDesc) (k : Cond), s.cfg.sources[i]? = some d → d.clear = .autoClear → d.cond = some k →
      s.blk.holds k = false → ∃ t u, exec (.irqSet i true) s = .next t ∧ exec .recompute t = .next u ∧
        u.blk.isPending i = false)

/-- IRQ_SET_ENABLED writes one enable flag and nothing else: pending flags stay, and the line of a pending source that is enabled is
high (R105). -/
def Obligations.IrqSetEnabledWritesOneFlag : Prop :=
  ∀ (s : State) (i : Nat) (b : Bool), i < s.cfg.sources.length →
    Completes (.irqSetEnabled i b) s { s.blk with enabled := s.blk.enabled.set i b } .none [] ∧
    (∀ (l : Nat) (d : LineDesc), Shaped s.cfg s.blk → s.cfg.lines[l]? = some d → i ∈ d.sources → s.blk.isPending i = true →
      ∃ t, exec (.irqSetEnabled i true) s = .next t ∧ lineLevel s.cfg t.blk l = true)

/-- IRQ_IS_PENDING returns the raw flag, whatever the enable flag is, and changes nothing (R106). -/
def Obligations.IrqIsPendingReturnsRawFlag : Prop :=
  ∀ (s : State) (i : Nat) (p : Bool), i < s.cfg.sources.length → s.blk.pending[i]? = some p →
    Completes (.irqIsPending i) s s.blk (.bit p) []

/-- IRQ_LEVEL is high exactly when some source of the line is pending and enabled, and changes nothing (R107). -/
def Obligations.IrqLevelIsOrOfEnabledPending : Prop :=
  ∀ (s : State) (l : Nat) (d : LineDesc), s.cfg.lines[l]? = some d →
    ∃ v : Bool, Completes (.irqLevel l) s s.blk (.bit v) [] ∧
      (v = true ↔ ∃ i ∈ d.sources, s.blk.pending[i]? = some true ∧ s.blk.enabled[i]? = some true)

/-- RECOMPUTE clears the pending flags of AutoClear sources whose condition is false, gives every signal the value of its expression,
and changes nothing else (R109, R101). The condition of a FIFO is its predicate (R108); a signal shows the OR over its line, the predicate
of its FIFO, its constant, or its custom function of the block without signals (43_peripheral.md R137; log 8). -/
def Obligations.RecomputeClearsAndLatches : Prop :=
  ∀ s : State, ∃ t, exec .recompute s = .next t ∧ t.cfg = s.cfg ∧ t.inbox = s.inbox ∧ t.trace = [] ∧
    (∀ (i : Nat) (d : SourceDesc), s.cfg.sources[i]? = some d →
      t.blk.isPending i =
        (s.blk.isPending i && !(decide (d.clear = .autoClear) && d.cond.any (fun k => !s.blk.holds k)))) ∧
    (∀ (i q : Nat) (d : SourceDesc) (p : FifoPred) (F : Fifo), s.cfg.sources[i]? = some d → d.clear = .autoClear →
      d.cond = some (.fifo q p) → s.blk.fifo[q]? = some F →
        (t.blk.isPending i = true ↔ s.blk.isPending i = true ∧ F.shows p)) ∧
    (∀ (g : Nat) (d : SignalDesc), s.cfg.signals[g]? = some d → t.blk.sig[g]? = some (evalSignal s.cfg t.blk d.expr)) ∧
    (∀ (g : Nat) (d : SignalDesc), s.cfg.signals[g]? = some d → ∃ v, t.blk.sig[g]? = some v ∧
      (∀ l L, d.expr = .line l → s.cfg.lines[l]? = some L →
        (v = true ↔ ∃ i ∈ L.sources, t.blk.pending[i]? = some true ∧ t.blk.enabled[i]? = some true)) ∧
      (∀ q p F, d.expr = .fifo q p → s.blk.fifo[q]? = some F → (v = true ↔ F.shows p)) ∧
      (∀ b, d.expr = .const b → v = b) ∧
      (∀ n, d.expr = .custom n → v = Config.customSignal n { t.blk with sig := [] })) ∧
    t.blk = { s.blk with pending := t.blk.pending, sig := t.blk.sig }

/-- A second RECOMPUTE changes nothing, and neither does one where the flags and signals are already as it leaves them (R110). -/
def Obligations.RecomputeIsIdempotent : Prop :=
  (∀ s : State, ∃ t u, exec .recompute s = .next t ∧ exec .recompute t = .next u ∧ u.blk = t.blk) ∧
  (∀ s : State, Settled s.cfg s.blk → Completes .recompute s s.blk .none [])

/-- After every entry point each signal of a line shows the line's level, and an AutoClear source is pending only while its condition
holds (R111). SIGNAL_SAMPLE runs no recompute and keeps what the entry point before it left. -/
def Obligations.OutputsCurrentAfterEntryPoint : Prop :=
  ∀ (i : Instr) (s : State), Inv s → s.cfg.admits i = true → i.isTransaction = true →
    ∃ t, exec i s = .next t ∧
      (∀ (g l : Nat) (d : SignalDesc), s.cfg.signals[g]? = some d → d.expr = .line l →
        t.blk.sig[g]? = some (lineLevel s.cfg t.blk l)) ∧
      (∀ (n : Nat) (d : SourceDesc) (k : Cond), s.cfg.sources[n]? = some d → d.clear = .autoClear → d.cond = some k →
        t.blk.isPending n = true → t.blk.holds k = true) ∧
      (∀ (n q : Nat) (d : SourceDesc) (p : FifoPred) (F : Fifo), s.cfg.sources[n]? = some d → d.clear = .autoClear →
        d.cond = some (.fifo q p) → t.blk.fifo[q]? = some F → t.blk.isPending n = true → F.shows p)

/-- In a block whose registers have no custom functions, a pending flag goes from 1 to 0 only by RESET, by recompute with its
condition false, by a WRITE of 1 to its field, or by a READ of its field, each only under the policy that allows it (R102). -/
def Obligations.PendingFallsOnlyByPolicy : Prop :=
  ∀ (i : Instr) (s t : State) (n : Nat), Inv s → standardCfg s.cfg = true → i.isTransaction = true → exec i s = .next t →
    s.blk.isPending n = true → t.blk.isPending n = false →
      i = .reset ∨
      (∃ d k, s.cfg.sources[n]? = some d ∧ d.clear = .autoClear ∧ d.cond = some k ∧ t.blk.holds k = false) ∨
      (∃ r v be f, writeParts s.cfg s.blk i = some (r, v, be) ∧ f ∈ fieldsOf s.cfg r ∧ f.bind = .irqPending n ∧
        (eff s.cfg n = .writeOneToClear ∨ eff s.cfg n = .both) ∧ be.getLsbD f.off = true ∧ v.getLsbD f.off = true) ∨
      (∃ r be f, readParts s.cfg i = some (r, be) ∧ f ∈ fieldsOf s.cfg r ∧ f.bind = .irqPending n ∧
        (eff s.cfg n = .clearOnRead ∨ eff s.cfg n = .both) ∧ be.getLsbD f.off = true)

/-! ## FIFOs -/

/-- FIFO_PUSH: a full FIFO keeps its items and raises Overflow; else the byte is last, Pushed is raised, and the change is notified
at most once. Nothing else changes but pending flags: each is as before, or set because its source's triggers list a raised event
(R116, R114, 41_interrupts.md R103). -/
def Obligations.FifoPushAppendsOrOverflows : Prop :=
  ∀ (s : State) (q : Nat) (x : Byte) (f : Fifo), q < s.cfg.fifos.length → s.blk.fifo[q]? = some f →
    Completes (.fifoPush q x) s (pushBlock s.cfg s.blk q f x)
      (if f.cap ≤ f.items.length then .pushOverflow else .pushOk) (pushEvents q f x) ∧
    (∃ t, exec (.fifoPush q x) s = .next t ∧ ∀ (i : Nat) (d : SourceDesc) (v : Bool), s.cfg.sources[i]? = some d →
      s.blk.pending[i]? = some v → t.blk.pending[i]? = some (v || d.triggers.any (fun e => decide (e ∈ pushRaises q f x))))

/-- FIFO_POP: an empty FIFO keeps its items, raises Underflow and gives the dummy; else the first byte leaves and is returned.
Nothing else changes but pending flags: each is as before, or set because its source's triggers list a raised event (R117, R114,
41_interrupts.md R103). -/
def Obligations.FifoPopTakesHeadOrUnderflows : Prop :=
  ∀ (s : State) (q : Nat) (f : Fifo), q < s.cfg.fifos.length → s.blk.fifo[q]? = some f →
    Completes (.fifoPop q) s (popBlock s.cfg s.blk q f)
      (if f.items = [] then .popUnderflow (popByte s.cfg q f) else .popOk (popByte s.cfg q f)) (popEvents q f) ∧
    (∃ t, exec (.fifoPop q) s = .next t ∧ ∀ (i : Nat) (d : SourceDesc) (v : Bool), s.cfg.sources[i]? = some d →
      s.blk.pending[i]? = some v → t.blk.pending[i]? = some (v || d.triggers.any (fun e => decide (e ∈ popRaises q f))))

/-- FIFO_FLUSH empties the FIFO and settles it, sends nothing, and a second one changes nothing and notifies nothing (R118). -/
def Obligations.FifoFlushEmpties : Prop :=
  ∀ (s : State) (q : Nat) (f : Fifo), q < s.cfg.fifos.length → s.blk.fifo[q]? = some f →
    let b := Block.afterFifo s.cfg s.blk q f ⟨[], f.cap, f.wm, .empty, false⟩ []
    Completes (.fifoFlush q) s b .none (fifoNotice q f ⟨[], f.cap, f.wm, .empty, false⟩) ∧
    (∀ t, exec (.fifoFlush q) s = .next t → Completes (.fifoFlush q) t b .none [])

/-- FIFO_SET_CAPACITY: nothing for the current capacity; refused while an enable is set or for a capacity not allowed; else the
capacity is set, the watermark lowered to it, and all items dropped when they do not fit (R119). -/
def Obligations.FifoSetCapacityCases : Prop :=
  ∀ (s : State) (q n : Nat) (f : Fifo) (d : FifoDesc), s.cfg.fifos[q]? = some d → s.blk.fifo[q]? = some f →
    (n = f.cap → Completes (.fifoSetCapacity q n) s s.blk .none []) ∧
    (n ≠ f.cap → (s.blk.txEn = true ∨ s.blk.rxEn = true) → Completes (.fifoSetCapacity q n) s s.blk .none []) ∧
    (n ≠ f.cap → (n < 1 ∨ (d.pow2 = true ∧ ∀ e, n ≠ 2 ^ e)) → Completes (.fifoSetCapacity q n) s s.blk .none []) ∧
    (n ≠ f.cap → s.blk.txEn = false → s.blk.rxEn = false → 1 ≤ n → (d.pow2 = true → ∃ e, n = 2 ^ e) →
      let x := settledFifo (if n < f.items.length then [] else f.items) n (min f.wm n)
      Completes (.fifoSetCapacity q n) s (Block.afterFifo s.cfg s.blk q f x []) .none (fifoNotice q f x))

/-- FIFO_SET_WATERMARK stores the watermark, cut to the capacity, and settles; from a state that meets R25 only the watermark level can
change with it (R120). -/
def Obligations.FifoSetWatermarkClamps : Prop :=
  ∀ (s : State) (q n : Nat) (f : Fifo), q < s.cfg.fifos.length → s.blk.fifo[q]? = some f → f.consistent = true →
    let x : Fifo := { f with wm := min n f.cap, wmx := decide (min n f.cap < f.items.length) }
    Completes (.fifoSetWatermark q n) s (Block.afterFifo s.cfg s.blk q f x []) .none (fifoNotice q f x)

/-- The testable properties of the FIFO: for every sequence of primitives R25 holds after each, with Empty exactly for no item, Full exactly
for as many items as the capacity, and Ready otherwise (R113), a push to a full FIFO and a pop of an
empty one leave it as it was and report so, two flushes are as one, and each primitive notifies at most once (R121). -/
def Obligations.FifoPropertiesHoldForEverySequence : Prop :=
  (∀ (l : List Instr) (s t : State), (∀ i ∈ l, isFifoPrimitive i = true) → FifosOk s.blk → runAll l s = some t →
    ∀ f ∈ t.blk.fifo, f.items.length ≤ f.cap ∧ f.wm ≤ f.cap ∧ f.st = fifoClass f.items.length f.cap ∧
      (f.st = .empty ↔ f.items = []) ∧ (f.st = .full ↔ f.cap ≤ f.items.length) ∧
      (f.st = .ready ↔ f.items ≠ [] ∧ f.items.length < f.cap) ∧
      f.wmx = decide (f.wm < f.items.length)) ∧
  (∀ (s : State) (q : Nat) (f : Fifo) (x : Byte), FifosOk s.blk → q < s.cfg.fifos.length → s.blk.fifo[q]? = some f →
    (f.st = .full → ∃ t, exec (.fifoPush q x) s = .next t ∧ t.blk.fifo[q]? = some f ∧ t.result = .pushOverflow) ∧
    (f.st = .empty → ∃ t b, exec (.fifoPop q) s = .next t ∧ t.blk.fifo[q]? = some f ∧ t.result = .popUnderflow b) ∧
    (∃ t u, exec (.fifoFlush q) s = .next t ∧ exec (.fifoFlush q) t = .next u ∧ u = { t with trace := [] })) ∧
  (∀ (i : Instr) (s t : State), isFifoPrimitive i = true → exec i s = .next t → (t.trace.filter isNotify).length ≤ 1)

/-! ## Receive, transmit, flush, timers, signals -/

/-- RX_BYTE pushes into the rx FIFO while receive is enabled and drops the byte otherwise (43_peripheral.md R124, R125). The FIFO of a role is
the first FIFO with that role. The push sets the flags of the sources whose triggers list a raised event (41_interrupts.md R103), which
recompute then leaves unless the source is AutoClear. -/
def Obligations.RxBytePushesOrDrops : Prop :=
  ∀ (s : State) (x : Byte),
    ((s.blk.rxEn = false ∨ fifoOf s.cfg .rx = none) → Completes (.rxByte x) s (Block.recomputed s.cfg s.blk) .none []) ∧
    (∀ (q : Nat) (f : Fifo), s.blk.rxEn = true → fifoOf s.cfg .rx = some q → s.blk.fifo[q]? = some f →
      Completes (.rxByte x) s (Block.recomputed s.cfg (pushBlock s.cfg s.blk q f x)) .none (pushEvents q f x) ∧
      ∃ t, exec (.rxByte x) s = .next t ∧ ∀ (i : Nat) (d : SourceDesc) (v : Bool), s.cfg.sources[i]? = some d →
        d.clear ≠ .autoClear → s.blk.pending[i]? = some v →
          t.blk.pending[i]? = some (v || d.triggers.any (fun e => decide (e ∈ pushRaises q f x)))) ∧
    (∀ (r : Role) (q : Nat), fifoOf s.cfg r = some q ↔
      ∃ d, s.cfg.fifos[q]? = some d ∧ d.role = r ∧ ∀ p e, p < q → s.cfg.fifos[p]? = some e → e.role ≠ r)

/-- TX_BYTE: enabled, the byte goes to the line, or in loopback to the receive path; disabled, it queues in the tx FIFO, or is lost
where there is none (R126, R127). -/
def Obligations.TxByteSendsLoopsOrQueues : Prop :=
  ∀ (s : State) (x : Byte),
    (s.blk.txEn = true → s.blk.loopOn = false → Completes (.txByte x) s s.blk .none [.transmit x]) ∧
    (s.blk.txEn = true → s.blk.loopOn = true → (s.blk.rxEn = false ∨ fifoOf s.cfg .rx = none) →
      Completes (.txByte x) s s.blk .none (if s.cfg.loopbackAlsoTransmits then [.transmit x] else [])) ∧
    (∀ (q : Nat) (f : Fifo), s.blk.txEn = true → s.blk.loopOn = true → s.blk.rxEn = true → fifoOf s.cfg .rx = some q →
      s.blk.fifo[q]? = some f →
        Completes (.txByte x) s (pushBlock s.cfg s.blk q f x) .none
          (pushEvents q f x ++ (if s.cfg.loopbackAlsoTransmits then [.transmit x] else []))) ∧
    (∀ (q : Nat) (f : Fifo), s.blk.txEn = false → fifoOf s.cfg .tx = some q → s.blk.fifo[q]? = some f →
      Completes (.txByte x) s (pushBlock s.cfg s.blk q f x) .none (pushEvents q f x)) ∧
    (s.blk.txEn = false → fifoOf s.cfg .tx = none → Completes (.txByte x) s s.blk .none [])

/-- TX_ENABLE: from 0 to 1 it drains the tx FIFO; otherwise it writes the bit and nothing else, so that queued bytes stay (R128). -/
def Obligations.TxEnableDrainsOnRise : Prop :=
  ∀ (s : State) (b : Bool),
    (s.blk.txEn = false → b = true →
      ∃ t, exec (.txEnable b) s = .next t ∧ exec .txDrain { s with blk := { s.blk with txEn := true } } = .next t) ∧
    (¬ (s.blk.txEn = false ∧ b = true) → Completes (.txEnable b) s { s.blk with txEn := b } .none [])

/-- TX_DRAIN without loopback sends every queued byte in order and empties the tx FIFO; other FIFOs, registers, enables, control bits and
timers stay, and no pending flag falls. Each pop settles on its own: its notification stands before the byte's Transmit, its events set the
flags of exactly the sources whose triggers list one (41_interrupts.md R103), and a tx FIFO that held something ends empty with its
capacity and watermark. With an empty tx FIFO or none, nothing changes (R129, 42_fifo.md R114). -/
def Obligations.TxDrainSendsInOrder : Prop :=
  ∀ s : State, s.blk.loopOn = false →
    (∃ t, exec .txDrain s = .next t ∧
      sentBytes t.trace = txItems s.cfg s.blk ∧ txItems s.cfg t.blk = [] ∧
      (∀ q, fifoOf s.cfg .tx ≠ some q → t.blk.fifo[q]? = s.blk.fifo[q]?) ∧
      (∀ n, s.blk.isPending n = true → t.blk.isPending n = true) ∧
      t.cfg = s.cfg ∧ t.inbox = s.inbox ∧ t.blk = { s.blk with fifo := t.blk.fifo, pending := t.blk.pending }) ∧
    (txItems s.cfg s.blk = [] → Completes .txDrain s s.blk .none []) ∧
    (∀ (q : Nat) (f : Fifo), fifoOf s.cfg .tx = some q → s.blk.fifo[q]? = some f →
      Completes .txDrain s
        { s.blk with
          fifo := s.blk.fifo.set q (drainedFifo f)
          pending := triggered s.cfg (drainRaises q f none f.items) s.blk.pending }
        .none (drainOutputs q true f none f.items) ∧
      ∃ t, exec .txDrain s = .next t ∧ ∀ (i : Nat) (d : SourceDesc) (v : Bool), s.cfg.sources[i]? = some d →
        s.blk.pending[i]? = some v →
          t.blk.pending[i]? = some (v || d.triggers.any (fun e => decide (e ∈ drainRaises q f none f.items))))

/-- TX_DRAIN with loopback: the bytes go to the receive path in order, so that the rx FIFO gets those that fit and overflows at each of
the others; they reach the line only if the configuration says so. Without an rx FIFO, or with receive disabled, every byte is lost to the
receive path. The tx FIFO ends empty, each pop and each push settles on its own, and nothing else changes but the pending flags of
the sources whose triggers list one of their events (R126, R129, R170, 41_interrupts.md R103). -/
def Obligations.TxDrainLoopsIntoReceive : Prop :=
  ∀ s : State, s.blk.loopOn = true →
    (∀ (q : Nat) (f : Fifo), fifoOf s.cfg .rx = some q → s.blk.fifo[q]? = some f → f.items.length ≤ f.cap →
      ∃ t g, exec .txDrain s = .next t ∧ t.blk.fifo[q]? = some g ∧
        g.items = (if s.blk.rxEn then (f.items ++ txItems s.cfg s.blk).take f.cap else f.items) ∧ g.cap = f.cap ∧ g.wm = f.wm ∧
        txItems s.cfg t.blk = [] ∧
        sentBytes t.trace = (if s.cfg.loopbackAlsoTransmits then txItems s.cfg s.blk else [])) ∧
    (txItems s.cfg s.blk = [] → Completes .txDrain s s.blk .none []) ∧
    (∀ (q : Nat) (f : Fifo), fifoOf s.cfg .tx = some q → s.blk.fifo[q]? = some f →
      ((s.blk.rxEn = false ∨ fifoOf s.cfg .rx = none) →
        Completes .txDrain s
          { s.blk with
            fifo := s.blk.fifo.set q (drainedFifo f)
            pending := triggered s.cfg (drainRaises q f none f.items) s.blk.pending }
          .none (drainOutputs q s.cfg.loopbackAlsoTransmits f none f.items) ∧
        ∃ t, exec .txDrain s = .next t ∧ ∀ (i : Nat) (d : SourceDesc) (v : Bool), s.cfg.sources[i]? = some d →
          s.blk.pending[i]? = some v →
            t.blk.pending[i]? = some (v || d.triggers.any (fun e => decide (e ∈ drainRaises q f none f.items)))) ∧
      (∀ (r : Nat) (g : Fifo), s.blk.rxEn = true → fifoOf s.cfg .rx = some r → s.blk.fifo[r]? = some g →
        Completes .txDrain s
          { s.blk with
            fifo := (s.blk.fifo.set q (drainedFifo f)).set r (f.items.foldl pushedFifo g)
            pending := triggered s.cfg (drainRaises q f (some (r, g)) f.items) s.blk.pending }
          .none (drainOutputs q s.cfg.loopbackAlsoTransmits f (some (r, g)) f.items) ∧
        ∃ t, exec .txDrain s = .next t ∧ ∀ (i : Nat) (d : SourceDesc) (v : Bool), s.cfg.sources[i]? = some d →
          s.blk.pending[i]? = some v →
            t.blk.pending[i]? = some (v || d.triggers.any (fun e => decide (e ∈ drainRaises q f (some (r, g)) f.items)))))

/-- FLUSH empties the FIFO its index names and sends nothing; with no such FIFO it changes nothing (R131, 30_encoding.md R62). The settle's
events set the flags of the sources whose triggers list one (41_interrupts.md R103), which recompute then leaves unless the source is
AutoClear. -/
def Obligations.FlushEmptiesNamedFifo : Prop :=
  ∀ (s : State) (q : BitVec 64),
    (∀ f, q.toNat < s.cfg.fifos.length → s.blk.fifo[q.toNat]? = some f →
      let x := settledFifo [] f.cap f.wm
      Completes (.flush q) s (Block.recomputed s.cfg (Block.afterFifo s.cfg s.blk q.toNat f x [])) .none
        (fifoNotice q.toNat f x) ∧
      ∃ t, exec (.flush q) s = .next t ∧ ∀ (i : Nat) (d : SourceDesc) (v : Bool), s.cfg.sources[i]? = some d →
        d.clear ≠ .autoClear → s.blk.pending[i]? = some v →
          t.blk.pending[i]? = some (v || d.triggers.any (fun e => decide (e ∈ noticeEvents q.toNat f.st x.st f.wmx x.wmx)))) ∧
    (s.cfg.fifos.length ≤ q.toNat → Completes (.flush q) s (Block.recomputed s.cfg s.blk) .none [])

/-- TIMER_ARM voids an armed firing, advances the token, arms the timer and asks for the firing with the new token (R133). -/
def Obligations.TimerArmSchedulesNewToken : Prop :=
  ∀ (s : State) (t : Nat) (x : Timer), t < s.cfg.timers.length → s.blk.timer[t]? = some x →
    Completes (.timerArm t) s { s.blk with timer := s.blk.timer.set t ⟨.armed, x.token + 1⟩ } .none
      ((if x.phase = .armed then [.timerCancel t x.token] else []) ++ [.timerSchedule t (x.token + 1)])

/-- TIMER_CANCEL voids an armed firing, advances the token and leaves the timer idle; pending flags stay (R134). -/
def Obligations.TimerCancelAdvancesToken : Prop :=
  ∀ (s : State) (t : Nat) (x : Timer), t < s.cfg.timers.length → s.blk.timer[t]? = some x →
    Completes (.timerCancel t) s { s.blk with timer := s.blk.timer.set t ⟨.idle, x.token + 1⟩ } .none
      (if x.phase = .armed then [.timerCancel t x.token] else [])

/-- TIMER_FIRE with the token of an armed timer fires it and raises its event, which sets the flags of exactly the sources whose triggers list
it, unless recompute clears an AutoClear one; any other firing, and one of no timer, changes nothing (R135, R132, 41_interrupts.md
R103). -/
def Obligations.TimerFireOnlyWithLiveToken : Prop :=
  ∀ (s : State) (t : BitVec 64) (tok : Token),
    (s.blk.timer[t.toNat]? = some ⟨.armed, tok⟩ → t.toNat < s.cfg.timers.length →
      Completes (.timerFire t tok) s
        (Block.recomputed s.cfg { s.blk with
          timer := s.blk.timer.set t.toNat ⟨.fired, tok⟩
          pending := triggered s.cfg [.timerFired t.toNat] s.blk.pending }) .none [] ∧
      ∃ u, exec (.timerFire t tok) s = .next u ∧ ∀ (i : Nat) (d : SourceDesc) (v : Bool), s.cfg.sources[i]? = some d →
        d.clear ≠ .autoClear → s.blk.pending[i]? = some v →
          u.blk.pending[i]? = some (v || decide (.timerFired t.toNat ∈ d.triggers))) ∧
    ((s.blk.timer[t.toNat]? ≠ some ⟨.armed, tok⟩ ∨ s.cfg.timers.length ≤ t.toNat) →
      Completes (.timerFire t tok) s (Block.recomputed s.cfg s.blk) .none [])

/-- A firing that reaches the block after the timer was armed again, cancelled or reset is ignored; only that of the latest arming counts,
and cancelling clears no pending flag (R173). -/
def Obligations.StaleFiringIsIgnored : Prop :=
  ∀ (s : State) (t : BitVec 64) (x : Timer), t.toNat < s.cfg.timers.length → s.blk.timer[t.toNat]? = some x →
    (∃ u, exec (.timerArm t.toNat) s = .next u ∧
      (∀ tok, tok ≠ x.token + 1 → Completes (.timerFire t tok) u (Block.recomputed s.cfg u.blk) .none []) ∧
      (∃ v, exec (.timerFire t (x.token + 1)) u = .next v ∧ v.blk.timer[t.toNat]? = some ⟨.fired, x.token + 1⟩)) ∧
    (∃ u, exec (.timerCancel t.toNat) s = .next u ∧ u.blk.pending = s.blk.pending ∧
      ∀ tok, Completes (.timerFire t tok) u (Block.recomputed s.cfg u.blk) .none []) ∧
    (∃ u, exec .reset s = .next u ∧ ∀ tok, Completes (.timerFire t tok) u (Block.recomputed s.cfg u.blk) .none [])

/-- SIGNAL_SAMPLE returns the latched level, 0 for no signal, changes nothing and emits nothing; between entry points the level is the
value of the signal's expression: the OR over its line's pending and enabled sources, the predicate of its FIFO, its constant, or its custom
function of the block without signals (R138, R137, 41_interrupts.md R107, R108; log 8). -/
def Obligations.SignalSampleReturnsLatchedLevel : Prop :=
  ∀ (s : State) (g : BitVec 64),
    (∀ v, g.toNat < s.cfg.signals.length → s.blk.sig[g.toNat]? = some v →
      exec (.signalSample g) s = .next { s with trace := [], result := .bit v }) ∧
    (s.cfg.signals.length ≤ g.toNat → exec (.signalSample g) s = .next { s with trace := [], result := .bit false }) ∧
    (∀ d, Inv s → s.cfg.signals[g.toNat]? = some d → s.blk.sig[g.toNat]? = some (evalSignal s.cfg s.blk d.expr)) ∧
    (∀ d, Inv s → s.cfg.signals[g.toNat]? = some d →
      ∃ v, exec (.signalSample g) s = .next { s with trace := [], result := .bit v } ∧
        (∀ l L, d.expr = .line l → s.cfg.lines[l]? = some L →
          (v = true ↔ ∃ i ∈ L.sources, s.blk.pending[i]? = some true ∧ s.blk.enabled[i]? = some true)) ∧
        (∀ q p F, d.expr = .fifo q p → s.blk.fifo[q]? = some F → (v = true ↔ F.shows p)) ∧
        (∀ b, d.expr = .const b → v = b) ∧
        (∀ n, d.expr = .custom n → v = Config.customSignal n { s.blk with sig := [] }))
end

