-- ==== Sys2Proof/Laws/Bits.lean ====
section
/-! SUPPORT. Bit-field facts: each operation of Machine/Bits.lean, bit by bit. -/

namespace Sys2Proof

@[simp] theorem ones_getLsbD (wid j : Nat) (h : wid ≤ 32) : (ones wid).getLsbD j = decide (j < wid) := by
  unfold ones
  simp only [BitVec.getLsbD_ofNat, Nat.testBit_two_pow_sub_one]
  by_cases hj : j < 32
  · simp [hj]
  · simp [hj]; omega

theorem trunc_getLsbD (wid j : Nat) (v : Word) (h : wid ≤ 32) :
    (trunc wid v).getLsbD j = (v.getLsbD j && decide (j < wid)) := by
  simp [trunc, h]

theorem slice_getLsbD (v : Word) (off wid j : Nat) (h : wid ≤ 32) :
    (slice v off wid).getLsbD j = (v.getLsbD (off + j) && decide (j < wid)) := by
  simp [slice, trunc_getLsbD, h]

/-- `trunc` bit by bit, whatever the width. -/
theorem trunc_getLsbD_any (wid j : Nat) (v : Word) : (trunc wid v).getLsbD j = (v.getLsbD j && decide (j < wid)) := by
  by_cases h : wid ≤ 32
  · exact trunc_getLsbD wid j v h
  · by_cases hj : j < 32
    · unfold trunc ones
      rw [BitVec.getLsbD_and, BitVec.getLsbD_ofNat, Nat.testBit_two_pow_sub_one]; simp [hj]
    · rw [BitVec.getLsbD_of_ge _ j (by omega), BitVec.getLsbD_of_ge v j (by omega)]; rfl

/-- `slice` bit by bit, whatever the width. -/
theorem slice_getLsbD_any (v : Word) (off wid j : Nat) :
    (slice v off wid).getLsbD j = (v.getLsbD (off + j) && decide (j < wid)) := by
  unfold slice; rw [trunc_getLsbD_any]; simp

theorem mask_getLsbD (off wid j : Nat) (h : wid ≤ 32) :
    (mask off wid).getLsbD j = (decide (j < 32) && decide (off ≤ j) && decide (j < off + wid)) := by
  unfold mask
  rw [BitVec.getLsbD_shiftLeft, ones_getLsbD _ _ h]
  rw [Bool.eq_iff_iff]
  simp only [Bool.and_eq_true, Bool.not_eq_true', decide_eq_true_eq, decide_eq_false_iff_not]
  omega

/-- A bit of a word after a field was replaced: the field's new bit inside it, the old bit outside (30_encoding.md R66). -/
theorem insertField_getLsbD (v x : Word) (off wid j : Nat) (h : wid ≤ 32) :
    (insertField v off wid x).getLsbD j =
      if off ≤ j ∧ j < off + wid then decide (j < 32) && x.getLsbD (j - off) else v.getLsbD j := by
  unfold insertField
  simp only [BitVec.getLsbD_or, BitVec.getLsbD_and, BitVec.getLsbD_not, mask_getLsbD _ _ _ h, BitVec.getLsbD_shiftLeft,
    trunc_getLsbD _ _ _ h]
  by_cases h1 : j < 32
  · by_cases h2 : off ≤ j
    · by_cases h3 : j < off + wid
      · have h5 : j - off < wid := by omega
        simp [h1, h2, h3, h5]
      · have h5 : ¬ j - off < wid := by omega
        simp [h1, h2, h3, h5]
    · have h4 : j < off := by omega
      simp [h1, h2, h4]
  · have h6 : v.getLsbD j = false := BitVec.getLsbD_of_ge _ _ (by omega)
    simp [h1, h6]

/-- Replacing a field changes no bit outside a mask that covers the field. -/
theorem insertField_outside (v x m : Word) (off wid : Nat) (h : mask off wid &&& ~~~m = 0) :
    insertField v off wid x &&& ~~~m = v &&& ~~~m := by
  have h2 : (trunc wid x <<< off) &&& ~~~m = 0 := by
    have : trunc wid x <<< off = (x <<< off) &&& mask off wid := by
      simp [trunc, mask, BitVec.shiftLeft_and_distrib]
    rw [this, BitVec.and_assoc, h]; simp
  have h3 : ∀ j, j < 32 → (mask off wid).getLsbD j = true → m.getLsbD j = true := by
    intro j hj hm
    have := congrArg (fun w => BitVec.getLsbD w j) h
    simpa [hj, hm] using this
  apply BitVec.eq_of_getLsbD_eq
  intro j hj
  have h4 := congrArg (fun w => BitVec.getLsbD w j) h2
  have h5 := h3 j hj
  unfold insertField
  simp only [BitVec.getLsbD_or, BitVec.getLsbD_and, BitVec.getLsbD_not, hj, decide_true, Bool.true_and] at h4 ⊢
  revert h4 h5
  generalize BitVec.getLsbD (trunc wid x <<< off) j = a
  generalize BitVec.getLsbD v j = b
  generalize BitVec.getLsbD m j = e
  generalize BitVec.getLsbD (mask off wid) j = d
  cases a <;> cases b <;> cases e <;> cases d <;> simp

/-- A word rebuilt from its bits outside a mask and new bits inside it. -/
theorem merge_outside (v x m : Word) : ((v &&& ~~~m) ||| (x &&& m)) &&& ~~~m = v &&& ~~~m := by
  apply BitVec.eq_of_getLsbD_eq
  intro j hj
  simp only [BitVec.getLsbD_or, BitVec.getLsbD_and, BitVec.getLsbD_not, hj, decide_true, Bool.true_and]
  generalize BitVec.getLsbD m j = e
  generalize BitVec.getLsbD v j = b
  generalize BitVec.getLsbD x j = a
  cases e <;> cases a <;> cases b <;> rfl

theorem bit0_ofBit (b : Bool) : bit0 (ofBit b) = b := by cases b <;> rfl

end Sys2Proof
end

