-- ==== Sys2Proof/Laws/Encoding.lean ====
section
/-! SUPPORT. The descriptor's fields, the ranges of the window, and what they decode to. -/

namespace Sys2Proof

open Machine

/-! ## Fields of a descriptor -/

@[simp] theorem Desc.op_pack (o z : BitVec 8) (a x : BitVec 64) : (Desc.pack o z a x).op = o := by
  apply BitVec.eq_of_getLsbD_eq; intro j hj
  simp only [Desc.op, Desc.pack, BitVec.getLsbD_extractLsb', BitVec.getLsbD_append, hj, decide_true, Bool.true_and]
  rw [if_neg (by omega), if_neg (by omega), if_neg (by omega)]; exact congrArg _ (by omega)

@[simp] theorem Desc.size_pack (o z : BitVec 8) (a x : BitVec 64) : (Desc.pack o z a x).size = z := by
  apply BitVec.eq_of_getLsbD_eq; intro j hj
  simp only [Desc.size, Desc.pack, BitVec.getLsbD_extractLsb', BitVec.getLsbD_append, hj, decide_true, Bool.true_and]
  rw [if_neg (by omega), if_neg (by omega), if_pos (by omega)]; exact congrArg _ (by omega)

@[simp] theorem Desc.addr_pack (o z : BitVec 8) (a x : BitVec 64) : (Desc.pack o z a x).addr = a := by
  apply BitVec.eq_of_getLsbD_eq; intro j hj
  simp only [Desc.addr, Desc.pack, BitVec.getLsbD_extractLsb', BitVec.getLsbD_append, hj, decide_true, Bool.true_and]
  rw [if_neg (by omega), if_pos (by omega)]; exact congrArg _ (by omega)

@[simp] theorem Desc.data_pack (o z : BitVec 8) (a x : BitVec 64) : (Desc.pack o z a x).data = x := by
  apply BitVec.eq_of_getLsbD_eq; intro j hj
  simp only [Desc.data, Desc.pack, BitVec.getLsbD_extractLsb', BitVec.getLsbD_append, hj, decide_true, Bool.true_and]
  rw [if_pos (by omega)]; exact congrArg _ (by omega)

theorem decode_pack (c : Cfg) (o z : BitVec 8) (a x : BitVec 64) :
    decode c (Desc.pack o z a x) =
      match c.decodeRow o z a x with
      | none => .error (.notAnOperation o)
      | some i => if c.admits i then .ok i else .error (.noSuchOperand o) := by
  cases h : c.decodeRow o z a x <;>
    (unfold decode; rw [Desc.op_pack, Desc.size_pack, Desc.addr_pack, Desc.data_pack, h])

/-! ## Ranges -/

theorem mem_spans {c : Cfg} {sp : Span} :
    sp ∈ c.spans ↔ ∃ d, c.regs[sp.reg]? = some d ∧ sp = c.span d sp.reg sp.win ∧
      (sp.win = none ∨ sp.win ∈ c.windows) := by
  unfold Cfg.spans
  simp only [List.mem_append, List.mem_flatMap, List.mem_map, List.mem_zipIdx_iff_getElem?, Prod.exists]
  constructor
  · rintro (⟨d, i, hd, w, hw, rfl⟩ | ⟨d, i, hd, rfl⟩)
    · exact ⟨d, hd, rfl, .inr hw⟩
    · exact ⟨d, hd, rfl, .inl rfl⟩
  · rintro ⟨d, hd, he, hw | hw⟩
    · exact .inr ⟨d, sp.reg, hd, by rw [he]; simp [Cfg.span, hw]⟩
    · exact .inl ⟨d, sp.reg, hd, sp.win, hw, he.symm⟩

/-- What the checks of construction say, one by one. -/
structure Checked (c : Cfg) : Prop where
  widths : checkWidths c = true
  fields : checkFields c = true
  alignment : checkAlignment c = true
  ranges : checkRanges c = true
  bindings : checkBindings c = true
  sources : checkSources c = true
  fifos : checkFifos c = true
  signals : checkSignals c = true

theorem checked_of_valid {c : Cfg} (h : validCfg c = true) : Checked c := by
  simp only [validCfg, configChecks, List.all_cons, List.all_nil, Bool.and_eq_true, Bool.and_true] at h
  obtain ⟨h1, h2, h3, h4, h5, h6, h7, h8⟩ := h
  exact ⟨h1, h2, h3, h4, h5, h6, h7, h8⟩

theorem regWidth_of_valid {c : Cfg} (h : validCfg c = true) {d : RegDesc} (hd : d ∈ c.regs) :
    (d.w = 8 ∨ d.w = 16 ∨ d.w = 32) ∧ trunc d.w d.resetValue = d.resetValue := by
  have := (checked_of_valid h).widths
  simp only [checkWidths, List.all_eq_true, Bool.and_eq_true, Bool.or_eq_true, beq_iff_eq, decide_eq_true_eq] at this
  obtain ⟨h1, h2⟩ := this d hd
  exact ⟨by tauto, h2⟩

/-- A range of a valid configuration: its length is 1, 2 or 4, it is aligned to it, and it does not wrap. -/
theorem span_of_valid {c : Cfg} (h : validCfg c = true) {sp : Span} (hs : sp ∈ c.spans) :
    (sp.len = 1 ∨ sp.len = 2 ∨ sp.len = 4) ∧ sp.base % sp.len = 0 ∧ sp.base + sp.len ≤ 2 ^ 64 := by
  obtain ⟨d, hd, he, -⟩ := mem_spans.1 hs
  have hm := List.mem_of_getElem? hd
  have hw := (regWidth_of_valid h hm).1
  have hl : sp.len = d.w / 8 := by rw [he]; rfl
  have hb : sp.base = d.addr.toNat + c.offset sp.win := by rw [he]; rfl
  have ha := (checked_of_valid h).alignment
  simp only [checkAlignment, List.all_eq_true, Bool.and_eq_true, beq_iff_eq] at ha
  obtain ⟨⟨⟨h1, h2⟩, h3⟩, h4⟩ := ha
  have h1 := h1 d hm
  have ho : c.offset sp.win % 4 = 0 := by
    unfold Cfg.offset
    split
    · rfl
    all_goals assumption
  have hr := (checked_of_valid h).ranges
  simp only [checkRanges, Bool.and_eq_true, List.all_eq_true, decide_eq_true_eq] at hr
  refine ⟨by rcases hw with h | h | h <;> simp [hl, h], ?_, hr.1.1 sp hs⟩
  rw [hb, hl]
  rcases hw with h | h | h <;> rw [h] at h1 ⊢ <;> simp at h1 ⊢ <;> omega

theorem disjoint_of_pairwise {α : Type} {R : α → α → Prop} (hsym : ∀ x y, R x y → R y x) {l : List α}
    (h : l.Pairwise R) {x y : α} (hx : x ∈ l) (hy : y ∈ l) : x = y ∨ R x y := by
  induction h with
  | nil => cases hx
  | cons h1 _ ih =>
    rcases List.mem_cons.1 hx with hx | hx <;> rcases List.mem_cons.1 hy with hy | hy
    · exact .inl (hx.trans hy.symm)
    · exact .inr (hx ▸ h1 y hy)
    · exact .inr (hsym _ _ (hy ▸ h1 x hx))
    · exact ih hx hy

/-- Two ranges that cover one address are one range (20_memory.md R43). -/
theorem span_unique {c : Cfg} (h : validCfg c = true) {x y : Span} {a : Nat} (hx : x ∈ c.spans) (hy : y ∈ c.spans)
    (kx : x.covers a = true) (ky : y.covers a = true) : x = y := by
  have hr := (checked_of_valid h).ranges
  simp only [checkRanges, Bool.and_eq_true, List.all_eq_true, decide_eq_true_eq] at hr
  have := disjoint_of_pairwise (R := fun x y => disjointSpans x y = true)
    (fun x y k => by simp only [disjointSpans, Bool.or_eq_true, decide_eq_true_eq] at k ⊢; tauto) hr.1.2 hx hy
  rcases this with h | h
  · exact h
  · simp only [Span.covers, Bool.and_eq_true, decide_eq_true_eq] at kx ky
    simp only [disjointSpans, Bool.or_eq_true, decide_eq_true_eq] at h
    omega

/-- The class of an address inside a range is given by that range. -/
theorem classify_of_covers {c : Cfg} (h : validCfg c = true) {sp : Span} (hs : sp ∈ c.spans) (a : Addr) (n : Nat)
    (k : sp.covers a.toNat = true) : c.classify a n = c.accessForm sp.win sp.reg sp.len (a.toNat - sp.base) n := by
  unfold Cfg.classify
  rcases hf : c.spans.find? (·.covers a.toNat) with _ | sp'
  · rw [List.find?_eq_none] at hf
    exact absurd k (by simpa using hf sp hs)
  · have : sp' = sp := span_unique h (List.mem_of_find?_eq_some hf) hs (by simpa using List.find?_some hf) k
    subst this; simp only [hf]

theorem regBytes_of_valid {c : Cfg} (h : validCfg c = true) {r : Nat} {d : RegDesc} (hd : c.regs[r]? = some d) :
    c.regBytes r = d.w / 8 ∧ (c.regBytes r = 1 ∨ c.regBytes r = 2 ∨ c.regBytes r = 4) := by
  have hw := (regWidth_of_valid h (List.mem_of_getElem? hd)).1
  simp only [Cfg.regBytes, hd, true_and]
  rcases hw with h | h | h <;> simp [h]

/-- The range of a register in a window it has, at one of its lanes. -/
theorem classify_busAddr {c : Cfg} (h : validCfg c = true) {r : Nat} {d : RegDesc} (hd : c.regs[r]? = some d)
    {win : Option Window} (hw : win = none ∨ win ∈ c.windows) {k : Nat} (hk : k < c.regBytes r) (n : Nat) :
    c.classify (c.busAddr win r k) n = c.accessForm win r (c.regBytes r) k n := by
  have hs : c.span d r win ∈ c.spans := mem_spans.2 ⟨d, hd, rfl, hw⟩
  have h3 := (span_of_valid h hs).2.2
  have hb := (regBytes_of_valid h hd).1
  have hl : (c.span d r win).len = c.regBytes r := hb.symm
  have hbase : (c.span d r win).base = d.addr.toNat + c.offset win := rfl
  have hn : (c.busAddr win r k).toNat = d.addr.toNat + c.offset win + k := by
    simp only [Cfg.busAddr, hd, BitVec.toNat_ofNat]
    exact Nat.mod_eq_of_lt (by rw [hl, hbase] at h3; omega)
  rw [classify_of_covers h hs _ n (by
    simp only [Span.covers, Bool.and_eq_true, decide_eq_true_eq, hn, hl, hbase]; omega)]
  rw [hn, hbase, hl]
  show c.accessForm win r _ _ n = _
  congr 1; omega

theorem accessForm_exact (c : Cfg) (win : Option Window) (r n : Nat) (hn : busSize n = true) :
    c.accessForm win r n 0 n = .exact win r := by
  simp [Cfg.accessForm, hn]

theorem accessForm_narrow (c : Cfg) (win : Option Window) (r len k n : Nat) (hn : busSize n = true) (hl : n < len)
    (hk : k % n = 0) (ht : c.translation = .widen) : c.accessForm win r len k n = .narrow win r k := by
  have : n ≠ len := by omega
  simp [Cfg.accessForm, hn, hl, hk, ht, this]

/-- A register that `admits` accepts exists. -/
theorem reg_of_busSize {c : Cfg} {r : Nat} (h : busSize (c.regBytes r) = true) : ∃ d, c.regs[r]? = some d := by
  rcases hd : c.regs[r]? with _ | d
  · simp [Cfg.regBytes, hd, busSize] at h
  · exact ⟨d, rfl⟩

theorem reg_of_lt {c : Cfg} {r n : Nat} (h : n < c.regBytes r) : ∃ d, c.regs[r]? = some d := by
  rcases hd : c.regs[r]? with _ | d
  · simp [Cfg.regBytes, hd] at h
  · exact ⟨d, rfl⟩

end Sys2Proof
end

