-- ==== Sys2Proof/Laws/State.lean ====
section
/-! SUPPORT. The updates of the state, field by field: what each update changes and that it changes nothing else. -/

namespace Sys2Proof.Machine

variable (s : State)

/-! `setReg` -/
@[simp] theorem State.setReg_cfg (r : Nat) (v : Word) : (s.setReg r v).cfg = s.cfg := rfl
@[simp] theorem State.setReg_inbox (r : Nat) (v : Word) : (s.setReg r v).inbox = s.inbox := rfl
@[simp] theorem State.setReg_trace (r : Nat) (v : Word) : (s.setReg r v).trace = s.trace := rfl
@[simp] theorem State.setReg_result (r : Nat) (v : Word) : (s.setReg r v).result = s.result := rfl
@[simp] theorem State.setReg_reg (r : Nat) (v : Word) : (s.setReg r v).blk.reg = s.blk.reg.set r v := rfl
@[simp] theorem State.setReg_pending (r : Nat) (v : Word) : (s.setReg r v).blk.pending = s.blk.pending := rfl
@[simp] theorem State.setReg_enabled (r : Nat) (v : Word) : (s.setReg r v).blk.enabled = s.blk.enabled := rfl
@[simp] theorem State.setReg_fifo (r : Nat) (v : Word) : (s.setReg r v).blk.fifo = s.blk.fifo := rfl
@[simp] theorem State.setReg_txEn (r : Nat) (v : Word) : (s.setReg r v).blk.txEn = s.blk.txEn := rfl
@[simp] theorem State.setReg_rxEn (r : Nat) (v : Word) : (s.setReg r v).blk.rxEn = s.blk.rxEn := rfl
@[simp] theorem State.setReg_loopOn (r : Nat) (v : Word) : (s.setReg r v).blk.loopOn = s.blk.loopOn := rfl
@[simp] theorem State.setReg_timer (r : Nat) (v : Word) : (s.setReg r v).blk.timer = s.blk.timer := rfl
@[simp] theorem State.setReg_sig (r : Nat) (v : Word) : (s.setReg r v).blk.sig = s.blk.sig := rfl

/-! `setPendings` -/
@[simp] theorem State.setPendings_cfg (p : List Bool) : (s.setPendings p).cfg = s.cfg := rfl
@[simp] theorem State.setPendings_inbox (p : List Bool) : (s.setPendings p).inbox = s.inbox := rfl
@[simp] theorem State.setPendings_trace (p : List Bool) : (s.setPendings p).trace = s.trace := rfl
@[simp] theorem State.setPendings_result (p : List Bool) : (s.setPendings p).result = s.result := rfl
@[simp] theorem State.setPendings_reg (p : List Bool) : (s.setPendings p).blk.reg = s.blk.reg := rfl
@[simp] theorem State.setPendings_pending (p : List Bool) : (s.setPendings p).blk.pending = p := rfl
@[simp] theorem State.setPendings_enabled (p : List Bool) : (s.setPendings p).blk.enabled = s.blk.enabled := rfl
@[simp] theorem State.setPendings_fifo (p : List Bool) : (s.setPendings p).blk.fifo = s.blk.fifo := rfl
@[simp] theorem State.setPendings_txEn (p : List Bool) : (s.setPendings p).blk.txEn = s.blk.txEn := rfl
@[simp] theorem State.setPendings_rxEn (p : List Bool) : (s.setPendings p).blk.rxEn = s.blk.rxEn := rfl
@[simp] theorem State.setPendings_loopOn (p : List Bool) : (s.setPendings p).blk.loopOn = s.blk.loopOn := rfl
@[simp] theorem State.setPendings_timer (p : List Bool) : (s.setPendings p).blk.timer = s.blk.timer := rfl
@[simp] theorem State.setPendings_sig (p : List Bool) : (s.setPendings p).blk.sig = s.blk.sig := rfl

/-! `setEnableds` -/
@[simp] theorem State.setEnableds_cfg (p : List Bool) : (s.setEnableds p).cfg = s.cfg := rfl
@[simp] theorem State.setEnableds_inbox (p : List Bool) : (s.setEnableds p).inbox = s.inbox := rfl
@[simp] theorem State.setEnableds_trace (p : List Bool) : (s.setEnableds p).trace = s.trace := rfl
@[simp] theorem State.setEnableds_result (p : List Bool) : (s.setEnableds p).result = s.result := rfl
@[simp] theorem State.setEnableds_reg (p : List Bool) : (s.setEnableds p).blk.reg = s.blk.reg := rfl
@[simp] theorem State.setEnableds_pending (p : List Bool) : (s.setEnableds p).blk.pending = s.blk.pending := rfl
@[simp] theorem State.setEnableds_enabled (p : List Bool) : (s.setEnableds p).blk.enabled = p := rfl
@[simp] theorem State.setEnableds_fifo (p : List Bool) : (s.setEnableds p).blk.fifo = s.blk.fifo := rfl
@[simp] theorem State.setEnableds_txEn (p : List Bool) : (s.setEnableds p).blk.txEn = s.blk.txEn := rfl
@[simp] theorem State.setEnableds_rxEn (p : List Bool) : (s.setEnableds p).blk.rxEn = s.blk.rxEn := rfl
@[simp] theorem State.setEnableds_loopOn (p : List Bool) : (s.setEnableds p).blk.loopOn = s.blk.loopOn := rfl
@[simp] theorem State.setEnableds_timer (p : List Bool) : (s.setEnableds p).blk.timer = s.blk.timer := rfl
@[simp] theorem State.setEnableds_sig (p : List Bool) : (s.setEnableds p).blk.sig = s.blk.sig := rfl

/-! `setFifo` -/
@[simp] theorem State.setFifo_cfg (q : Nat) (f : Fifo) : (s.setFifo q f).cfg = s.cfg := rfl
@[simp] theorem State.setFifo_inbox (q : Nat) (f : Fifo) : (s.setFifo q f).inbox = s.inbox := rfl
@[simp] theorem State.setFifo_trace (q : Nat) (f : Fifo) : (s.setFifo q f).trace = s.trace := rfl
@[simp] theorem State.setFifo_result (q : Nat) (f : Fifo) : (s.setFifo q f).result = s.result := rfl
@[simp] theorem State.setFifo_reg (q : Nat) (f : Fifo) : (s.setFifo q f).blk.reg = s.blk.reg := rfl
@[simp] theorem State.setFifo_pending (q : Nat) (f : Fifo) : (s.setFifo q f).blk.pending = s.blk.pending := rfl
@[simp] theorem State.setFifo_enabled (q : Nat) (f : Fifo) : (s.setFifo q f).blk.enabled = s.blk.enabled := rfl
@[simp] theorem State.setFifo_fifo (q : Nat) (f : Fifo) : (s.setFifo q f).blk.fifo = s.blk.fifo.set q f := rfl
@[simp] theorem State.setFifo_txEn (q : Nat) (f : Fifo) : (s.setFifo q f).blk.txEn = s.blk.txEn := rfl
@[simp] theorem State.setFifo_rxEn (q : Nat) (f : Fifo) : (s.setFifo q f).blk.rxEn = s.blk.rxEn := rfl
@[simp] theorem State.setFifo_loopOn (q : Nat) (f : Fifo) : (s.setFifo q f).blk.loopOn = s.blk.loopOn := rfl
@[simp] theorem State.setFifo_timer (q : Nat) (f : Fifo) : (s.setFifo q f).blk.timer = s.blk.timer := rfl
@[simp] theorem State.setFifo_sig (q : Nat) (f : Fifo) : (s.setFifo q f).blk.sig = s.blk.sig := rfl

/-! `setTxEn` -/
@[simp] theorem State.setTxEn_cfg (b : Bool) : (s.setTxEn b).cfg = s.cfg := rfl
@[simp] theorem State.setTxEn_inbox (b : Bool) : (s.setTxEn b).inbox = s.inbox := rfl
@[simp] theorem State.setTxEn_trace (b : Bool) : (s.setTxEn b).trace = s.trace := rfl
@[simp] theorem State.setTxEn_result (b : Bool) : (s.setTxEn b).result = s.result := rfl
@[simp] theorem State.setTxEn_reg (b : Bool) : (s.setTxEn b).blk.reg = s.blk.reg := rfl
@[simp] theorem State.setTxEn_pending (b : Bool) : (s.setTxEn b).blk.pending = s.blk.pending := rfl
@[simp] theorem State.setTxEn_enabled (b : Bool) : (s.setTxEn b).blk.enabled = s.blk.enabled := rfl
@[simp] theorem State.setTxEn_fifo (b : Bool) : (s.setTxEn b).blk.fifo = s.blk.fifo := rfl
@[simp] theorem State.setTxEn_txEn (b : Bool) : (s.setTxEn b).blk.txEn = b := rfl
@[simp] theorem State.setTxEn_rxEn (b : Bool) : (s.setTxEn b).blk.rxEn = s.blk.rxEn := rfl
@[simp] theorem State.setTxEn_loopOn (b : Bool) : (s.setTxEn b).blk.loopOn = s.blk.loopOn := rfl
@[simp] theorem State.setTxEn_timer (b : Bool) : (s.setTxEn b).blk.timer = s.blk.timer := rfl
@[simp] theorem State.setTxEn_sig (b : Bool) : (s.setTxEn b).blk.sig = s.blk.sig := rfl

/-! `setRxEn` -/
@[simp] theorem State.setRxEn_cfg (b : Bool) : (s.setRxEn b).cfg = s.cfg := rfl
@[simp] theorem State.setRxEn_inbox (b : Bool) : (s.setRxEn b).inbox = s.inbox := rfl
@[simp] theorem State.setRxEn_trace (b : Bool) : (s.setRxEn b).trace = s.trace := rfl
@[simp] theorem State.setRxEn_result (b : Bool) : (s.setRxEn b).result = s.result := rfl
@[simp] theorem State.setRxEn_reg (b : Bool) : (s.setRxEn b).blk.reg = s.blk.reg := rfl
@[simp] theorem State.setRxEn_pending (b : Bool) : (s.setRxEn b).blk.pending = s.blk.pending := rfl
@[simp] theorem State.setRxEn_enabled (b : Bool) : (s.setRxEn b).blk.enabled = s.blk.enabled := rfl
@[simp] theorem State.setRxEn_fifo (b : Bool) : (s.setRxEn b).blk.fifo = s.blk.fifo := rfl
@[simp] theorem State.setRxEn_txEn (b : Bool) : (s.setRxEn b).blk.txEn = s.blk.txEn := rfl
@[simp] theorem State.setRxEn_rxEn (b : Bool) : (s.setRxEn b).blk.rxEn = b := rfl
@[simp] theorem State.setRxEn_loopOn (b : Bool) : (s.setRxEn b).blk.loopOn = s.blk.loopOn := rfl
@[simp] theorem State.setRxEn_timer (b : Bool) : (s.setRxEn b).blk.timer = s.blk.timer := rfl
@[simp] theorem State.setRxEn_sig (b : Bool) : (s.setRxEn b).blk.sig = s.blk.sig := rfl

/-! `setLoop` -/
@[simp] theorem State.setLoop_cfg (b : Bool) : (s.setLoop b).cfg = s.cfg := rfl
@[simp] theorem State.setLoop_inbox (b : Bool) : (s.setLoop b).inbox = s.inbox := rfl
@[simp] theorem State.setLoop_trace (b : Bool) : (s.setLoop b).trace = s.trace := rfl
@[simp] theorem State.setLoop_result (b : Bool) : (s.setLoop b).result = s.result := rfl
@[simp] theorem State.setLoop_reg (b : Bool) : (s.setLoop b).blk.reg = s.blk.reg := rfl
@[simp] theorem State.setLoop_pending (b : Bool) : (s.setLoop b).blk.pending = s.blk.pending := rfl
@[simp] theorem State.setLoop_enabled (b : Bool) : (s.setLoop b).blk.enabled = s.blk.enabled := rfl
@[simp] theorem State.setLoop_fifo (b : Bool) : (s.setLoop b).blk.fifo = s.blk.fifo := rfl
@[simp] theorem State.setLoop_txEn (b : Bool) : (s.setLoop b).blk.txEn = s.blk.txEn := rfl
@[simp] theorem State.setLoop_rxEn (b : Bool) : (s.setLoop b).blk.rxEn = s.blk.rxEn := rfl
@[simp] theorem State.setLoop_loopOn (b : Bool) : (s.setLoop b).blk.loopOn = b := rfl
@[simp] theorem State.setLoop_timer (b : Bool) : (s.setLoop b).blk.timer = s.blk.timer := rfl
@[simp] theorem State.setLoop_sig (b : Bool) : (s.setLoop b).blk.sig = s.blk.sig := rfl

/-! `setTimer` -/
@[simp] theorem State.setTimer_cfg (t : Nat) (x : Timer) : (s.setTimer t x).cfg = s.cfg := rfl
@[simp] theorem State.setTimer_inbox (t : Nat) (x : Timer) : (s.setTimer t x).inbox = s.inbox := rfl
@[simp] theorem State.setTimer_trace (t : Nat) (x : Timer) : (s.setTimer t x).trace = s.trace := rfl
@[simp] theorem State.setTimer_result (t : Nat) (x : Timer) : (s.setTimer t x).result = s.result := rfl
@[simp] theorem State.setTimer_reg (t : Nat) (x : Timer) : (s.setTimer t x).blk.reg = s.blk.reg := rfl
@[simp] theorem State.setTimer_pending (t : Nat) (x : Timer) : (s.setTimer t x).blk.pending = s.blk.pending := rfl
@[simp] theorem State.setTimer_enabled (t : Nat) (x : Timer) : (s.setTimer t x).blk.enabled = s.blk.enabled := rfl
@[simp] theorem State.setTimer_fifo (t : Nat) (x : Timer) : (s.setTimer t x).blk.fifo = s.blk.fifo := rfl
@[simp] theorem State.setTimer_txEn (t : Nat) (x : Timer) : (s.setTimer t x).blk.txEn = s.blk.txEn := rfl
@[simp] theorem State.setTimer_rxEn (t : Nat) (x : Timer) : (s.setTimer t x).blk.rxEn = s.blk.rxEn := rfl
@[simp] theorem State.setTimer_loopOn (t : Nat) (x : Timer) : (s.setTimer t x).blk.loopOn = s.blk.loopOn := rfl
@[simp] theorem State.setTimer_timer (t : Nat) (x : Timer) : (s.setTimer t x).blk.timer = s.blk.timer.set t x := rfl
@[simp] theorem State.setTimer_sig (t : Nat) (x : Timer) : (s.setTimer t x).blk.sig = s.blk.sig := rfl

/-! `setSig` -/
@[simp] theorem State.setSig_cfg (v : List Bool) : (s.setSig v).cfg = s.cfg := rfl
@[simp] theorem State.setSig_inbox (v : List Bool) : (s.setSig v).inbox = s.inbox := rfl
@[simp] theorem State.setSig_trace (v : List Bool) : (s.setSig v).trace = s.trace := rfl
@[simp] theorem State.setSig_result (v : List Bool) : (s.setSig v).result = s.result := rfl
@[simp] theorem State.setSig_reg (v : List Bool) : (s.setSig v).blk.reg = s.blk.reg := rfl
@[simp] theorem State.setSig_pending (v : List Bool) : (s.setSig v).blk.pending = s.blk.pending := rfl
@[simp] theorem State.setSig_enabled (v : List Bool) : (s.setSig v).blk.enabled = s.blk.enabled := rfl
@[simp] theorem State.setSig_fifo (v : List Bool) : (s.setSig v).blk.fifo = s.blk.fifo := rfl
@[simp] theorem State.setSig_txEn (v : List Bool) : (s.setSig v).blk.txEn = s.blk.txEn := rfl
@[simp] theorem State.setSig_rxEn (v : List Bool) : (s.setSig v).blk.rxEn = s.blk.rxEn := rfl
@[simp] theorem State.setSig_loopOn (v : List Bool) : (s.setSig v).blk.loopOn = s.blk.loopOn := rfl
@[simp] theorem State.setSig_timer (v : List Bool) : (s.setSig v).blk.timer = s.blk.timer := rfl
@[simp] theorem State.setSig_sig (v : List Bool) : (s.setSig v).blk.sig = v := rfl

/-! `emit` -/
@[simp] theorem State.emit_cfg (e : Event) : (s.emit e).cfg = s.cfg := rfl
@[simp] theorem State.emit_blk (e : Event) : (s.emit e).blk = s.blk := rfl
@[simp] theorem State.emit_inbox (e : Event) : (s.emit e).inbox = s.inbox := rfl
@[simp] theorem State.emit_trace (e : Event) : (s.emit e).trace = s.trace ++ [e] := rfl
@[simp] theorem State.emit_result (e : Event) : (s.emit e).result = s.result := rfl

/-! `diag` -/
@[simp] theorem State.diag_cfg (d : Diag) : (s.diag d).cfg = s.cfg := rfl
@[simp] theorem State.diag_blk (d : Diag) : (s.diag d).blk = s.blk := rfl
@[simp] theorem State.diag_inbox (d : Diag) : (s.diag d).inbox = s.inbox := rfl
@[simp] theorem State.diag_trace (d : Diag) : (s.diag d).trace = s.trace ++ [.diag d] := rfl
@[simp] theorem State.diag_result (d : Diag) : (s.diag d).result = s.result := rfl

/-! `returning` -/
@[simp] theorem State.returning_cfg (r : Result) : (s.returning r).cfg = s.cfg := rfl
@[simp] theorem State.returning_blk (r : Result) : (s.returning r).blk = s.blk := rfl
@[simp] theorem State.returning_inbox (r : Result) : (s.returning r).inbox = s.inbox := rfl
@[simp] theorem State.returning_trace (r : Result) : (s.returning r).trace = s.trace := rfl
@[simp] theorem State.returning_result (r : Result) : (s.returning r).result = r := rfl

/-! `start` -/
@[simp] theorem State.start_cfg : (s.start).cfg = s.cfg := rfl
@[simp] theorem State.start_blk : (s.start).blk = s.blk := rfl
@[simp] theorem State.start_inbox : (s.start).inbox = s.inbox := rfl
@[simp] theorem State.start_trace : (s.start).trace = [] := rfl
@[simp] theorem State.start_result : (s.start).result = .none := rfl

/-! `withBlk` -/
@[simp] theorem State.withBlk_cfg (b : Block) : (s.withBlk b).cfg = s.cfg := rfl
@[simp] theorem State.withBlk_blk (b : Block) : (s.withBlk b).blk = b := rfl
@[simp] theorem State.withBlk_inbox (b : Block) : (s.withBlk b).inbox = s.inbox := rfl
@[simp] theorem State.withBlk_trace (b : Block) : (s.withBlk b).trace = s.trace := rfl
@[simp] theorem State.withBlk_result (b : Block) : (s.withBlk b).result = s.result := rfl

end Sys2Proof.Machine
end

