-- ==== Sys2Proof/Laws/Fifo.lean ====
section
/-! SUPPORT. Events and FIFO primitives: what each can do, said once, in closed form. -/

namespace Sys2Proof.Machine

/-! ## Raising an event -/

@[simp] theorem markTriggered_length (e : IEvent) (ds : List SourceDesc) (ps : List Bool) :
    (markTriggered e ds ps).length = ps.length := by
  induction ds generalizing ps with
  | nil => cases ps <;> rfl
  | cons d ds ih => cases ps with
    | nil => rfl
    | cons p ps => simp [markTriggered, ih]

/-- A flag after an event: as before, or set because its source lists the event. -/
theorem markTriggered_getElem? (e : IEvent) (ds : List SourceDesc) (ps : List Bool) (i : Nat) :
    (markTriggered e ds ps)[i]? =
      (ps[i]?).map (fun p => p || (ds[i]?).any (fun d => d.triggers.contains e)) := by
  induction ds generalizing ps i with
  | nil => cases ps <;> simp [markTriggered]
  | cons d ds ih => cases ps with
    | nil => simp [markTriggered]
    | cons p ps => cases i with
      | zero => simp [markTriggered]
      | succ i => simpa [markTriggered] using ih ps i

/-- A flag after several events: as before, or set because its source lists one of them. -/
theorem triggered_getElem? (c : Cfg) (es : List IEvent) (p : List Bool) (i : Nat) :
    (triggered c es p)[i]? = (p[i]?).map (fun v => v || (c.sources[i]?).any (fun d => SourceDesc.setBy d es)) := by
  simp [triggered]

/-- The flag of a source after several events (41_interrupts.md R103). -/
theorem triggered_of_source {c : Cfg} {i : Nat} {d : SourceDesc} {v : Bool} {p : List Bool} (es : List IEvent)
    (hd : c.sources[i]? = some d) (hv : p[i]? = some v) : (triggered c es p)[i]? = some (v || SourceDesc.setBy d es) := by
  rw [triggered_getElem?, hv, hd]; rfl

@[simp] theorem triggered_length (c : Cfg) (es : List IEvent) (p : List Bool) :
    (triggered c es p).length = p.length := by simp [triggered]

@[simp] theorem setBy_nil (d : SourceDesc) : SourceDesc.setBy d [] = false := rfl

@[simp] theorem setBy_append (d : SourceDesc) (es fs : List IEvent) :
    SourceDesc.setBy d (es ++ fs) = (SourceDesc.setBy d es || SourceDesc.setBy d fs) := by simp [SourceDesc.setBy]

@[simp] theorem triggered_nil (c : Cfg) (p : List Bool) : triggered c [] p = p := by
  apply List.ext_getElem?
  intro i
  rw [triggered_getElem?]
  cases p[i]? <;> cases c.sources[i]? <;> simp

@[simp] theorem triggered_append (c : Cfg) (es fs : List IEvent) (p : List Bool) :
    triggered c (es ++ fs) p = triggered c fs (triggered c es p) := by
  apply List.ext_getElem?
  intro i
  simp only [triggered_getElem?, Option.map_map]
  cases p[i]? <;> cases c.sources[i]? <;> simp [Bool.or_assoc]

/-- One event marks as the machine does. -/
@[simp] theorem triggered_cons (c : Cfg) (e : IEvent) (es : List IEvent) (p : List Bool) :
    triggered c (e :: es) p = triggered c es (markTriggered e c.sources p) := by
  have h : triggered c [e] p = markTriggered e c.sources p := by
    apply List.ext_getElem?
    intro i
    rw [triggered_getElem?, markTriggered_getElem?]
    cases p[i]? <;> cases c.sources[i]? <;> simp [SourceDesc.setBy]
  rw [show e :: es = [e] ++ es from rfl, triggered_append, h]

theorem raise_eq (e : IEvent) (s : State) :
    raise e s = s.setPendings (triggered s.cfg [e] s.blk.pending) := by simp [raise]

/-! ## Settling a FIFO -/

/-- A settled FIFO in the machine's own functions (42_fifo.md R113). -/
theorem settledFifo_eq (items : List Byte) (cap wm : Nat) :
    settledFifo items cap wm = ⟨items, cap, wm, fifoClass items.length cap, crossed items.length wm⟩ := rfl

/-- What `settle` does (42_fifo.md R114): it stores the state and the level, sets the flags of the events, and notifies once
if either changed. -/
theorem settle_eq (q : Nat) (st0 : FifoState) (w0 : Bool) (s : State) (f : Fifo) (h : s.blk.fifo[q]? = some f) :
    settle q st0 w0 s =
      { s with
        blk := { s.blk with
          fifo := s.blk.fifo.set q (settledFifo f.items f.cap f.wm)
          pending := triggered s.cfg
            (noticeEvents q st0 (fifoClass f.items.length f.cap) w0 (crossed f.items.length f.wm)) s.blk.pending }
        trace := s.trace ++ noticeTrace q st0 (fifoClass f.items.length f.cap) w0 (crossed f.items.length f.wm) } := by
  unfold settle
  rw [h]
  simp only [noticeEvents, noticeTrace, settledFifo_eq]
  generalize fifoClass f.items.length f.cap = st1
  generalize crossed f.items.length f.wm = w1
  by_cases h1 : st1 = st0 <;> cases w1 <;> cases w0 <;>
    simp [h1, State.setFifo, State.emit, raise, State.setPendings]

theorem settle_absent (q : Nat) (st0 : FifoState) (w0 : Bool) (s : State) (h : s.blk.fifo[q]? = none) :
    settle q st0 w0 s = s := by
  unfold settle; rw [h]

/-- What `refit` does: the FIFO gets the new contents, settled. -/
theorem refit_eq (q : Nat) (f : Fifo) (items : List Byte) (cap wm : Nat) (s : State) (h : s.blk.fifo[q]? = some f) :
    refit q f items cap wm s =
      { s with
        blk := Block.afterFifo s.cfg s.blk q f (settledFifo items cap wm) []
        trace := s.trace ++ fifoNotice q f (settledFifo items cap wm) } := by
  have hq : q < s.blk.fifo.length := (List.getElem?_eq_some_iff.1 h).1
  unfold refit
  rw [settle_eq q f.st f.wmx _ { f with items := items, cap := cap, wm := wm }
    (by simp [List.getElem?_set_self hq])]
  simp [Block.afterFifo, fifoNotice, settledFifo_eq, State.setFifo]

/-! ## The primitives -/

/-- FIFO_PUSH into a FIFO with room (42_fifo.md R116). -/
theorem fifoPush_room (q : Nat) (b : Byte) (s : State) (f : Fifo) (h : s.blk.fifo[q]? = some f)
    (hr : f.items.length < f.cap) :
    fifoPush q b s =
      { s with
        blk := Block.afterFifo s.cfg s.blk q f (settledFifo (f.items ++ [b]) f.cap f.wm) [.pushed q]
        trace := s.trace ++ fifoNotice q f (settledFifo (f.items ++ [b]) f.cap f.wm) } := by
  have hq : q < s.blk.fifo.length := (List.getElem?_eq_some_iff.1 h).1
  unfold fifoPush
  rw [h]
  simp only [Nat.not_le.2 hr, if_false]
  rw [settle_eq q f.st f.wmx _ { f with items := f.items ++ [b] }
    (by simp [raise, List.getElem?_set_self hq])]
  simp [Block.afterFifo, fifoNotice, settledFifo_eq, State.setFifo, raise, State.setPendings]

/-- FIFO_PUSH into a full FIFO: the byte is dropped (42_fifo.md R116). -/
theorem fifoPush_full (q : Nat) (b : Byte) (s : State) (f : Fifo) (h : s.blk.fifo[q]? = some f)
    (hf : f.cap ≤ f.items.length) :
    fifoPush q b s = (raise (.overflow q) s).diag (.overflow q) := by
  unfold fifoPush; rw [h]; simp [hf]

theorem fifoPush_absent (q : Nat) (b : Byte) (s : State) (h : s.blk.fifo[q]? = none) : fifoPush q b s = s := by
  unfold fifoPush; rw [h]

/-- FIFO_POP of a FIFO that holds `b` first (42_fifo.md R117). -/
theorem fifoPop_item (q : Nat) (s : State) (f : Fifo) (b : Byte) (rest : List Byte) (h : s.blk.fifo[q]? = some f)
    (hi : f.items = b :: rest) :
    fifoPop q s =
      { s with
        blk := Block.afterFifo s.cfg s.blk q f (settledFifo rest f.cap f.wm) []
        trace := s.trace ++ fifoNotice q f (settledFifo rest f.cap f.wm) } := by
  unfold fifoPop; rw [h]; simp only [hi]; exact refit_eq q f rest f.cap f.wm s h

/-- FIFO_POP of an empty FIFO (42_fifo.md R117). -/
theorem fifoPop_empty (q : Nat) (s : State) (f : Fifo) (h : s.blk.fifo[q]? = some f) (hi : f.items = []) :
    fifoPop q s = (raise (.underflow q) s).diag (.underflow q) := by
  unfold fifoPop; rw [h]; simp only [hi]

theorem fifoPop_absent (q : Nat) (s : State) (h : s.blk.fifo[q]? = none) : fifoPop q s = s := by
  unfold fifoPop; rw [h]

/-- FIFO_FLUSH (42_fifo.md R118). -/
theorem fifoFlush_eq (q : Nat) (s : State) (f : Fifo) (h : s.blk.fifo[q]? = some f) :
    fifoFlush q s =
      { s with
        blk := Block.afterFifo s.cfg s.blk q f (settledFifo [] f.cap f.wm) []
        trace := s.trace ++ fifoNotice q f (settledFifo [] f.cap f.wm) } := by
  unfold fifoFlush; rw [h]; exact refit_eq q f [] f.cap f.wm s h

theorem fifoFlush_absent (q : Nat) (s : State) (h : s.blk.fifo[q]? = none) : fifoFlush q s = s := by
  unfold fifoFlush; rw [h]

/-- FIFO_SET_WATERMARK (42_fifo.md R120). -/
theorem fifoSetWatermark_eq (q n : Nat) (s : State) (f : Fifo) (h : s.blk.fifo[q]? = some f) :
    fifoSetWatermark q n s =
      { s with
        blk := Block.afterFifo s.cfg s.blk q f (settledFifo f.items f.cap (min n f.cap)) []
        trace := s.trace ++ fifoNotice q f (settledFifo f.items f.cap (min n f.cap)) } := by
  unfold fifoSetWatermark; rw [h]; exact refit_eq q f f.items f.cap (min n f.cap) s h

theorem fifoSetWatermark_absent (q n : Nat) (s : State) (h : s.blk.fifo[q]? = none) : fifoSetWatermark q n s = s := by
  unfold fifoSetWatermark; rw [h]

/-- The items a FIFO keeps when its capacity becomes `n` (42_fifo.md R119). -/
abbrev keptItems (f : Fifo) (n : Nat) : List Byte := if n < f.items.length then [] else f.items

/-- FIFO_SET_CAPACITY: nothing, a diagnostic, or the new capacity (42_fifo.md R119). -/
theorem fifoSetCapacity_cases (q n : Nat) (s : State) :
    fifoSetCapacity q n s = s ∨ (∃ d, fifoSetCapacity q n s = s.diag d) ∨
      ∃ f, s.blk.fifo[q]? = some f ∧ s.blk.txEn = false ∧ s.blk.rxEn = false ∧ 1 ≤ n ∧
        fifoSetCapacity q n s = refit q f (keptItems f n) n (min f.wm n) s := by
  unfold fifoSetCapacity
  split
  · exact .inl rfl
  · rename_i f hf
    split
    · exact .inl rfl
    · split
      · exact .inr (.inl ⟨_, rfl⟩)
      · split
        · exact .inr (.inl ⟨_, rfl⟩)
        · rename_i h1 h2 h3
          simp only [Bool.or_eq_true, not_or, Bool.not_eq_true] at h2
          exact .inr (.inr ⟨f, hf, h2.1, h2.2, by omega, rfl⟩)

end Sys2Proof.Machine
end

