-- ==== Sys2Proof/Laws/Keeps.lean ====
section
/-! SUPPORT. What every operation keeps: the configuration, the inbox, the returned value and every register bit outside the
`Stored` fields; and the invariants of the block's shape, of its FIFOs and of its fixed register bits (`Good`) and of the
drained tx FIFO. -/

namespace Sys2Proof.Machine

/-- The invariants that every operation keeps, at every point of an entry point. -/
structure Good (c : Cfg) (b : Block) : Prop where
  shaped : Shaped c b
  fifos : FifosOk b
  fixed : FixedBits c b

/-- Two states agree on every register bit outside the `Stored` fields (10_state.md R18, R19). -/
def SameFixed (s t : State) : Prop :=
  ∀ (r : Nat) (d : RegDesc), s.cfg.regs[r]? = some d → t.regWord r &&& ~~~(storedMask d) = s.regWord r &&& ~~~(storedMask d)

/-- The state `t` may follow `s`: same configuration, inbox, returned value and fixed register bits, and `Good` is kept. -/
structure Keeps (s t : State) : Prop where
  cfg : t.cfg = s.cfg
  inbox : t.inbox = s.inbox
  result : t.result = s.result
  bits : SameFixed s t
  good : Good s.cfg s.blk → Good s.cfg t.blk

theorem SameFixed.rfl {s t : State} (h : t.blk.reg = s.blk.reg) : SameFixed s t := fun r d _ => by
  simp only [State.regWord, h]

theorem Keeps.refl (s : State) : Keeps s s := ⟨rfl, rfl, rfl, .rfl rfl, id⟩

theorem Keeps.trans {s t u : State} (h : Keeps s t) (k : Keeps t u) : Keeps s u :=
  ⟨k.cfg.trans h.cfg, k.inbox.trans h.inbox, k.result.trans h.result,
    fun r d hd => (k.bits r d (by rw [h.cfg]; exact hd)).trans (h.bits r d hd), fun g => by
    have := k.good (by rw [h.cfg]; exact h.good g)
    rwa [h.cfg] at this⟩

/-- The state `t` may follow `s` with transmit enable and the emptiness of the tx FIFO kept. -/
structure KeepsTx (s t : State) : Prop where
  txEn : t.blk.txEn = s.blk.txEn
  items : txItems s.cfg s.blk = [] → txItems s.cfg t.blk = []

theorem KeepsTx.refl (s : State) : KeepsTx s s := ⟨rfl, id⟩

theorem KeepsTx.trans {s t u : State} (hc : t.cfg = s.cfg) (h : KeepsTx s t) (k : KeepsTx t u) : KeepsTx s u :=
  ⟨k.txEn.trans h.txEn, fun g => by have := k.items (by rw [hc]; exact h.items g); rwa [hc] at this⟩

/-- A fold of operations each of which keeps, keeps. -/
theorem Keeps.foldl {α : Type} (g : State → α → State) (h : ∀ s a, Keeps s (g s a)) (l : List α) (s : State) :
    Keeps s (l.foldl g s) := by
  induction l generalizing s with
  | nil => exact .refl s
  | cons a l ih => exact (h s a).trans (ih (g s a))

/-! ## Blocks -/

theorem Good.ofPending {c : Cfg} {b : Block} (g : Good c b) (p : List Bool) (hp : p.length = b.pending.length) :
    Good c { b with pending := p } :=
  ⟨⟨g.shaped.reg, hp.trans g.shaped.pending, g.shaped.enabled, g.shaped.fifo, g.shaped.timer, g.shaped.sig⟩, g.fifos, g.fixed⟩

theorem settledFifo_consistent (items : List Byte) (cap wm : Nat) (hi : items.length ≤ cap) (hw : wm ≤ cap) :
    (settledFifo items cap wm).consistent = true := by
  simp [Fifo.consistent, settledFifo_eq, hi, hw]

/-- A consistent FIFO is the settled one with its contents. -/
theorem consistent_iff (f : Fifo) :
    f.consistent = true ↔ f.items.length ≤ f.cap ∧ f.wm ≤ f.cap ∧ f = settledFifo f.items f.cap f.wm := by
  cases f
  simp [Fifo.consistent, settledFifo_eq]
  tauto

theorem Good.afterFifo {c : Cfg} {b : Block} (g : Good c b) (q : Nat) (f x : Fifo) (es : List IEvent)
    (hx : x.consistent = true) (hc : 1 ≤ x.cap) : Good c (Block.afterFifo c b q f x es) := by
  refine ⟨⟨g.shaped.reg, ?_, g.shaped.enabled, ?_, g.shaped.timer, g.shaped.sig⟩, ?_, g.fixed⟩
  · simpa [Block.afterFifo] using g.shaped.pending
  · simpa [Block.afterFifo] using g.shaped.fifo
  · intro y hy
    rcases List.mem_or_eq_of_mem_set hy with h | h
    · exact g.fifos y h
    · exact h ▸ ⟨hx, hc⟩

theorem FifosOk.at {b : Block} (h : FifosOk b) {q : Nat} {f : Fifo} (hq : b.fifo[q]? = some f) :
    f.items.length ≤ f.cap ∧ f.wm ≤ f.cap ∧ 1 ≤ f.cap := by
  have := h f (List.mem_of_getElem? hq)
  have h2 := (consistent_iff f).1 this.1
  exact ⟨h2.1, h2.2.1, this.2⟩

/-! ## Elementary operations -/

theorem keeps_emit (s : State) (e : Event) : Keeps s (s.emit e) := ⟨rfl, rfl, rfl, .rfl rfl, id⟩
theorem keeps_diag (s : State) (d : Diag) : Keeps s (s.diag d) := ⟨rfl, rfl, rfl, .rfl rfl, id⟩

theorem keeps_setPendings (s : State) (p : List Bool) (h : p.length = s.blk.pending.length) : Keeps s (s.setPendings p) :=
  ⟨rfl, rfl, rfl, .rfl rfl, fun g => g.ofPending p h⟩

theorem keeps_raise (e : IEvent) (s : State) : Keeps s (raise e s) := keeps_setPendings s _ (by simp)

theorem keeps_irqSet (i : Nat) (b : Bool) (s : State) : Keeps s (irqSet i b s) := keeps_setPendings s _ (by simp)

theorem keeps_irqSetEnabled (i : Nat) (b : Bool) (s : State) : Keeps s (irqSetEnabled i b s) :=
  ⟨rfl, rfl, rfl, .rfl rfl, fun g =>
    ⟨⟨g.shaped.reg, g.shaped.pending, by simpa [irqSetEnabled] using g.shaped.enabled, g.shaped.fifo, g.shaped.timer,
      g.shaped.sig⟩, g.fifos, g.fixed⟩⟩

theorem keeps_setRxEn (b : Bool) (s : State) : Keeps s (s.setRxEn b) :=
  ⟨rfl, rfl, rfl, .rfl rfl, fun g => ⟨⟨g.shaped.1, g.shaped.2, g.shaped.3, g.shaped.4, g.shaped.5, g.shaped.6⟩, g.fifos, g.fixed⟩⟩
theorem keeps_setTxEn (b : Bool) (s : State) : Keeps s (s.setTxEn b) :=
  ⟨rfl, rfl, rfl, .rfl rfl, fun g => ⟨⟨g.shaped.1, g.shaped.2, g.shaped.3, g.shaped.4, g.shaped.5, g.shaped.6⟩, g.fifos, g.fixed⟩⟩
theorem keeps_setLoop (b : Bool) (s : State) : Keeps s (s.setLoop b) :=
  ⟨rfl, rfl, rfl, .rfl rfl, fun g => ⟨⟨g.shaped.1, g.shaped.2, g.shaped.3, g.shaped.4, g.shaped.5, g.shaped.6⟩, g.fifos, g.fixed⟩⟩

theorem keeps_setTimer (t : Nat) (x : Timer) (s : State) : Keeps s (s.setTimer t x) :=
  ⟨rfl, rfl, rfl, .rfl rfl, fun g =>
    ⟨⟨g.shaped.1, g.shaped.2, g.shaped.3, g.shaped.4, by simpa using g.shaped.5, g.shaped.6⟩, g.fifos, g.fixed⟩⟩

@[simp] theorem clearAuto_length (b : Block) (ds : List SourceDesc) (ps : List Bool) :
    (clearAuto b ds ps).length = ps.length := by
  induction ds generalizing ps with
  | nil => cases ps <;> rfl
  | cons d ds ih => cases ps with
    | nil => rfl
    | cons p ps => simp [clearAuto, ih]

theorem recompute_eq (s : State) : recompute s = { s with blk := Block.recomputed s.cfg s.blk } := rfl

theorem keeps_recompute (s : State) : Keeps s (recompute s) :=
  ⟨rfl, rfl, rfl, .rfl rfl, fun g =>
    ⟨⟨g.shaped.1, by simpa [recompute] using g.shaped.2, g.shaped.3, g.shaped.4, g.shaped.5, by simp [recompute]⟩,
      g.fifos, g.fixed⟩⟩

/-! ## FIFO primitives -/

theorem keeps_refit (q : Nat) (f : Fifo) (items : List Byte) (cap wm : Nat) (s : State) (h : s.blk.fifo[q]? = some f)
    (hi : FifosOk s.blk → items.length ≤ cap) (hw : FifosOk s.blk → wm ≤ cap) (hc : FifosOk s.blk → 1 ≤ cap) :
    Keeps s (refit q f items cap wm s) := by
  rw [refit_eq q f items cap wm s h]
  exact ⟨rfl, rfl, rfl, .rfl rfl, fun g =>
    g.afterFifo q f _ _ (settledFifo_consistent items cap wm (hi g.fifos) (hw g.fifos)) (hc g.fifos)⟩

theorem keeps_fifoPush (q : Nat) (b : Byte) (s : State) : Keeps s (fifoPush q b s) := by
  rcases h : s.blk.fifo[q]? with _ | f
  · rw [fifoPush_absent q b s h]; exact .refl s
  · rcases Nat.lt_or_ge f.items.length f.cap with hr | hf
    · rw [fifoPush_room q b s f h hr]
      exact ⟨rfl, rfl, rfl, .rfl rfl, fun g => g.afterFifo q f _ _
        (settledFifo_consistent _ _ _ (by simpa using hr) (g.fifos.at h).2.1) (g.fifos.at h).2.2⟩
    · rw [fifoPush_full q b s f h hf]; exact (keeps_raise _ s).trans (keeps_diag _ _)

theorem keeps_fifoPop (q : Nat) (s : State) : Keeps s (fifoPop q s) := by
  rcases h : s.blk.fifo[q]? with _ | f
  · rw [fifoPop_absent q s h]; exact .refl s
  · rcases hi : f.items with _ | ⟨b, rest⟩
    · rw [fifoPop_empty q s f h hi]; exact (keeps_raise _ s).trans (keeps_diag _ _)
    · unfold fifoPop; rw [h]; simp only [hi]
      refine keeps_refit q f rest f.cap f.wm s h (fun g => ?_) (fun g => (g.at h).2.1) (fun g => (g.at h).2.2)
      have := (g.at h).1; rw [hi] at this; simp at this; omega

theorem keeps_fifoFlush (q : Nat) (s : State) : Keeps s (fifoFlush q s) := by
  unfold fifoFlush
  split
  · exact .refl s
  · rename_i f h
    exact keeps_refit q f [] f.cap f.wm s h (fun _ => by simp) (fun g => (g.at h).2.1) (fun g => (g.at h).2.2)

theorem keeps_fifoSetWatermark (q n : Nat) (s : State) : Keeps s (fifoSetWatermark q n s) := by
  unfold fifoSetWatermark
  split
  · exact .refl s
  · rename_i f h
    exact keeps_refit q f f.items f.cap (min n f.cap) s h (fun g => (g.at h).1) (fun _ => by omega) (fun g => (g.at h).2.2)

theorem keeps_fifoSetCapacity (q n : Nat) (s : State) : Keeps s (fifoSetCapacity q n s) := by
  rcases fifoSetCapacity_cases q n s with h | ⟨d, h⟩ | ⟨f, hf, -, -, hn, h⟩
  · rw [h]; exact .refl s
  · rw [h]; exact keeps_diag s d
  · rw [h]
    refine keeps_refit q f _ n (min f.wm n) s hf (fun _ => ?_) (fun _ => by omega) (fun _ => hn)
    unfold keptItems; split
    · exact Nat.zero_le n
    · omega

/-! ## Paths and timers -/

theorem keeps_rxPath (b : Byte) (s : State) : Keeps s (rxPath b s) := by
  unfold rxPath
  split
  · exact keeps_fifoPush _ b s
  · exact keeps_diag s _

theorem keeps_deliver (b : Byte) (s : State) : Keeps s (deliver b s) := by
  unfold deliver
  split
  · dsimp only
    split
    · exact (keeps_rxPath b s).trans (keeps_emit _ _)
    · exact keeps_rxPath b s
  · exact keeps_emit s _

theorem keeps_txByte (b : Byte) (s : State) : Keeps s (txByte b s) := by
  unfold txByte
  split
  · exact keeps_deliver b s
  · split
    · exact keeps_fifoPush _ b s
    · exact keeps_diag s _

theorem keeps_drainLoop (q n : Nat) (s : State) : Keeps s (drainLoop q n s) := by
  induction n generalizing s with
  | zero => exact .refl s
  | succ n ih =>
    unfold drainLoop
    split
    · exact .refl s
    · split
      · exact .refl s
      · exact ((keeps_fifoPop q s).trans (keeps_deliver _ _)).trans (ih _)

theorem keeps_txDrain (s : State) : Keeps s (txDrain s) := by
  unfold txDrain
  split
  · exact .refl s
  · split
    · exact .refl s
    · exact keeps_drainLoop _ _ s

theorem keeps_txEnable (b : Bool) (s : State) : Keeps s (txEnable b s) := by
  unfold txEnable
  dsimp only
  split
  · exact (keeps_setTxEn b s).trans (keeps_txDrain _)
  · exact keeps_setTxEn b s

theorem keeps_voidFiring (t : Nat) (x : Timer) (s : State) : Keeps s (voidFiring t x s) := by
  unfold voidFiring
  split
  · exact keeps_emit s _
  · exact .refl s

theorem keeps_timerArm (t : Nat) (s : State) : Keeps s (timerArm t s) := by
  unfold timerArm
  split
  · exact .refl s
  · exact ((keeps_voidFiring _ _ s).trans (keeps_setTimer _ _ _)).trans (keeps_emit _ _)

theorem keeps_timerCancel (t : Nat) (s : State) : Keeps s (timerCancel t s) := by
  unfold timerCancel
  split
  · exact .refl s
  · exact (keeps_voidFiring _ _ s).trans (keeps_setTimer _ _ _)

/-! ## Transmit: the tx FIFO stays empty -/

theorem txItems_congr {c : Cfg} {b b' : Block} (h : b'.fifo = b.fifo) : txItems c b' = txItems c b := by
  simp [txItems, h]

/-- An operation that leaves the FIFOs and transmit enable alone. -/
theorem KeepsTx.ofFifo {s t : State} (h : t.blk.fifo = s.blk.fifo) (k : t.blk.txEn = s.blk.txEn) : KeepsTx s t :=
  ⟨k, fun g => (txItems_congr h).trans g⟩

/-- The items of the tx FIFO after FIFO `q` changed to `x`: those of `x`, if it is the tx FIFO. -/
theorem txItems_afterFifo (c : Cfg) (b : Block) (q : Nat) (f x : Fifo) (es : List IEvent) (h : b.fifo[q]? = some f) :
    txItems c (Block.afterFifo c b q f x es) = if fifoOf c .tx = some q then x.items else txItems c b := by
  have hq : q < b.fifo.length := (List.getElem?_eq_some_iff.1 h).1
  unfold txItems Block.afterFifo
  rcases hf : fifoOf c .tx with _ | p
  · simp
  · by_cases hp : p = q
    · subst hp; simp [List.getElem?_set_self hq]
    · simp [hp, List.getElem?_set_ne (Ne.symm hp)]

theorem txItems_at {c : Cfg} {b : Block} {q : Nat} {f : Fifo} (h : b.fifo[q]? = some f) (hq : fifoOf c .tx = some q) :
    txItems c b = f.items := by
  simp [txItems, hq, h]

theorem keepsTx_refit (q : Nat) (f : Fifo) (items : List Byte) (cap wm : Nat) (s : State) (h : s.blk.fifo[q]? = some f)
    (hi : f.items = [] → items = []) : KeepsTx s (refit q f items cap wm s) := by
  rw [refit_eq q f items cap wm s h]
  refine ⟨rfl, fun g => ?_⟩
  show txItems s.cfg (Block.afterFifo s.cfg s.blk q f _ []) = []
  rw [txItems_afterFifo s.cfg s.blk q f _ [] h]
  split
  · rename_i hq
    exact hi (by rw [← txItems_at h hq]; exact g)
  · exact g

/-- A push into any FIFO but the tx FIFO. -/
theorem keepsTx_fifoPush (q : Nat) (b : Byte) (s : State) (hq : fifoOf s.cfg .tx ≠ some q) :
    KeepsTx s (fifoPush q b s) := by
  rcases h : s.blk.fifo[q]? with _ | f
  · rw [fifoPush_absent q b s h]; exact .refl s
  · rcases Nat.lt_or_ge f.items.length f.cap with hr | hf
    · rw [fifoPush_room q b s f h hr]
      refine ⟨rfl, fun g => ?_⟩
      show txItems s.cfg (Block.afterFifo s.cfg s.blk q f _ _) = []
      rw [txItems_afterFifo s.cfg s.blk q f _ _ h, if_neg hq]; exact g
    · rw [fifoPush_full q b s f h hf]; exact .ofFifo rfl rfl

theorem keepsTx_fifoPop (q : Nat) (s : State) : KeepsTx s (fifoPop q s) := by
  unfold fifoPop
  split
  · exact .refl s
  · rename_i f h
    split
    · exact .ofFifo rfl rfl
    · rename_i b rest hi
      exact keepsTx_refit q f rest f.cap f.wm s h (fun hn => by rw [hi] at hn; cases hn)

theorem keepsTx_fifoFlush (q : Nat) (s : State) : KeepsTx s (fifoFlush q s) := by
  unfold fifoFlush
  split
  · exact .refl s
  · rename_i f h; exact keepsTx_refit q f [] f.cap f.wm s h (fun _ => rfl)

theorem keepsTx_fifoSetWatermark (q n : Nat) (s : State) : KeepsTx s (fifoSetWatermark q n s) := by
  unfold fifoSetWatermark
  split
  · exact .refl s
  · rename_i f h; exact keepsTx_refit q f f.items f.cap _ s h id

theorem keepsTx_fifoSetCapacity (q n : Nat) (s : State) : KeepsTx s (fifoSetCapacity q n s) := by
  rcases fifoSetCapacity_cases q n s with h | ⟨d, h⟩ | ⟨f, hf, -, -, -, h⟩
  · rw [h]; exact .refl s
  · rw [h]; exact .ofFifo rfl rfl
  · rw [h]
    refine keepsTx_refit q f _ n _ s hf (fun hn => ?_)
    unfold keptItems; split
    · rfl
    · exact hn

/-- The rx FIFO is not the tx FIFO. -/
theorem fifoOf_rx_ne_tx (c : Cfg) (q : Nat) (h : fifoOf c .rx = some q) : fifoOf c .tx ≠ some q := by
  intro k
  simp only [fifoOf, List.findIdx?_eq_some_iff_getElem] at h k
  obtain ⟨h1, h2, -⟩ := h
  obtain ⟨_, k2, -⟩ := k
  simp only [decide_eq_true_eq] at h2 k2
  rw [h2] at k2; cases k2

theorem keepsTx_rxPath (b : Byte) (s : State) : KeepsTx s (rxPath b s) := by
  unfold rxPath
  split
  · rename_i q hq _
    exact keepsTx_fifoPush q b s (fifoOf_rx_ne_tx s.cfg q hq)
  · exact .ofFifo rfl rfl

theorem keepsTx_deliver (b : Byte) (s : State) : KeepsTx s (deliver b s) := by
  unfold deliver
  split
  · dsimp only
    split
    · exact (keepsTx_rxPath b s).trans (keeps_rxPath b s).cfg (.ofFifo rfl rfl)
    · exact keepsTx_rxPath b s
  · exact .ofFifo rfl rfl

/-- Delivering a byte leaves the tx FIFO as it is. -/
theorem deliver_txFifo (b : Byte) (s : State) (q : Nat) (hq : fifoOf s.cfg .tx = some q) :
    (deliver b s).blk.fifo[q]? = s.blk.fifo[q]? := by
  have push : ∀ p, fifoOf s.cfg .rx = some p → (fifoPush p b s).blk.fifo[q]? = s.blk.fifo[q]? := by
    intro p hp
    have hne : p ≠ q := fun h => fifoOf_rx_ne_tx s.cfg p hp (h ▸ hq)
    rcases h : s.blk.fifo[p]? with _ | f
    · rw [fifoPush_absent p b s h]
    · rcases Nat.lt_or_ge f.items.length f.cap with hr | hf
      · rw [fifoPush_room p b s f h hr]; simp [Block.afterFifo, List.getElem?_set_ne hne]
      · rw [fifoPush_full p b s f h hf]; rfl
  have path : (rxPath b s).blk.fifo[q]? = s.blk.fifo[q]? := by
    unfold rxPath
    split
    · rename_i p hp _; exact push p hp
    · rfl
  unfold deliver
  split
  · dsimp only
    split
    · exact path
    · exact path
  · rfl

/-- The drain loop empties the tx FIFO (43_peripheral.md R129). -/
theorem drainLoop_empties (q n : Nat) (s : State) (f : Fifo) (hq : fifoOf s.cfg .tx = some q)
    (h : s.blk.fifo[q]? = some f) (hn : f.items.length ≤ n) : txItems s.cfg (drainLoop q n s).blk = [] := by
  induction n generalizing s f with
  | zero => rw [drainLoop, txItems_at h hq]; exact List.length_eq_zero_iff.1 (by omega)
  | succ n ih =>
    unfold drainLoop
    rw [h]
    rcases hi : f.items with _ | ⟨b, rest⟩
    · simp only [hi]; rw [txItems_at h hq]; exact hi
    · simp only [hi]
      have hql : q < s.blk.fifo.length := (List.getElem?_eq_some_iff.1 h).1
      have hp := fifoPop_item q s f b rest h hi
      have hcfg : (deliver b (fifoPop q s)).cfg = s.cfg :=
        (keeps_deliver _ _).cfg.trans (keeps_fifoPop q s).cfg
      have hf' : (deliver b (fifoPop q s)).blk.fifo[q]? = some (settledFifo rest f.cap f.wm) := by
        rw [deliver_txFifo b _ q (by rw [(keeps_fifoPop q s).cfg]; exact hq), hp]
        simp [Block.afterFifo, List.getElem?_set_self hql]
      have := ih (deliver b (fifoPop q s)) _ (by rw [hcfg]; exact hq) hf'
        (by rw [hi] at hn; simpa [settledFifo_eq] using hn)
      rwa [hcfg] at this

theorem txDrain_empties (s : State) : txItems s.cfg (txDrain s).blk = [] := by
  unfold txDrain
  split
  · rename_i hq; simp [txItems, hq]
  · rename_i q hq
    split
    · rename_i h; simp [txItems, hq, h]
    · rename_i f h; exact drainLoop_empties q _ s f hq h (Nat.le_refl _)

theorem drainLoop_txEn (q n : Nat) (s : State) : (drainLoop q n s).blk.txEn = s.blk.txEn := by
  induction n generalizing s with
  | zero => rfl
  | succ n ih =>
    unfold drainLoop
    split
    · rfl
    · split
      · rfl
      · rw [ih, (keepsTx_deliver _ _).txEn, (keepsTx_fifoPop _ _).txEn]

theorem txDrain_txEn (s : State) : (txDrain s).blk.txEn = s.blk.txEn := by
  unfold txDrain
  split
  · rfl
  · split
    · rfl
    · exact drainLoop_txEn _ _ s

theorem keepsTx_txDrain (s : State) : KeepsTx s (txDrain s) := ⟨txDrain_txEn s, fun _ => txDrain_empties s⟩

theorem KeepsTx.drained {s t : State} (h : KeepsTx s t) (d : Drained s.cfg s.blk) : Drained s.cfg t.blk :=
  fun k => h.items (d (h.txEn ▸ k))

/-- TX_BYTE keeps the tx FIFO drained: it pushes there only while transmit is disabled (43_peripheral.md R127, R130). -/
theorem drained_txByte (b : Byte) (s : State) (d : Drained s.cfg s.blk) : Drained s.cfg (txByte b s).blk := by
  unfold txByte
  split
  · exact (keepsTx_deliver b s).drained d
  · rename_i h
    have push : ∀ q, (fifoPush q b s).blk.txEn = s.blk.txEn := fun q => by
      rcases hf : s.blk.fifo[q]? with _ | f
      · rw [fifoPush_absent q b s hf]
      · rcases Nat.lt_or_ge f.items.length f.cap with hr | hl
        · rw [fifoPush_room q b s f hf hr]; rfl
        · rw [fifoPush_full q b s f hf hl]; rfl
    split
    · intro k; rw [push] at k; exact absurd k h
    · intro k; exact absurd k h

theorem drained_txEnable (b : Bool) (s : State) (d : Drained s.cfg s.blk) : Drained s.cfg (txEnable b s).blk := by
  unfold txEnable
  dsimp only
  split
  · intro _; exact txDrain_empties (s.setTxEn b)
  · rename_i h
    intro k
    simp only [Bool.and_eq_true, Bool.not_eq_true', not_and, Bool.not_eq_true] at h
    rcases ht : s.blk.txEn with _ | _
    · rw [h ht] at k; cases k
    · exact d ht

end Sys2Proof.Machine
end

