-- ==== Sys2Proof/Laws/Registers.lean ====
section
/-! SUPPORT. What the register file's operations keep: custom functions, read actions, applies, and whole reads and writes. -/

namespace Sys2Proof.Machine

/-! ## Stored bits -/

theorem storedMask_fold (l : List FieldDesc) (m : Word) (j : Nat) :
    (l.foldl (fun m f => if f.bind = .stored then m ||| mask f.off f.wid else m) m).getLsbD j =
      (m.getLsbD j || l.any (fun f => decide (f.bind = .stored) && (mask f.off f.wid).getLsbD j)) := by
  induction l generalizing m with
  | nil => simp
  | cons f l ih =>
    rw [List.foldl_cons, ih, List.any_cons]
    by_cases h : f.bind = .stored <;> simp [h, Bool.or_assoc]

theorem storedMask_getLsbD (d : RegDesc) (j : Nat) :
    (storedMask d).getLsbD j = d.fields.any (fun f => decide (f.bind = .stored) && (mask f.off f.wid).getLsbD j) := by
  simp [storedMask, storedMask_fold]

/-- A `Stored` field lies within the stored bits of its register. -/
theorem mask_le_storedMask (d : RegDesc) (f : FieldDesc) (hf : f ∈ d.fields) (hs : f.bind = .stored) :
    mask f.off f.wid &&& ~~~(storedMask d) = 0 := by
  apply BitVec.eq_of_getLsbD_eq
  intro j hj
  simp only [BitVec.getLsbD_and, BitVec.getLsbD_not, hj, decide_true, Bool.true_and, storedMask_getLsbD]
  by_cases hm : (mask f.off f.wid).getLsbD j = true
  · have : (d.fields.any (fun f => decide (f.bind = .stored) && (mask f.off f.wid).getLsbD j)) = true :=
      List.any_eq_true.2 ⟨f, hf, by simp [hs, hm]⟩
    simp [this]
  · simp [hm]

/-- A write of register word `r` that changes only stored bits keeps every invariant. -/
theorem keeps_setReg (r : Nat) (v : Word) (s : State)
    (h : ∀ d : RegDesc, s.cfg.regs[r]? = some d → v &&& ~~~(storedMask d) = s.regWord r &&& ~~~(storedMask d)) :
    Keeps s (s.setReg r v) := by
  refine ⟨rfl, rfl, rfl, fun p d hd => ?_, fun g => ⟨⟨by simpa using g.shaped.1, g.shaped.2, g.shaped.3, g.shaped.4, g.shaped.5, g.shaped.6⟩,
    g.fifos, ?_⟩⟩
  · by_cases hp : r = p
    · subst hp
      by_cases hl : r < s.blk.reg.length
      · have : (s.setReg r v).regWord r = v := by simp [State.regWord, List.getD_eq_getElem?_getD, hl]
        rw [this]; exact h d hd
      · simp [State.regWord, List.getD_eq_getElem?_getD, hl]
    · simp [State.regWord, List.getD_eq_getElem?_getD, hp]
  intro p d w hd hw
  simp only [State.setReg_reg, List.getElem?_set] at hw
  by_cases hp : r = p
  · subst hp
    by_cases hl : r < s.blk.reg.length
    · simp only [hl, if_true, Option.some.injEq] at hw
      subst hw
      rw [h d hd]
      exact g.fixed r d _ hd (by simp [State.regWord, List.getD_eq_getElem?_getD, hl])
    · simp [hl] at hw
  · rw [if_neg hp] at hw
    exact g.fixed p d w hd hw

theorem keeps_storeOwn (r : Nat) (v : Word) (s : State) : Keeps s (storeOwn r v s) := by
  unfold storeOwn
  split
  · exact .refl s
  · rename_i d hd
    refine keeps_setReg r _ s (fun d' hd' => ?_)
    rw [hd] at hd'; cases hd'
    exact merge_outside _ _ _

/-! ## Custom functions -/

/-- Every action of a custom function keeps what every operation keeps. -/
theorem keeps_runAct (r : Nat) (s : State) (a : Act) : Keeps s (runAct r s a) := by
  cases a with
  | fifoPush q b => exact keeps_fifoPush q b s
  | fifoPop q => exact keeps_fifoPop q s
  | fifoFlush q => exact keeps_fifoFlush q s
  | fifoSetCapacity q n => exact keeps_fifoSetCapacity q n s
  | fifoSetWatermark q n => exact keeps_fifoSetWatermark q n s
  | irqSet i b => exact keeps_irqSet i b s
  | irqSetEnabled i b => exact keeps_irqSetEnabled i b s
  | recompute => exact keeps_recompute s
  | txByte b => exact keeps_txByte b s
  | txDrain => exact keeps_txDrain s
  | txEnable b => exact keeps_txEnable b s
  | timerArm t => exact keeps_timerArm t s
  | timerCancel t => exact keeps_timerCancel t s
  | emit e => exact keeps_emit s e
  | raise e => exact keeps_raise e s
  | store v => exact keeps_storeOwn r v s

/-- A custom function does nothing, or what its actions do in order. -/
theorem runActs_cases (r : Nat) (l : List Act) (s : State) :
    (runActs r l s = s ∧ queueClear s = true ∧ queueClear (l.foldl (runAct r) s) = false) ∨
      (runActs r l s = l.foldl (runAct r) s ∧ (queueClear s = true → queueClear (l.foldl (runAct r) s) = true)) := by
  unfold runActs
  dsimp only
  split
  · rename_i h; simp only [Bool.and_eq_true, Bool.not_eq_true'] at h; exact .inl ⟨rfl, h⟩
  · rename_i h
    refine .inr ⟨rfl, fun k => ?_⟩
    simpa [k] using h

theorem keeps_runActs (r : Nat) (l : List Act) (s : State) : Keeps s (runActs r l s) := by
  rcases runActs_cases r l s with ⟨h, -⟩ | ⟨h, -⟩ <;> rw [h]
  · exact .refl s
  · exact Keeps.foldl (runAct r) (keeps_runAct r) l s

theorem queueClear_iff (s : State) : queueClear s = true ↔ Drained s.cfg s.blk := by
  unfold queueClear Drained
  cases s.blk.txEn <;> simp

theorem drained_of_fifo {c : Cfg} {b b' : Block} (h : b'.fifo = b.fifo) (k : b'.txEn = b.txEn) (d : Drained c b) :
    Drained c b' := fun e => (txItems_congr h).trans (d (k ▸ e))

theorem voidFiring_blk (t : Nat) (x : Timer) (s : State) : (voidFiring t x s).blk = s.blk := by
  unfold voidFiring; split <;> rfl
theorem timerArm_fifo (t : Nat) (s : State) : (timerArm t s).blk.fifo = s.blk.fifo := by
  unfold timerArm; split
  · rfl
  · simp [voidFiring_blk]
theorem timerArm_txEn (t : Nat) (s : State) : (timerArm t s).blk.txEn = s.blk.txEn := by
  unfold timerArm; split
  · rfl
  · simp [voidFiring_blk]
theorem timerCancel_fifo (t : Nat) (s : State) : (timerCancel t s).blk.fifo = s.blk.fifo := by
  unfold timerCancel; split
  · rfl
  · simp [voidFiring_blk]
theorem timerCancel_txEn (t : Nat) (s : State) : (timerCancel t s).blk.txEn = s.blk.txEn := by
  unfold timerCancel; split
  · rfl
  · simp [voidFiring_blk]

theorem drained_runActs (r : Nat) (l : List Act) (s : State) (d : Drained s.cfg s.blk) :
    Drained s.cfg (runActs r l s).blk := by
  rcases runActs_cases r l s with ⟨h, -⟩ | ⟨h, k⟩ <;> rw [h]
  · exact d
  · have := (queueClear_iff _).1 (k ((queueClear_iff s).2 d))
    rwa [(Keeps.foldl (runAct r) (keeps_runAct r) l s).cfg] at this

/-! ## Bindings -/

theorem mem_fieldsOf {c : Cfg} {r : Nat} {f : FieldDesc} (h : f ∈ fieldsOf c r) :
    ∃ d, c.regs[r]? = some d ∧ f ∈ d.fields := by
  unfold fieldsOf at h
  split at h
  · rename_i d hd; exact ⟨d, hd, h⟩
  · simp at h

theorem keeps_bindRead (r : Nat) (f : FieldDesc) (s : State) : Keeps s (bindRead r f s) := by
  unfold bindRead
  split
  · exact keeps_fifoPop _ s
  · exact keeps_runActs r _ s
  · exact .refl s

theorem drained_bindRead (r : Nat) (f : FieldDesc) (s : State) (d : Drained s.cfg s.blk) :
    Drained s.cfg (bindRead r f s).blk := by
  unfold bindRead
  split
  · exact (keepsTx_fifoPop _ s).drained d
  · exact drained_runActs r _ s d
  · exact d

/-- An apply keeps what every operation keeps: a `Stored` field writes stored bits only. -/
theorem keeps_bindApply (r : Nat) (f : FieldDesc) (new : Word) (s : State) (hf : f ∈ fieldsOf s.cfg r) :
    Keeps s (bindApply r f new s) := by
  obtain ⟨d, hd, hm⟩ := mem_fieldsOf hf
  unfold bindApply
  split
  · rename_i hs
    refine keeps_setReg r _ s (fun d' hd' => ?_)
    rw [hd] at hd'; cases hd'
    exact insertField_outside _ _ _ _ _ (mask_le_storedMask d f hm hs)
  · exact keeps_setPendings s _ (by simp)
  · exact keeps_irqSetEnabled _ _ s
  · exact .refl s
  · exact keeps_txByte _ s
  · exact .refl s
  · exact .refl s
  · exact .refl s
  · exact keeps_fifoSetWatermark _ _ s
  · exact keeps_fifoSetCapacity _ _ s
  · split
    · exact keeps_fifoFlush _ s
    · exact .refl s
  · exact keeps_setRxEn _ s
  · exact keeps_txEnable _ s
  · exact keeps_setLoop _ s
  · split
    · exact keeps_timerArm _ s
    · exact .refl s
  · split
    · exact keeps_timerCancel _ s
    · exact .refl s
  · exact keeps_runActs r _ s

theorem drained_bindApply (r : Nat) (f : FieldDesc) (new : Word) (s : State) (d : Drained s.cfg s.blk) :
    Drained s.cfg (bindApply r f new s).blk := by
  unfold bindApply
  split
  · exact d
  · exact d
  · exact d
  · exact d
  · exact drained_txByte _ s d
  · exact d
  · exact d
  · exact d
  · exact (keepsTx_fifoSetWatermark _ _ s).drained d
  · exact (keepsTx_fifoSetCapacity _ _ s).drained d
  · split
    · exact (keepsTx_fifoFlush _ s).drained d
    · exact d
  · exact d
  · exact drained_txEnable _ s d
  · exact d
  · split
    · exact drained_of_fifo (timerArm_fifo _ s) (timerArm_txEn _ s) d
    · exact d
  · split
    · exact drained_of_fifo (timerCancel_fifo _ s) (timerCancel_txEn _ s) d
    · exact d
  · exact drained_runActs r _ s d

/-! ## Whole reads and writes -/

/-- The state `t` may follow `s`, the drained tx FIFO included. -/
structure KeepsAll (s t : State) : Prop extends Keeps s t where
  drained : Drained s.cfg s.blk → Drained s.cfg t.blk

theorem KeepsAll.refl (s : State) : KeepsAll s s := ⟨.refl s, id⟩

theorem KeepsAll.trans {s t u : State} (h : KeepsAll s t) (k : KeepsAll t u) : KeepsAll s u :=
  ⟨h.toKeeps.trans k.toKeeps, fun d => by
    have := k.drained (by rw [h.cfg]; exact h.drained d)
    rwa [h.cfg] at this⟩

/-- A fold over operations each of which keeps all at the configuration `c`. -/
theorem KeepsAll.foldl {α : Type} (c : Cfg) (g : State → α → State) (l : List α)
    (h : ∀ s a, s.cfg = c → a ∈ l → KeepsAll s (g s a)) (s : State) (hs : s.cfg = c) : KeepsAll s (l.foldl g s) := by
  induction l generalizing s with
  | nil => exact .refl s
  | cons a l ih =>
    have h1 := h s a hs (List.mem_cons_self ..)
    exact h1.trans (ih (fun s b hs hb => h s b hs (List.mem_cons_of_mem _ hb)) (g s a) (h1.cfg.trans hs))

theorem keepsAll_bindApply (r : Nat) (f : FieldDesc) (new : Word) (s : State) (hf : f ∈ fieldsOf s.cfg r) :
    KeepsAll s (bindApply r f new s) := ⟨keeps_bindApply r f new s hf, drained_bindApply r f new s⟩

theorem keepsAll_runActs (r : Nat) (l : List Act) (s : State) : KeepsAll s (runActs r l s) :=
  ⟨keeps_runActs r l s, drained_runActs r l s⟩

theorem keepsAll_runPost (r : Nat) (h : Option Nat) (s : State) : KeepsAll s (runPost r h s) := by
  unfold runPost
  split
  · exact .refl s
  · exact keepsAll_runActs r _ s

theorem keepsAll_readField (r : Nat) (be : Word) (p : State × Word) (f : FieldDesc) :
    KeepsAll p.1 (readField r be p f).1 := by
  unfold readField
  split
  · exact .refl p.1
  · dsimp only
    split
    · exact ⟨keeps_bindRead r f p.1, drained_bindRead r f p.1⟩
    · exact .refl p.1

theorem keepsAll_readLoop (r : Nat) (be : Word) (s : State) : KeepsAll s (readLoop r be s).1 := by
  have : ∀ (l : List FieldDesc) (p : State × Word), KeepsAll p.1 (l.foldl (readField r be) p).1 := by
    intro l
    induction l with
    | nil => intro p; exact .refl p.1
    | cons f l ih => intro p; exact (keepsAll_readField r be p f).trans (ih _)
  exact this _ (s, s.regWord r)

theorem keepsAll_readMasked (r : Nat) (be : Word) (s : State) : KeepsAll s (readMasked r be s).1 := by
  unfold readMasked
  have h1 := keepsAll_readLoop r be s
  refine (h1.trans (KeepsAll.foldl s.cfg (clearField r be) _ ?_ _ h1.cfg)).trans (keepsAll_runPost r _ _)
  intro s' f hs hf
  unfold clearField
  split
  · exact keepsAll_bindApply r f 0 s' (by rw [hs]; exact hf)
  · exact .refl s'

theorem mem_fieldWrites {c : Cfg} {b : Block} {r : Nat} {v be : Word} {w : FieldWrite} (h : w ∈ fieldWrites c b r v be) :
    w.1 ∈ fieldsOf c r := by
  simp only [fieldWrites, List.mem_map, List.mem_filter] at h
  obtain ⟨f, ⟨hf, -⟩, rfl⟩ := h
  exact hf

theorem keepsAll_writeMasked (r : Nat) (v be : Word) (s : State) : KeepsAll s (writeMasked r v be s) := by
  unfold writeMasked
  have h1 : KeepsAll s ((fieldWrites s.cfg s.blk r v be).foldl (applyWrite r) s) :=
    KeepsAll.foldl s.cfg (applyWrite r) _ (fun s' w hs hw =>
      keepsAll_bindApply r w.1 w.2.2 s' (by rw [hs]; exact mem_fieldWrites hw)) s rfl
  have h2 : ∀ s', KeepsAll s' ((fieldWrites s.cfg s.blk r v be).foldl (effectWrite r) s') := fun s' =>
    KeepsAll.foldl s'.cfg (effectWrite r) _ (fun s'' w _ _ => by
      unfold effectWrite
      split
      · exact .refl s''
      · exact keepsAll_runActs r _ s'') s' rfl
  exact (h1.trans (h2 _)).trans (keepsAll_runPost r _ _)

end Sys2Proof.Machine
end

