-- ==== Sys2Proof/Laws/Compose.lean ====
section
/-! SUPPORT. Words composed of fields (40_register_file.md R78, R79): which bits a composition writes, and with what. -/

namespace Sys2Proof.Machine

/-- Field `f` covers bit `j`. -/
def FieldDesc.hits (f : FieldDesc) (j : Nat) : Prop := f.off ≤ j ∧ j < f.off + f.wid

/-- The fields of a register as construction leaves them: inside 32 bits, at least one bit wide, sharing no bit. -/
structure Laid (l : List FieldDesc) : Prop where
  inside : ∀ f ∈ l, 1 ≤ f.wid ∧ f.off + f.wid ≤ 32
  apart : l.Pairwise (fun f g => ∀ j, ¬ (FieldDesc.hits f j ∧ FieldDesc.hits g j))

theorem Laid.tail {f : FieldDesc} {l : List FieldDesc} (h : Laid (f :: l)) : Laid l :=
  ⟨fun g hg => h.inside g (List.mem_cons_of_mem _ hg), (List.pairwise_cons.1 h.apart).2⟩

theorem laid_of_valid {c : Cfg} (hv : validCfg c = true) {d : RegDesc} (hd : d ∈ c.regs) :
    Laid d.fields ∧ ∀ f ∈ d.fields, f.off + f.wid ≤ d.w := by
  have h := (checked_of_valid hv).fields
  simp only [checkFields, List.all_eq_true, Bool.and_eq_true, decide_eq_true_eq] at h
  obtain ⟨h1, h2⟩ := h d hd
  have hw := (regWidth_of_valid hv hd).1
  have hin : ∀ f ∈ d.fields, 1 ≤ f.wid ∧ f.off + f.wid ≤ 32 := fun f hf => by have := h1 f hf; omega
  refine ⟨⟨hin, ?_⟩, fun f hf => (h1 f hf).2⟩
  refine h2.imp_of_mem (fun {f g} hf hg hdj j hj => ?_)
  simp only [disjointFields, decide_eq_true_eq] at hdj
  have := congrArg (fun w => BitVec.getLsbD w j) hdj
  have hf := hin f hf
  have hg := hin g hg
  obtain ⟨⟨a, b⟩, ⟨e, k⟩⟩ := hj
  rw [BitVec.getLsbD_and, mask_getLsbD _ _ _ (show f.wid ≤ 32 by omega), mask_getLsbD _ _ _ (show g.wid ≤ 32 by omega)] at this
  have hj32 : j < 32 := by omega
  simp [hj32, a, b, e, k] at this

/-- Two fields of a laid list that share a bit are one field. -/
theorem Laid.unique {l : List FieldDesc} (h : Laid l) {f g : FieldDesc} (hf : f ∈ l) (hg : g ∈ l) {j : Nat}
    (hj : FieldDesc.hits f j) (hk : FieldDesc.hits g j) : f = g := by
  rcases disjoint_of_pairwise (fun x y k j hj => k j ⟨hj.2, hj.1⟩) h.apart hf hg with h | h
  · exact h
  · exact absurd ⟨hj, hk⟩ (h j)

/-- Inserting a list of fields, each with its value, into a word. -/
def insertAll (val : FieldDesc → Word) (acc : Word) (l : List FieldDesc) : Word :=
  l.foldl (fun acc f => insertField acc f.off f.wid (val f)) acc

theorem insertAll_outside (val : FieldDesc → Word) (acc : Word) (l : List FieldDesc) (hw : ∀ f ∈ l, f.wid ≤ 32) (j : Nat)
    (h : ∀ f ∈ l, ¬ FieldDesc.hits f j) : (insertAll val acc l).getLsbD j = acc.getLsbD j := by
  unfold insertAll
  induction l generalizing acc with
  | nil => rfl
  | cons f l ih =>
    rw [List.foldl_cons, ih _ (fun g hg => hw g (List.mem_cons_of_mem _ hg)) (fun g hg => h g (List.mem_cons_of_mem _ hg)),
      insertField_getLsbD _ _ _ _ _ (hw f (List.mem_cons_self ..))]
    rw [if_neg (show ¬ (f.off ≤ j ∧ j < f.off + f.wid) from h f (List.mem_cons_self ..))]

theorem insertAll_inside (val : FieldDesc → Word) (acc : Word) (l : List FieldDesc) (hl : Laid l) (j : Nat) (f : FieldDesc)
    (hf : f ∈ l) (h : FieldDesc.hits f j) : (insertAll val acc l).getLsbD j = (val f).getLsbD (j - f.off) := by
  unfold insertAll
  induction l generalizing acc with
  | nil => cases hf
  | cons g l ih =>
    rw [List.foldl_cons]
    have hg := hl.inside g (List.mem_cons_self ..)
    rcases List.mem_cons.1 hf with rfl | hf
    · have := insertAll_outside val (insertField acc f.off f.wid (val f)) l
        (fun x hx => by have := hl.inside x (List.mem_cons_of_mem _ hx); omega) j
        (fun x hx hh => (List.pairwise_cons.1 hl.apart).1 x hx j ⟨h, hh⟩)
      unfold insertAll at this
      rw [this, insertField_getLsbD _ _ _ _ _ (by omega)]
      have : j < 32 := by have := h.2; omega
      rw [if_pos (show f.off ≤ j ∧ j < f.off + f.wid from h)]; simp [this]
    · exact ih _ hl.tail hf

theorem insertAll_slice (val : FieldDesc → Word) (acc : Word) (l : List FieldDesc) (hl : Laid l) (f : FieldDesc) (hf : f ∈ l) :
    slice (insertAll val acc l) f.off f.wid = trunc f.wid (val f) := by
  have hi := hl.inside f hf
  apply BitVec.eq_of_getLsbD_eq
  intro j _
  rw [slice_getLsbD _ _ _ _ (by omega), trunc_getLsbD _ _ _ (by omega)]
  by_cases hj : j < f.wid
  · rw [insertAll_inside val acc l hl (f.off + j) f hf ⟨by omega, by omega⟩]
    simp
  · simp [hj]

theorem trunc_trunc (n : Nat) (v : Word) : trunc n (trunc n v) = trunc n v := by
  simp [trunc, BitVec.and_assoc]

theorem trunc_zero (n : Nat) : trunc n (0 : Word) = 0 := by simp [trunc]

theorem composeFrom_eq (c : Cfg) (b : Block) (r : Nat) (acc : Word) (l : List FieldDesc) :
    composeFrom c b r acc l = insertAll (shownValue c b r) acc l := rfl

theorem peekReg_eq (c : Cfg) (b : Block) (r : Nat) :
    peekReg c b r = insertAll (shownValue c b r) (b.reg.getD r 0) (fieldsOf c r) := rfl

theorem fieldsOf_of {c : Cfg} {r : Nat} {d : RegDesc} (hd : c.regs[r]? = some d) : fieldsOf c r = d.fields := by
  simp [fieldsOf, hd]

/-- The fields of any register of a valid configuration are laid out. -/
theorem laid_fieldsOf {c : Cfg} (hv : validCfg c = true) (r : Nat) : Laid (fieldsOf c r) := by
  rcases hd : c.regs[r]? with _ | d
  · simp only [fieldsOf, hd]; exact ⟨by simp, .nil⟩
  · rw [fieldsOf_of hd]; exact (laid_of_valid hv (List.mem_of_getElem? hd)).1

/-- Inserting a field's own value, cut or not, is the same. -/
theorem insertField_trunc (v : Word) (off wid : Nat) (x : Word) : insertField v off wid (trunc wid x) = insertField v off wid x := by
  simp [insertField, trunc_trunc]

theorem bindingAllowed_of_valid {c : Cfg} (hv : validCfg c = true) {r : Nat} {f : FieldDesc} (hf : f ∈ fieldsOf c r) :
    bindingAllowed c f = true := by
  obtain ⟨d, hd, hm⟩ := mem_fieldsOf hf
  have hb := (checked_of_valid hv).bindings
  simp only [checkBindings, Bool.and_eq_true, List.all_eq_true] at hb
  exact hb.1 d (List.mem_of_getElem? hd) f hm

end Sys2Proof.Machine
end

