-- ==== Sys2Proof/Laws/Checks.lean ====
section
/-! SUPPORT. The checks of construction one by one: each decides what 70_reset_and_hazards.md R155 asks, in the terms of Safety.lean. -/

namespace Sys2Proof.Machine

/-- A word fits `w` bits. -/
theorem trunc_eq_self_iff (w : Nat) (hw : w ≤ 32) (v : Word) : trunc w v = v ↔ v.toNat < 2 ^ w := by
  have h : (trunc w v).toNat = v.toNat % 2 ^ w := by
    unfold trunc ones
    rw [BitVec.toNat_and, BitVec.toNat_ofNat]
    have : (2 ^ w - 1) % 2 ^ 32 = 2 ^ w - 1 := Nat.mod_eq_of_lt (by
      have := Nat.pow_le_pow_right (n := 2) (by omega) hw; have := Nat.one_le_two_pow (n := w); omega)
    rw [this, Nat.and_two_pow_sub_one_eq_mod]
  rw [← BitVec.toNat_inj, h]
  constructor
  · intro e; rw [← e]; exact Nat.mod_lt _ (Nat.two_pow_pos w)
  · exact Nat.mod_eq_of_lt

theorem isPow2_iff (n : Nat) : isPow2 n = true ↔ ∃ e, n = 2 ^ e := by
  simp only [isPow2, decide_eq_true_eq]
  constructor
  · exact fun h => ⟨_, h⟩
  · rintro ⟨e, rfl⟩; rw [Nat.log2_two_pow]

theorem checkWidths_iff (c : Cfg) :
    checkWidths c = true ↔ ∀ r ∈ c.regs, (r.w = 8 ∨ r.w = 16 ∨ r.w = 32) ∧ r.resetValue.toNat < 2 ^ r.w := by
  simp only [checkWidths, List.all_eq_true, Bool.and_eq_true, Bool.or_eq_true, beq_iff_eq, decide_eq_true_eq, or_assoc]
  refine forall₂_congr (fun r _ => and_congr_right (fun h => trunc_eq_self_iff _ (by omega) _))

/-- Two fields inside a word share no bit exactly when one lies below the other. -/
theorem disjointFields_iff (f g : FieldDesc) (hf : 1 ≤ f.wid ∧ f.off + f.wid ≤ 32) (hg : 1 ≤ g.wid ∧ g.off + g.wid ≤ 32) :
    disjointFields f g = true ↔ f.off + f.wid ≤ g.off ∨ g.off + g.wid ≤ f.off := by
  simp only [disjointFields, decide_eq_true_eq]
  constructor
  · intro h
    by_contra hn
    have hb : (mask f.off f.wid &&& mask g.off g.wid).getLsbD (max f.off g.off) = true := by
      rw [BitVec.getLsbD_and, mask_getLsbD _ _ _ (by omega), mask_getLsbD _ _ _ (by omega)]
      simp only [Bool.and_eq_true, decide_eq_true_eq]; omega
    rw [h] at hb; simp at hb
  · intro h
    apply BitVec.eq_of_getLsbD_eq
    intro j _
    rw [BitVec.getLsbD_and, mask_getLsbD _ _ _ (by omega), mask_getLsbD _ _ _ (by omega)]
    refine Eq.trans ?_ BitVec.getLsbD_zero.symm
    rw [Bool.eq_false_iff]
    simp only [ne_eq, Bool.and_eq_true, decide_eq_true_eq]; omega

theorem checkFields_iff (c : Cfg) (hw : ∀ r ∈ c.regs, r.w ≤ 32) :
    checkFields c = true ↔ (∀ r ∈ c.regs, ∀ f ∈ r.fields, 1 ≤ f.wid ∧ f.off + f.wid ≤ r.w) ∧
      ∀ r ∈ c.regs, r.fields.Pairwise (fun f g => f.off + f.wid ≤ g.off ∨ g.off + g.wid ≤ f.off) := by
  simp only [checkFields, List.all_eq_true, Bool.and_eq_true, decide_eq_true_eq]
  rw [← forall₂_and]
  refine forall₂_congr (fun r hr => and_congr_right (fun h => List.Pairwise.iff_of_mem (fun {f g} hf hg => ?_)))
  have := h f hf; have := h g hg; have := hw r hr
  exact disjointFields_iff f g (by omega) (by omega)

theorem checkAlignment_iff (c : Cfg) :
    checkAlignment c = true ↔ (∀ r ∈ c.regs, r.addr.toNat % (r.w / 8) = 0) ∧
      c.setOffset.toNat % 4 = 0 ∧ c.clearOffset.toNat % 4 = 0 ∧ c.toggleOffset.toNat % 4 = 0 := by
  simp only [checkAlignment, List.all_eq_true, Bool.and_eq_true, beq_iff_eq, and_assoc]

theorem checkRanges_iff (c : Cfg) :
    checkRanges c = true ↔
      ((∀ x ∈ c.spans, x.base + x.len ≤ 2 ^ 64) ∧ c.spans.Pairwise (fun x y => x.base + x.len ≤ y.base ∨ y.base + y.len ≤ x.base)) ∧
      (c.hasAlias = true → c.setOffset ≠ c.clearOffset ∧ c.setOffset ≠ c.toggleOffset ∧ c.clearOffset ≠ c.toggleOffset ∧
        c.setOffset ≠ 0 ∧ c.clearOffset ≠ 0 ∧ c.toggleOffset ≠ 0) := by
  simp only [checkRanges, List.all_eq_true, Bool.and_eq_true, decide_eq_true_eq, disjointSpans, Bool.or_eq_true, and_assoc]
  cases c.hasAlias <;> simp

theorem hasRole_iff (c : Cfg) (q : Nat) (r : Role) : hasRole c q r = true ↔ ∃ d, c.fifos[q]? = some d ∧ d.role = r := by
  unfold hasRole
  cases h : c.fifos[q]? <;> simp

theorem bindingAllowed_iff (c : Cfg) (f : FieldDesc) : bindingAllowed c f = true ↔ FieldAllowed c f := by
  unfold bindingAllowed FieldAllowed
  cases f.bind with
  | irqPending i =>
    cases h : eff c i <;> simp [pendingMode, h, and_assoc]
  | uartData qr qt =>
    rcases qr with _ | q <;> rcases qt with _ | t <;> simp [uartMode, hasRole_iff, and_assoc]
  | _ => simp [and_assoc, or_assoc]

theorem checkBindings_iff (c : Cfg) :
    checkBindings c = true ↔ (∀ r ∈ c.regs, ∀ f ∈ r.fields, FieldAllowed c f) ∧
      ∀ i, (c.regs.flatMap (·.fields)).countP (fun f => decide (f.bind = .irqPending i)) ≤ 1 := by
  simp only [checkBindings, List.all_eq_true, Bool.and_eq_true, decide_eq_true_eq, bindingAllowed_iff]
  refine and_congr_right (fun _ => ?_)
  have h : ∀ l : List RegDesc, l.flatMap (fun r => r.fields.filterMap pendingOf) = (l.flatMap (·.fields)).filterMap pendingOf := by
    intro l; induction l with
    | nil => rfl
    | cons r l ih => simp [List.filterMap_append, ih]
  rw [h, List.nodup_iff_count_le_one]
  refine forall_congr' (fun i => ?_)
  have : ∀ l : List FieldDesc, (l.filterMap pendingOf).count i = l.countP (fun f => decide (f.bind = .irqPending i)) := by
    intro l; induction l with
    | nil => rfl
    | cons f l ih =>
      rw [List.countP_cons, ← ih, List.filterMap_cons]
      unfold pendingOf
      cases f.bind <;> simp
      rename_i j
      by_cases e : j = i <;> simp [e]
  rw [this]

theorem eventExists_iff (c : Cfg) (e : IEvent) : eventExists c e = true ↔ EventExists c e := by
  cases e <;> simp [eventExists, EventExists]

theorem checkSources_iff (c : Cfg) :
    checkSources c = true ↔ (∀ d ∈ c.sources, d.cond.isSome = true ↔ d.clear = .autoClear) ∧
      (∀ l ∈ c.lines, ∀ i ∈ l.sources, i < c.sources.length) ∧
      ∀ d ∈ c.sources, (∀ q p, d.cond = some (.fifo q p) → q < c.fifos.length) ∧ ∀ e ∈ d.triggers, EventExists c e := by
  simp only [checkSources, List.all_eq_true, Bool.and_eq_true, decide_eq_true_eq, eventExists_iff]
  have h : ∀ d : SourceDesc, d.cond.all (condExists c) = true ↔ ∀ q p, d.cond = some (.fifo q p) → q < c.fifos.length := by
    intro d
    rcases d.cond with _ | ⟨q, p⟩ | n <;> simp [condExists]
  simp only [h]
  constructor
  · exact fun k => ⟨fun d hd => (k.1 d hd).1.1, k.2, fun d hd => ⟨(k.1 d hd).1.2, (k.1 d hd).2⟩⟩
  · exact fun k => ⟨fun d hd => ⟨⟨k.1 d hd, (k.2.2 d hd).1⟩, (k.2.2 d hd).2⟩, k.2.1⟩

theorem checkFifos_iff (c : Cfg) :
    checkFifos c = true ↔ ((c.fifos.length = 1 ∨ c.fifos.length = 2) ∧ (c.fifos.map (·.role)).Nodup) ∧
      ∀ d ∈ c.fifos, 1 ≤ d.capReset ∧ 1 ≤ d.capFifoMode ∧ d.wmReset ≤ d.capReset ∧ (d.dummy = 0x00 ∨ d.dummy = 0xFF) ∧
        (d.pow2 = true → (∃ e, d.capReset = 2 ^ e) ∧ ∃ e, d.capFifoMode = 2 ^ e) := by
  simp only [checkFifos, List.all_eq_true, Bool.and_eq_true, Bool.or_eq_true, beq_iff_eq, decide_eq_true_eq, isPow2_iff]
  refine and_congr_right (fun _ => forall₂_congr (fun d _ => ?_))
  cases d.pow2 <;> simp <;> tauto

theorem checkSignals_iff (c : Cfg) :
    checkSignals c = true ↔
      ∀ g ∈ c.signals, (∀ l, g.expr = .line l → l < c.lines.length) ∧ ∀ q p, g.expr = .fifo q p → q < c.fifos.length := by
  simp only [checkSignals, List.all_eq_true]
  refine forall₂_congr (fun g _ => ?_)
  cases g.expr <;> simp
end Sys2Proof.Machine
end

