-- ==== Sys2Proof/Laws/Paths.lean ====
section
/-! SUPPORT. What pushes, pops, the receive and transmit paths and the timer primitives do, in the terms of Safety.lean, and what
none of them touches: enable flags, control bits, and pending flags that are set (`Quiet`). -/

namespace Sys2Proof.Machine

/-! ## Traces -/

theorem outputs_append (a b : List Event) : outputs (a ++ b) = outputs a ++ outputs b := by simp [outputs]

theorem outputs_notice (q : Nat) (f g : Fifo) : outputs (fifoNotice q f g) = fifoNotice q f g := by
  unfold fifoNotice noticeTrace; split <;> simp [outputs, Event.architectural]

theorem sentBytes_append (a b : List Event) : sentBytes (a ++ b) = sentBytes a ++ sentBytes b := by simp [sentBytes]

theorem sentBytes_notice (q : Nat) (f g : Fifo) : sentBytes (fifoNotice q f g) = [] := by
  unfold fifoNotice noticeTrace; split <;> simp [sentBytes]

/-! ## Pushes and pops -/

/-- FIFO_PUSH, room or not (42_fifo.md R116). -/
theorem fifoPush_eq (q : Nat) (x : Byte) (s : State) (f : Fifo) (h : s.blk.fifo[q]? = some f) :
    (fifoPush q x s).blk = pushBlock s.cfg s.blk q f x ∧
      outputs (fifoPush q x s).trace = outputs s.trace ++ pushEvents q f x := by
  rcases Nat.lt_or_ge f.items.length f.cap with hr | hf
  · rw [fifoPush_room q x s f h hr]
    have : ¬ f.cap ≤ f.items.length := by omega
    simp [pushBlock, pushEvents, this, outputs_append, outputs_notice]
  · rw [fifoPush_full q x s f h hf]
    simp [pushBlock, pushEvents, hf, raise_eq, State.diag, State.emit, outputs_append, State.setPendings]
    simp [outputs, Event.architectural]

/-- FIFO_POP, empty or not (42_fifo.md R117). -/
theorem fifoPop_eq (q : Nat) (s : State) (f : Fifo) (h : s.blk.fifo[q]? = some f) :
    (fifoPop q s).blk = popBlock s.cfg s.blk q f ∧ outputs (fifoPop q s).trace = outputs s.trace ++ popEvents q f := by
  rcases hi : f.items with _ | ⟨b, rest⟩
  · rw [fifoPop_empty q s f h hi]
    simp [popBlock, popEvents, hi, raise_eq, State.diag, State.emit, outputs_append, State.setPendings]
    simp [outputs, Event.architectural]
  · rw [fifoPop_item q s f b rest h hi]
    simp [popBlock, popEvents, hi, outputs_append, outputs_notice]

/-! ## Receive and transmit paths (43_peripheral.md R124, R126) -/

theorem rxPath_drop (x : Byte) (s : State) (h : s.blk.rxEn = false ∨ fifoOf s.cfg .rx = none) :
    rxPath x s = s.diag (.rxDropped x) := by
  unfold rxPath
  rcases h with h | h
  · rw [h]; cases fifoOf s.cfg .rx <;> rfl
  · rw [h]

theorem rxPath_push (x : Byte) (s : State) (q : Nat) (h : s.blk.rxEn = true) (hq : fifoOf s.cfg .rx = some q) :
    rxPath x s = fifoPush q x s := by
  unfold rxPath; rw [hq, h]

theorem deliver_line (x : Byte) (s : State) (h : s.blk.loopOn = false) : deliver x s = s.emit (.transmit x) := by
  unfold deliver; rw [h]; rfl

theorem deliver_loop (x : Byte) (s : State) (h : s.blk.loopOn = true) : (deliver x s).blk = (rxPath x s).blk ∧
    (deliver x s).trace = (rxPath x s).trace ++ (if s.cfg.loopbackAlsoTransmits then [.transmit x] else []) := by
  unfold deliver; rw [h]; simp only [if_true, (keeps_rxPath x s).cfg]
  cases s.cfg.loopbackAlsoTransmits <;> simp [State.emit]

/-! ## TX_DRAIN (43_peripheral.md R129) -/

@[simp] theorem Into.raises_none (x : Byte) : Into.raises none x = [] := rfl
@[simp] theorem drainRaises_nil (q : Nat) (f : Fifo) (into : Into) : drainRaises q f into [] = [] := rfl
@[simp] theorem Into.events_none (x : Byte) : Into.events none x = [] := rfl
@[simp] theorem Into.events_some (r : Nat) (g : Fifo) (x : Byte) : Into.events (some (r, g)) x = pushEvents r g x := rfl
@[simp] theorem Into.pushed_none (x : Byte) : Into.pushed none x = none := rfl
@[simp] theorem Into.pushed_some (r : Nat) (g : Fifo) (x : Byte) : Into.pushed (some (r, g)) x = some (r, pushedFifo g x) := rfl
@[simp] theorem outputs_line (line : Bool) (x : Byte) :
    outputs (if line then [.transmit x] else []) = if line then [.transmit x] else [] := by cases line <;> rfl
@[simp] theorem outputs_transmit (x : Byte) : outputs [.transmit x] = [.transmit x] := rfl
@[simp] theorem outputs_diag (d : Diag) : outputs [.diag d] = [] := rfl

/-- A push in the terms of the FIFO after it and the events it raises (42_fifo.md R116). -/
theorem pushBlock_eq (c : Cfg) (b : Block) (q : Nat) (f : Fifo) (x : Byte) (h : b.fifo[q]? = some f) :
    pushBlock c b q f x =
      { b with fifo := b.fifo.set q (pushedFifo f x), pending := triggered c (pushRaises q f x) b.pending } := by
  unfold pushBlock pushedFifo pushRaises
  split
  · obtain ⟨hq, e⟩ := List.getElem?_eq_some_iff.1 h
    rw [← e, List.set_getElem_self]
  · rename_i hr
    simp [Block.afterFifo, pushedFifo, hr]

/-- Where the bytes of a drain go: `line` says whether they reach the line, `into` is the rx FIFO they are pushed to, if any
(R126, R124). -/
inductive Handed (s : State) : Bool → Into → Prop where
  | line (h : s.blk.loopOn = false) : Handed s true none
  | lost (h : s.blk.loopOn = true) (d : s.blk.rxEn = false ∨ fifoOf s.cfg .rx = none) : Handed s s.cfg.loopbackAlsoTransmits none
  | looped (r : Nat) (g : Fifo) (h : s.blk.loopOn = true) (e : s.blk.rxEn = true) (hr : fifoOf s.cfg .rx = some r)
    (hg : s.blk.fifo[r]? = some g) : Handed s s.cfg.loopbackAlsoTransmits (some (r, g))

/-- The FIFOs after the bytes `l` went where a drain hands them. -/
def handedFifos (into : Into) (l : List Byte) (fs : List Fifo) : List Fifo :=
  match into with
  | none => fs
  | some (r, g) => fs.set r (l.foldl pushedFifo g)

/-- One byte handed on. -/
theorem deliver_handed {s : State} {line : Bool} {into : Into} (h : Handed s line into) (x : Byte) :
    (deliver x s).blk = { s.blk with
      fifo := handedFifos into [x] s.blk.fifo
      pending := triggered s.cfg (into.raises x) s.blk.pending } ∧
    outputs (deliver x s).trace = outputs s.trace
      ++ (into.events x ++ if line then [.transmit x] else []) ∧
    Handed (deliver x s) line (into.pushed x) := by
  have hc := (keeps_deliver x s).cfg
  cases h with
  | line h =>
    rw [deliver_line x s h]
    exact ⟨by simp [State.emit, handedFifos], by simp [State.emit, outputs_append], .line h⟩
  | lost h d =>
    obtain ⟨e1, e2⟩ := deliver_loop x s h
    rw [rxPath_drop x s d] at e1 e2
    refine ⟨by rw [e1]; simp [State.diag, State.emit, handedFifos], ?_, ?_⟩
    · rw [e2]
      simp only [State.diag, State.emit, outputs_append, outputs_diag, outputs_line, List.append_nil, Into.events_none, List.nil_append]
    · rw [← hc]; exact .lost (by rw [e1]; exact h) (by rw [e1, hc]; exact d)
  | looped r g h e hr hg =>
    obtain ⟨e1, e2⟩ := deliver_loop x s h
    rw [rxPath_push x s r e hr] at e1 e2
    obtain ⟨p1, p2⟩ := fifoPush_eq r x s g hg
    rw [p1, pushBlock_eq _ _ _ _ _ hg] at e1
    refine ⟨e1, ?_, ?_⟩
    · rw [e2, outputs_append, p2, List.append_assoc]
      simp
    · rw [← hc]
      refine .looped r _ (by rw [e1]; exact h) (by rw [e1]; exact e) (by rw [hc]; exact hr) ?_
      rw [e1]; simp [List.getElem?_set_self (List.getElem?_eq_some_iff.1 hg).1]

/-- The loop of TX_DRAIN, from enough rounds for every item: the block and the architectural events it leaves. -/
theorem drainLoop_eq (q n : Nat) : ∀ (s : State) (f : Fifo) (line : Bool) (into : Into),
    fifoOf s.cfg .tx = some q → s.blk.fifo[q]? = some f → f.items.length ≤ n → Handed s line into →
      (drainLoop q n s).blk = { s.blk with
        fifo := handedFifos into f.items (s.blk.fifo.set q (drainedFifo f))
        pending := triggered s.cfg (drainRaises q f into f.items) s.blk.pending } ∧
      outputs (drainLoop q n s).trace = outputs s.trace ++ drainOutputs q line f into f.items := by
  have hdone : ∀ (s : State) (f : Fifo) (line : Bool) (into : Into), s.blk.fifo[q]? = some f → f.items = [] →
      Handed s line into → s.blk = { s.blk with
        fifo := handedFifos into f.items (s.blk.fifo.set q (drainedFifo f))
        pending := triggered s.cfg (drainRaises q f into f.items) s.blk.pending } ∧
      outputs s.trace = outputs s.trace ++ drainOutputs q line f into f.items := by
    intro s f line into h hi hh
    obtain ⟨hq, e⟩ := List.getElem?_eq_some_iff.1 h
    have h1 : s.blk.fifo.set q f = s.blk.fifo := by rw [← e, List.set_getElem_self]
    rw [drainedFifo, if_pos hi, hi, h1, drainRaises_nil, triggered_nil]
    refine ⟨?_, by simp [drainOutputs]⟩
    cases hh with
    | line => rfl
    | lost => rfl
    | looped r g h e hr hg =>
      obtain ⟨hr, e⟩ := List.getElem?_eq_some_iff.1 hg
      simp only [handedFifos, List.foldl_nil]
      rw [← e, List.set_getElem_self]
  induction n with
  | zero => intro s f line into _ h hn hh; exact hdone s f line into h (List.length_eq_zero_iff.1 (by omega)) hh
  | succ n ih =>
    intro s f line into hq h hn hh
    unfold drainLoop
    rw [h]
    rcases hi : f.items with _ | ⟨x, rest⟩
    · have := hdone s f line into h hi hh; rw [hi] at this; simpa only [hi] using this
    simp only [hi]
    have hql : q < s.blk.fifo.length := (List.getElem?_eq_some_iff.1 h).1
    have hp := fifoPop_item q s f x rest h hi
    have hne : ∀ r g, into = some (r, g) → r ≠ q := by
      rintro r g rfl e; cases hh with
      | looped _ _ _ _ hr _ => exact fifoOf_rx_ne_tx s.cfg r hr (e ▸ hq)
    have hh1 : Handed (fifoPop q s) line into := by
      rw [hp]
      cases hh with
      | line h => exact .line h
      | lost h d => exact .lost h d
      | looped r g h e hr hg =>
        exact .looped r g h e hr (by
          simp only [Block.afterFifo]; rw [List.getElem?_set_ne (hne r g rfl).symm]; exact hg)
    obtain ⟨d1, d2, d3⟩ := deliver_handed hh1 x
    have hc : (deliver x (fifoPop q s)).cfg = s.cfg := (keeps_deliver _ _).cfg.trans (by rw [hp])
    have hf : (deliver x (fifoPop q s)).blk.fifo[q]? = some (settledFifo rest f.cap f.wm) := by
      rw [deliver_txFifo x _ q (by rw [hp]; exact hq), hp]
      simp [Block.afterFifo, List.getElem?_set_self hql]
    have hl : (settledFifo rest f.cap f.wm).items.length ≤ n := by rw [hi] at hn; simpa [settledFifo_eq] using hn
    obtain ⟨k1, k2⟩ := ih (deliver x (fifoPop q s)) _ line _ (by rw [hc]; exact hq) hf hl d3
    have hrest : ∀ l, drainedFifo (settledFifo l f.cap f.wm) = settledFifo [] f.cap f.wm := by
      intro l; unfold drainedFifo; split
      · rename_i e; have : l = [] := e; rw [this]
      · rfl
    have hdr : drainedFifo f = settledFifo [] f.cap f.wm := by unfold drainedFifo; rw [hi]; rfl
    refine ⟨?_, ?_⟩
    · rw [k1, d1, hc, hrest, hdr, hp]
      simp only [Block.afterFifo, settledFifo_eq, drainRaises, triggered_append, List.nil_append]
      congr 1
      cases into with
      | none => simp only [handedFifos, Into.pushed_none, List.set_set]
      | some p =>
        obtain ⟨r, g⟩ := p
        simp only [handedFifos, Into.pushed_some, List.foldl_cons, List.foldl_nil]
        rw [List.set_comm _ _ (hne r g rfl), List.set_set, List.set_set]
    · rw [k2, d2, hp]
      simp only [outputs_append, outputs_notice, drainOutputs, settledFifo_eq, List.append_assoc]
/-! ## Timers (43_peripheral.md R133, R134) -/

theorem timerArm_eq (t : Nat) (s : State) (x : Timer) (h : s.blk.timer[t]? = some x) :
    (timerArm t s).blk = { s.blk with timer := s.blk.timer.set t ⟨.armed, x.token + 1⟩ } ∧
      (timerArm t s).trace =
        s.trace ++ (if x.phase = .armed then [.timerCancel t x.token] else []) ++ [.timerSchedule t (x.token + 1)] := by
  unfold timerArm voidFiring; rw [h]; dsimp only; split <;> simp [State.emit, State.setTimer]

theorem timerCancel_eq (t : Nat) (s : State) (x : Timer) (h : s.blk.timer[t]? = some x) :
    (timerCancel t s).blk = { s.blk with timer := s.blk.timer.set t ⟨.idle, x.token + 1⟩ } ∧
      (timerCancel t s).trace = s.trace ++ (if x.phase = .armed then [.timerCancel t x.token] else []) := by
  unfold timerCancel voidFiring; rw [h]; dsimp only; split <;> simp [State.emit, State.setTimer]

/-! ## What none of them touches -/

/-- From `s` to `t` the configuration, the enable flags and the control bits stay, and no set pending flag falls. -/
structure Quiet (s t : State) : Prop where
  cfg : t.cfg = s.cfg
  enabled : t.blk.enabled = s.blk.enabled
  txEn : t.blk.txEn = s.blk.txEn
  rxEn : t.blk.rxEn = s.blk.rxEn
  loopOn : t.blk.loopOn = s.blk.loopOn
  pending : ∀ n, s.blk.isPending n = true → t.blk.isPending n = true

theorem Quiet.refl (s : State) : Quiet s s := ⟨rfl, rfl, rfl, rfl, rfl, fun _ h => h⟩

theorem Quiet.trans {s t u : State} (h : Quiet s t) (k : Quiet t u) : Quiet s u :=
  ⟨k.cfg.trans h.cfg, k.enabled.trans h.enabled, k.txEn.trans h.txEn, k.rxEn.trans h.rxEn, k.loopOn.trans h.loopOn,
    fun n p => k.pending n (h.pending n p)⟩

/-- Internal events only set flags (41_interrupts.md R103). -/
theorem triggered_keeps (c : Cfg) (es : List IEvent) (p : List Bool) (n : Nat) (h : p.getD n false = true) :
    (triggered c es p).getD n false = true := by
  rw [List.getD_eq_getElem?_getD] at h ⊢
  rw [triggered_getElem?]
  cases hp : p[n]? <;> simp_all

theorem quiet_emit (s : State) (e : Event) : Quiet s (s.emit e) := ⟨rfl, rfl, rfl, rfl, rfl, fun _ h => h⟩

theorem quiet_diag (s : State) (d : Diag) : Quiet s (s.diag d) := quiet_emit s _

theorem quiet_raise (e : IEvent) (s : State) : Quiet s (raise e s) := by
  rw [raise_eq]; exact ⟨rfl, rfl, rfl, rfl, rfl, fun n h => triggered_keeps _ _ _ n h⟩

theorem quiet_afterFifo {s t : State} (hc : t.cfg = s.cfg) {q : Nat} {f g : Fifo} {es : List IEvent}
    (h : t.blk = Block.afterFifo s.cfg s.blk q f g es) : Quiet s t := by
  refine ⟨hc, ?_, ?_, ?_, ?_, fun n p => ?_⟩ <;> rw [h]
  all_goals first
    | rfl
    | exact triggered_keeps _ _ _ n p

theorem quiet_refit (q : Nat) (f : Fifo) (items : List Byte) (cap wm : Nat) (s : State) (h : s.blk.fifo[q]? = some f) :
    Quiet s (refit q f items cap wm s) := by
  rw [refit_eq q f items cap wm s h]; exact quiet_afterFifo rfl rfl

theorem quiet_fifoPush (q : Nat) (x : Byte) (s : State) : Quiet s (fifoPush q x s) := by
  rcases h : s.blk.fifo[q]? with _ | f
  · rw [fifoPush_absent q x s h]; exact .refl s
  · rcases Nat.lt_or_ge f.items.length f.cap with hr | hf
    · rw [fifoPush_room q x s f h hr]; exact quiet_afterFifo rfl rfl
    · rw [fifoPush_full q x s f h hf]; exact (quiet_raise _ s).trans (quiet_diag _ _)

theorem quiet_fifoPop (q : Nat) (s : State) : Quiet s (fifoPop q s) := by
  rcases h : s.blk.fifo[q]? with _ | f
  · rw [fifoPop_absent q s h]; exact .refl s
  · rcases hi : f.items with _ | ⟨b, rest⟩
    · rw [fifoPop_empty q s f h hi]; exact (quiet_raise _ s).trans (quiet_diag _ _)
    · rw [fifoPop_item q s f b rest h hi]; exact quiet_afterFifo rfl rfl

theorem quiet_fifoFlush (q : Nat) (s : State) : Quiet s (fifoFlush q s) := by
  rcases h : s.blk.fifo[q]? with _ | f
  · rw [fifoFlush_absent q s h]; exact .refl s
  · rw [fifoFlush_eq q s f h]; exact quiet_afterFifo rfl rfl

theorem quiet_fifoSetWatermark (q n : Nat) (s : State) : Quiet s (fifoSetWatermark q n s) := by
  rcases h : s.blk.fifo[q]? with _ | f
  · rw [fifoSetWatermark_absent q n s h]; exact .refl s
  · rw [fifoSetWatermark_eq q n s f h]; exact quiet_afterFifo rfl rfl

theorem quiet_fifoSetCapacity (q n : Nat) (s : State) : Quiet s (fifoSetCapacity q n s) := by
  rcases fifoSetCapacity_cases q n s with h | ⟨d, h⟩ | ⟨f, hf, -, -, -, h⟩ <;> rw [h]
  · exact .refl s
  · exact quiet_diag s d
  · exact quiet_refit q f _ _ _ s hf

theorem quiet_rxPath (x : Byte) (s : State) : Quiet s (rxPath x s) := by
  unfold rxPath; split
  · exact quiet_fifoPush _ x s
  · exact quiet_diag s _

theorem quiet_deliver (x : Byte) (s : State) : Quiet s (deliver x s) := by
  unfold deliver; split
  · dsimp only; split
    · exact (quiet_rxPath x s).trans (quiet_emit _ _)
    · exact quiet_rxPath x s
  · exact quiet_emit s _

theorem quiet_txByte (x : Byte) (s : State) : Quiet s (txByte x s) := by
  unfold txByte; split
  · exact quiet_deliver x s
  · split
    · exact quiet_fifoPush _ x s
    · exact quiet_diag s _

theorem quiet_drainLoop (q n : Nat) (s : State) : Quiet s (drainLoop q n s) := by
  induction n generalizing s with
  | zero => exact .refl s
  | succ n ih =>
    unfold drainLoop; split
    · exact .refl s
    · split
      · exact .refl s
      · exact ((quiet_fifoPop q s).trans (quiet_deliver _ _)).trans (ih _)

theorem quiet_txDrain (s : State) : Quiet s (txDrain s) := by
  unfold txDrain; split
  · exact .refl s
  · split
    · exact .refl s
    · exact quiet_drainLoop _ _ s

/-- TX_ENABLE writes its bit; a drain after it is quiet (43_peripheral.md R128). -/
theorem quiet_txEnable (b : Bool) (s : State) : Quiet (s.setTxEn b) (txEnable b s) := by
  unfold txEnable; dsimp only; split
  · exact quiet_txDrain _
  · exact .refl _

theorem quiet_voidFiring (t : Nat) (x : Timer) (s : State) : Quiet s (voidFiring t x s) := by
  unfold voidFiring; split
  · exact quiet_emit s _
  · exact .refl s

theorem quiet_setTimer (t : Nat) (x : Timer) (s : State) : Quiet s (s.setTimer t x) := ⟨rfl, rfl, rfl, rfl, rfl, fun _ h => h⟩

theorem quiet_timerArm (t : Nat) (s : State) : Quiet s (timerArm t s) := by
  unfold timerArm; split
  · exact .refl s
  · exact ((quiet_voidFiring _ _ s).trans (quiet_setTimer _ _ _)).trans (quiet_emit _ _)

theorem quiet_timerCancel (t : Nat) (s : State) : Quiet s (timerCancel t s) := by
  unfold timerCancel; split
  · exact .refl s
  · exact (quiet_voidFiring _ _ s).trans (quiet_setTimer _ _ _)

end Sys2Proof.Machine
end

