-- ==== Sys2Proof/Laws/Recompute.lean ====
section
/-! SUPPORT. Recompute: what it leaves, and that it has nothing to do a second time (41_interrupts.md R109, R110). -/

namespace Sys2Proof.Machine

/-- A condition reads only FIFOs and control bits (41_interrupts.md R108). -/
theorem holds_congr {b b' : Block} (k : Cond) (hf : b'.fifo = b.fifo) (ht : b'.txEn = b.txEn) (hr : b'.rxEn = b.rxEn)
    (hl : b'.loopOn = b.loopOn) : b'.holds k = b.holds k := by
  cases k <;> simp [Block.holds, Block.fifoPred, hf, ht, hr, hl]

theorem autoClears_congr {b b' : Block} (hf : b'.fifo = b.fifo) (ht : b'.txEn = b.txEn) (hr : b'.rxEn = b.rxEn)
    (hl : b'.loopOn = b.loopOn) : autoClears b' = autoClears b := by
  funext d
  unfold autoClears
  split
  · rw [holds_congr _ hf ht hr hl]
  · rfl

theorem clearAuto_congr {b b' : Block} (h : autoClears b' = autoClears b) (ds : List SourceDesc) (ps : List Bool) :
    clearAuto b' ds ps = clearAuto b ds ps := by
  induction ds generalizing ps with
  | nil => cases ps <;> rfl
  | cons d ds ih => cases ps with
    | nil => rfl
    | cons p ps => simp [clearAuto, ih, h]

/-- A flag after recompute's first loop: as before, unless its source is one that recompute clears. -/
theorem clearAuto_getElem? (b : Block) (ds : List SourceDesc) (ps : List Bool) (i : Nat) :
    (clearAuto b ds ps)[i]? = (ps[i]?).map (fun p => p && !(ds[i]?).any (autoClears b)) := by
  induction ds generalizing ps i with
  | nil => cases ps <;> simp [clearAuto]
  | cons d ds ih => cases ps with
    | nil => simp [clearAuto]
    | cons p ps => cases i with
      | zero => simp [clearAuto]
      | succ i => simpa [clearAuto] using ih ps i

theorem clearAuto_idem (b : Block) (ds : List SourceDesc) (ps : List Bool) :
    clearAuto b ds (clearAuto b ds ps) = clearAuto b ds ps := by
  induction ds generalizing ps with
  | nil => cases ps <;> rfl
  | cons d ds ih => cases ps with
    | nil => rfl
    | cons p ps => simp [clearAuto, ih]

/-- No signal expression reads the latched signals (43_peripheral.md R137). -/
theorem evalSignal_sig (c : Cfg) (b : Block) (v : List Bool) (e : SignalExpr) :
    evalSignal c { b with sig := v } e = evalSignal c b e := by
  cases e <;> simp [evalSignal, Block.fifoPred, lineLevel, Block.isPending, Block.isEnabled]

/-- After recompute nothing is left to do. -/
theorem recomputed_settled (c : Cfg) (b : Block) : Settled c (Block.recomputed c b) := by
  have h : autoClears (Block.recomputed c b) = autoClears b := autoClears_congr rfl rfl rfl rfl
  refine ⟨?_, ?_⟩
  · rw [clearAuto_congr h]; exact clearAuto_idem b c.sources b.pending
  · refine List.map_congr_left (fun g _ => ?_)
    exact (evalSignal_sig c _ _ _).symm

/-- Where nothing is left to do, recompute changes nothing. -/
theorem Settled.recomputed_eq {c : Cfg} {b : Block} (h : Settled c b) : Block.recomputed c b = b := by
  unfold Block.recomputed
  simp only [h.pending, ← h.sig]

theorem Settled.recompute_eq {s : State} (h : Settled s.cfg s.blk) : recompute s = s := by
  rw [Machine.recompute_eq, h.recomputed_eq]

@[simp] theorem recompute_blk (s : State) : (recompute s).blk = Block.recomputed s.cfg s.blk := rfl
@[simp] theorem recompute_cfg (s : State) : (recompute s).cfg = s.cfg := rfl
@[simp] theorem recompute_inbox (s : State) : (recompute s).inbox = s.inbox := rfl
@[simp] theorem recompute_trace (s : State) : (recompute s).trace = s.trace := rfl
@[simp] theorem recompute_result (s : State) : (recompute s).result = s.result := rfl

end Sys2Proof.Machine
end

