-- ==== Sys2Proof/Laws/Exec.lean ====
section
/-! SUPPORT. Every meaning has one shape: an operation that the configuration admits runs its body from an empty trace.
`exec_next` is the inversion lemma: what `exec` can answer. -/

namespace Sys2Proof.Machine

/-- The body of each instruction, as its meaning gives it to `perform`. -/
def bodyOf : Instr → State → State
  | .read r, s => runRead r s
  | .readSet r, s => runReadSet r s
  | .readClr r, s => runReadClr r s
  | .readTgl r, s => runReadTgl r s
  | .readNarrow r k n, s => runReadNarrow r k n s
  | .readNarrowAlias w r k n, s => runReadNarrowAlias w r k n s
  | .readRejected a n, s => runReadRejected a n s
  | .readUnmapped a n, s => runReadUnmapped a n s
  | .write r v, s => runWrite r v s
  | .writeSet r m, s => runWriteSet r m s
  | .writeClr r m, s => runWriteClr r m s
  | .writeTgl r m, s => runWriteTgl r m s
  | .writeNarrow r k n x, s => runWriteNarrow r k n x s
  | .writeNarrowAlias w r k n x, s => runWriteNarrowAlias w r k n x s
  | .writeRejected a n _, s => runWriteRejected a n s
  | .writeUnmapped a _ _, s => runWriteUnmapped a s
  | .rxByte b, s => runRxByte b s
  | .flush q, s => runFlush q s
  | .reset, s => runReset s
  | .timerFire t tok, s => runTimerFire t tok s
  | .signalSample g, s => runSignalSample g s
  | .fifoPush q b, s => runFifoPush q b s
  | .fifoPop q, s => runFifoPop q s
  | .fifoFlush q, s => fifoFlush q s
  | .fifoSetCapacity q n, s => fifoSetCapacity q n s
  | .fifoSetWatermark q n, s => fifoSetWatermark q n s
  | .irqSet i b, s => irqSet i b s
  | .irqSetEnabled i b, s => irqSetEnabled i b s
  | .irqIsPending i, s => runIrqIsPending i s
  | .irqLevel l, s => runIrqLevel l s
  | .recompute, s => recompute s
  | .txByte b, s => txByte b s
  | .txDrain, s => txDrain s
  | .txEnable b, s => txEnable b s
  | .timerArm t, s => timerArm t s
  | .timerCancel t, s => timerCancel t s

theorem exec_eq_perform (i : Instr) (s : State) : exec i s = s.perform i (bodyOf i) := by
  cases i <;> rfl

/-- What `exec` answers: the body's state, where the configuration admits the operation; else a refusal. -/
theorem exec_admitted {i : Instr} {s : State} (h : s.cfg.admits i = true) : exec i s = .next (bodyOf i s.start) := by
  rw [exec_eq_perform]; unfold State.perform; rw [if_pos h]

/-- Inversion: a next state is the body's, of an operation the configuration admits. -/
theorem exec_next {i : Instr} {s t : State} (h : exec i s = .next t) :
    s.cfg.admits i = true ∧ t = bodyOf i s.start := by
  rw [exec_eq_perform] at h
  unfold State.perform at h
  split at h
  · rename_i ha
    injection h with h
    exact ⟨ha, h.symm⟩
  · cases h

/-- `exec` never faults. -/
theorem exec_not_fault (i : Instr) (s : State) (f : Fault) : exec i s ≠ .fault f := by
  rw [exec_eq_perform]
  unfold State.perform
  split <;> intro h <;> cases h

/-- How a completion is shown: from what the body does. -/
theorem completes_of {i : Instr} {s : State} {b : Block} {res : Result} {out : List Event}
    (ha : s.cfg.admits i = true) (hc : (bodyOf i s.start).cfg = s.cfg) (hi : (bodyOf i s.start).inbox = s.inbox)
    (hb : (bodyOf i s.start).blk = b) (hr : (bodyOf i s.start).result = res)
    (ho : outputs (bodyOf i s.start).trace = out) : Completes i s b res out :=
  ⟨_, exec_admitted ha, hc, hi, hb, hr, ho⟩

end Sys2Proof.Machine
end

