-- ==== Sys2Proof/Laws/Entry.lean ====
section
/-! SUPPORT. Entry points as a whole: a body that keeps every invariant, then recompute. -/

namespace Sys2Proof.Machine

theorem keepsAll_diag (s : State) (d : Diag) : KeepsAll s (s.diag d) := ⟨keeps_diag s d, id⟩

theorem keepsAll_start (s : State) : KeepsAll { s with result := .none } s.start := ⟨⟨rfl, rfl, rfl, .rfl rfl, id⟩, id⟩

theorem keepsAll_rxPath (b : Byte) (s : State) : KeepsAll s (rxPath b s) :=
  ⟨keeps_rxPath b s, (keepsTx_rxPath b s).drained⟩

theorem keepsAll_flushBody (q : Nat) (s : State) : KeepsAll s (flushBody q s) := by
  unfold flushBody
  split
  · exact ⟨keeps_fifoFlush q s, (keepsTx_fifoFlush q s).drained⟩
  · exact keepsAll_diag s _

theorem keepsAll_timerFireBody (t : Nat) (tok : Token) (s : State) : KeepsAll s (timerFireBody t tok s) := by
  unfold timerFireBody
  split
  · split
    · exact .refl s
    · split
      · exact ⟨(keeps_setTimer _ _ s).trans (keeps_raise _ _), id⟩
      · exact keepsAll_diag s _
  · exact keepsAll_diag s _

/-- Every entry point but RESET and SIGNAL_SAMPLE: a body that keeps all, then recompute, then the value returned. -/
theorem entry_body {i : Instr} (s : State) (h : i.isTransaction = true) (hr : i ≠ .reset) (hg : ∀ g, i ≠ .signalSample g) :
    ∃ s1 r, KeepsAll s s1 ∧ bodyOf i s = (recompute s1).returning r := by
  cases i with
  | read r => exact ⟨_, _, keepsAll_readMasked r _ s, rfl⟩
  | readSet r => exact ⟨_, _, keepsAll_diag s _, rfl⟩
  | readClr r => exact ⟨_, _, keepsAll_diag s _, rfl⟩
  | readTgl r => exact ⟨_, _, keepsAll_diag s _, rfl⟩
  | readNarrow r k n => exact ⟨_, _, keepsAll_readMasked r _ s, rfl⟩
  | readNarrowAlias w r k n => exact ⟨_, _, keepsAll_diag s _, rfl⟩
  | readRejected a n => exact ⟨_, _, keepsAll_diag s _, rfl⟩
  | readUnmapped a n => exact ⟨_, _, keepsAll_diag s _, rfl⟩
  | write r v => exact ⟨_, _, keepsAll_writeMasked r _ _ s, rfl⟩
  | writeSet r m => exact ⟨_, _, keepsAll_writeMasked r _ _ s, rfl⟩
  | writeClr r m => exact ⟨_, _, keepsAll_writeMasked r _ _ s, rfl⟩
  | writeTgl r m => exact ⟨_, _, keepsAll_writeMasked r _ _ s, rfl⟩
  | writeNarrow r k n x => exact ⟨_, _, keepsAll_writeMasked r _ _ s, rfl⟩
  | writeNarrowAlias w r k n x => exact ⟨_, _, keepsAll_writeMasked r _ _ s, rfl⟩
  | writeRejected a n v => exact ⟨_, _, keepsAll_diag s _, rfl⟩
  | writeUnmapped a n v => exact ⟨_, _, keepsAll_diag s _, rfl⟩
  | rxByte b => exact ⟨_, _, keepsAll_rxPath b s, rfl⟩
  | flush q => exact ⟨_, _, keepsAll_flushBody _ s, rfl⟩
  | reset => exact absurd rfl hr
  | timerFire t tok => exact ⟨_, _, keepsAll_timerFireBody _ _ s, rfl⟩
  | signalSample g => exact absurd rfl (hg g)
  | _ => exact absurd h (by simp [Instr.isTransaction, Instr.opcode])

/-- The configuration and the inbox stay, whatever runs. -/
theorem body_frame (i : Instr) (s : State) : (bodyOf i s).cfg = s.cfg ∧ (bodyOf i s).inbox = s.inbox := by
  have wr : ∀ r v be, (recompute (writeMasked r v be s)).cfg = s.cfg ∧ (recompute (writeMasked r v be s)).inbox = s.inbox :=
    fun r v be => ⟨(keepsAll_writeMasked r v be s).cfg, (keepsAll_writeMasked r v be s).inbox⟩
  cases i with
  | read r => exact ⟨(keepsAll_readMasked r _ s).cfg, (keepsAll_readMasked r _ s).inbox⟩
  | readNarrow r k n => exact ⟨(keepsAll_readMasked r _ s).cfg, (keepsAll_readMasked r _ s).inbox⟩
  | write r v => exact wr _ _ _
  | writeSet r m => exact wr _ _ _
  | writeClr r m => exact wr _ _ _
  | writeTgl r m => exact wr _ _ _
  | writeNarrow r k n x => exact wr _ _ _
  | writeNarrowAlias w r k n x => exact wr _ _ _
  | rxByte b => exact ⟨(keepsAll_rxPath b s).cfg, (keepsAll_rxPath b s).inbox⟩
  | flush q => exact ⟨(keepsAll_flushBody _ s).cfg, (keepsAll_flushBody _ s).inbox⟩
  | timerFire t tok => exact ⟨(keepsAll_timerFireBody _ _ s).cfg, (keepsAll_timerFireBody _ _ s).inbox⟩
  | fifoPush q b => exact ⟨(keeps_fifoPush q b s).cfg, (keeps_fifoPush q b s).inbox⟩
  | fifoPop q => exact ⟨(keeps_fifoPop q s).cfg, (keeps_fifoPop q s).inbox⟩
  | fifoFlush q => exact ⟨(keeps_fifoFlush q s).cfg, (keeps_fifoFlush q s).inbox⟩
  | fifoSetCapacity q n => exact ⟨(keeps_fifoSetCapacity q n s).cfg, (keeps_fifoSetCapacity q n s).inbox⟩
  | fifoSetWatermark q n => exact ⟨(keeps_fifoSetWatermark q n s).cfg, (keeps_fifoSetWatermark q n s).inbox⟩
  | txByte b => exact ⟨(keeps_txByte b s).cfg, (keeps_txByte b s).inbox⟩
  | txDrain => exact ⟨(keeps_txDrain s).cfg, (keeps_txDrain s).inbox⟩
  | txEnable b => exact ⟨(keeps_txEnable b s).cfg, (keeps_txEnable b s).inbox⟩
  | timerArm t => exact ⟨(keeps_timerArm t s).cfg, (keeps_timerArm t s).inbox⟩
  | timerCancel t => exact ⟨(keeps_timerCancel t s).cfg, (keeps_timerCancel t s).inbox⟩
  | _ => exact ⟨rfl, rfl⟩

/-! ## The block after reset -/

theorem fifoDesc_of_valid {c : Cfg} (h : validCfg c = true) {d : FifoDesc} (hd : d ∈ c.fifos) :
    1 ≤ d.capReset ∧ 1 ≤ d.capFifoMode ∧ d.wmReset ≤ d.capReset := by
  have := (checked_of_valid h).fifos
  simp only [checkFifos, Bool.and_eq_true, List.all_eq_true, decide_eq_true_eq] at this
  have := this.2 d hd
  exact ⟨this.1.1.1.1, this.1.1.1.2, this.1.2⟩

theorem rstWm_le (c : Cfg) (q : Nat) (d : FifoDesc) (h : d.wmReset ≤ d.capReset) : rstWm c q d ≤ d.capReset := by
  unfold rstWm
  split
  · exact Nat.min_le_right _ _
  · exact h

/-- The block after reset, with any timers of the right number, before its recompute. -/
structure FreshBlock (c : Cfg) (b : Block) : Prop where
  reg : b.reg = c.regs.map (·.resetValue)
  pending : b.pending.length = c.sources.length
  enabled : b.enabled.length = c.sources.length
  fifo : b.fifo = c.fifos.zipIdx.map (fun p => rstFifo c p.2 p.1)
  timer : b.timer.length = c.timers.length
  sig : b.sig.length = c.signals.length

theorem FreshBlock.good {c : Cfg} {b : Block} (hv : validCfg c = true) (h : FreshBlock c b) : Good c b := by
  refine ⟨⟨by simp [h.reg], h.pending, h.enabled, by simp [h.fifo], h.timer, h.sig⟩, ?_, ?_⟩
  · intro f hf
    rw [h.fifo] at hf
    simp only [List.mem_map, List.mem_zipIdx_iff_getElem?, Prod.exists] at hf
    obtain ⟨d, q, hd, rfl⟩ := hf
    have hd := fifoDesc_of_valid hv (List.mem_of_getElem? hd)
    refine ⟨?_, hd.1⟩
    have hw := rstWm_le c q d hd.2.2
    simp [Fifo.consistent, rstFifo, fifoClass, crossed, hw]
  · intro r d v hd hv
    rw [h.reg, List.getElem?_map, hd] at hv
    cases hv; rfl

theorem FreshBlock.drained {c : Cfg} {b : Block} (h : FreshBlock c b) : Drained c b := by
  intro _
  unfold txItems
  split
  · rfl
  · split
    · rfl
    · rename_i f hf
      rw [h.fifo, List.getElem?_map, Option.map_eq_some_iff] at hf
      obtain ⟨p, -, rfl⟩ := hf
      rfl

theorem fresh_reset (s : State) (h : Shaped s.cfg s.blk) :
    FreshBlock s.cfg (recompute (resetBody s)).blk :=
  ⟨rfl, by simp [resetBody, rstBlock, Block.recomputed], by simp [resetBody, rstBlock, Block.recomputed], rfl,
    by simp [resetBody, rstBlock, Block.recomputed, h.timer], by simp [resetBody, rstBlock, Block.recomputed]⟩

theorem inv_of_fresh {s : State} (hv : validCfg s.cfg = true) (h : FreshBlock s.cfg s.blk) (k : Settled s.cfg s.blk) : Inv s :=
  have g := h.good hv
  ⟨hv, g.shaped, g.fifos, g.fixed, h.drained, k⟩

/-- Every entry point of a constructed block keeps the invariant. -/
theorem inv_exec {i : Instr} {s t : State} (hi : Inv s) (h : exec i s = .next t) (hx : i.isTransaction = true) : Inv t := by
  obtain ⟨-, rfl⟩ := exec_next h
  by_cases hr : i = .reset
  · subst hr
    refine inv_of_fresh (s := recompute (resetBody s.start)) hi.valid (fresh_reset s.start hi.shaped) ?_
    exact recomputed_settled _ _
  · by_cases hg : ∃ g, i = .signalSample g
    · obtain ⟨g, rfl⟩ := hg
      exact ⟨hi.valid, hi.shaped, hi.fifos, hi.fixed, hi.drained, hi.settled⟩
    · obtain ⟨s1, r, hk, hb⟩ := entry_body s.start hx hr (fun g e => hg ⟨g, e⟩)
      rw [hb]
      have hc : s1.cfg = s.cfg := hk.cfg
      have g1 : Good s.cfg s1.blk := hk.good ⟨hi.shaped, hi.fifos, hi.fixed⟩
      have g2 : Good s.cfg (recompute s1).blk := by
        have := (keeps_recompute s1).good (by rw [hc]; exact g1)
        rwa [hc] at this
      have d2 : Drained s.cfg (recompute s1).blk := hk.drained hi.drained
      have e2 : Settled s.cfg (recompute s1).blk := by
        rw [recompute_blk, hc]; exact recomputed_settled s.cfg s1.blk
      have hc2 : ((recompute s1).returning r).cfg = s.cfg := hc
      refine ⟨by rw [hc2]; exact hi.valid, ?_, ?_, ?_, ?_, ?_⟩
      · rw [hc2]; exact g2.shaped
      · exact g2.fifos
      · rw [hc2]; exact g2.fixed
      · rw [hc2]; exact d2
      · rw [hc2]; exact e2

theorem Inv.consistent {s : State} (h : Inv s) : s.consistent = true := by
  simp only [State.consistent, List.all_eq_true]
  exact fun f hf => (h.fifos f hf).1

/-- A state with the inbox changed. -/
theorem Inv.withInbox {s : State} (h : Inv s) (l : List Desc) : Inv { s with inbox := l } :=
  ⟨h.valid, h.shaped, h.fifos, h.fixed, h.drained, h.settled⟩

end Sys2Proof.Machine
end

