-- ==== Sys2Proof/Laws/Reads.lean ====
section
/-! SUPPORT. What a masked read does, in closed form, where it runs no read action (40_register_file.md R80, R81). -/

namespace Sys2Proof.Machine

/-- A field's read that runs no action leaves the state and inserts the shown value. -/
theorem readField_idle (r : Nat) (be : Word) (s : State) (acc : Word) (f : FieldDesc)
    (h : touched be f = true → idleOnRead s.cfg f = true) :
    readField r be (s, acc) f = (s, insertField acc f.off f.wid (shownValue s.cfg s.blk r f)) := by
  unfold readField shownValue
  by_cases hz : readBeh s.cfg f = .zero
  · simp [hz]
  · simp only [hz, if_false]
    have : (if touched be f = true then bindRead r f s else s) = s := by
      split
      · rename_i ht
        have := h ht
        simp only [idleOnRead, hz, decide_false, Bool.false_or, Bool.not_eq_true'] at this
        unfold readAction at this; unfold bindRead
        split <;> simp_all
      · rfl
    rw [this]

/-- A loop over such fields composes their values. -/
theorem readFields_idle (r : Nat) (be : Word) (s : State) (acc : Word) (l : List FieldDesc)
    (h : ∀ f ∈ l, touched be f = true → idleOnRead s.cfg f = true) :
    l.foldl (readField r be) (s, acc) = (s, composeFrom s.cfg s.blk r acc l) := by
  induction l generalizing acc with
  | nil => rfl
  | cons f l ih =>
    rw [List.foldl_cons, readField_idle r be s acc f (h f (List.mem_cons_self ..)),
      ih _ (fun g hg => h g (List.mem_cons_of_mem _ hg))]
    rfl

theorem bit0_zero : bit0 0 = false := by simp [bit0]

/-- In a valid configuration only `Stored`, pending and custom fields are ReadToClear (R75). -/
theorem readToClear_binding {c : Cfg} (hv : validCfg c = true) {r : Nat} {f : FieldDesc} (hf : f ∈ fieldsOf c r)
    (h : readBeh c f = .readToClear) : f.bind = .stored ∨ (∃ i, f.bind = .irqPending i) ∨ ∃ a b d, f.bind = .custom a b d := by
  have hb := bindingAllowed_of_valid hv hf
  unfold bindingAllowed at hb
  unfold readBeh at h
  rcases hbd : f.bind with _ | i | i | i | ⟨qr, qt⟩ | q | ⟨q, p⟩ | q | q | q | _ | _ | _ | t | t | ⟨a, b, d⟩
  case stored => exact .inl rfl
  case irqPending => exact .inr (.inl ⟨i, rfl⟩)
  case custom => exact .inr (.inr ⟨a, b, d, rfl⟩)
  case uartData =>
    exfalso
    rw [hbd] at h hb
    simp only [Bool.and_eq_true] at hb
    have := hb.2
    unfold uartMode at this
    cases hm : f.mode <;> rw [hm] at h this <;> simp [modeRead] at h
    split at this <;> simp at this
  all_goals
    exfalso
    rw [hbd] at h hb
    cases hm : f.mode <;> rw [hm] at h hb <;> simp [modeRead] at h
    simp at hb

/-- What the clears of a read do to the register words and the flags, over a list of fields. -/
def clearedOver (c : Cfg) (r : Nat) (be : Word) (l : List FieldDesc) (b : Block) : Block :=
  { b with
    reg := b.reg.set r (b.reg.getD r 0 &&& ~~~(l.foldl
      (fun m f => if f.bind = .stored ∧ readBeh c f = .readToClear ∧ touched be f = true then m ||| mask f.off f.wid else m) 0))
    pending := b.pending.mapIdx (fun i p => p && !(l.any (fun f =>
      decide (f.bind = .irqPending i) && decide (readBeh c f = .readToClear) && touched be f))) }

theorem set_getD_self (l : List Word) (r : Nat) : l.set r (l.getD r 0) = l := by
  apply List.ext_getElem?
  intro n
  rw [List.getElem?_set]
  split
  · rename_i h; subst h
    split
    · rename_i h; simp [List.getD_eq_getElem?_getD, h]
    · rename_i h; simp at h; simp [h]
  · rfl

theorem set_eq_mapIdx (l : List Bool) (i : Nat) : l.set i false = l.mapIdx (fun j p => p && !decide (i = j)) := by
  apply List.ext_getElem?
  intro n
  rw [List.getElem?_set, List.getElem?_mapIdx]
  by_cases h : i = n
  · subst h
    simp only [if_true]
    split
    · rename_i h; simp [h]
    · rename_i h; simp at h; simp [h]
  · simp [h]

theorem insertField_zero (v : Word) (off wid : Nat) : insertField v off wid 0 = v &&& ~~~(mask off wid) := by
  unfold insertField; rw [trunc_zero]; simp

theorem mask_fold_or (p : FieldDesc → Prop) [DecidablePred p] (l : List FieldDesc) (m : Word) :
    l.foldl (fun m f => if p f then m ||| mask f.off f.wid else m) m =
      m ||| l.foldl (fun m f => if p f then m ||| mask f.off f.wid else m) 0 := by
  induction l generalizing m with
  | nil => simp
  | cons f l ih =>
    rw [List.foldl_cons, List.foldl_cons]
    by_cases h : p f
    · simp only [h, if_true]
      rw [ih, ih (0 ||| mask f.off f.wid)]; simp [BitVec.or_assoc]
    · simp only [h, if_false]; exact ih m

theorem getD_set_self (l : List Word) (r : Nat) (v : Word) (h : r < l.length) : (l.set r v).getD r 0 = v := by
  simp [List.getD_eq_getElem?_getD, h]

/-- The second loop of a read (R80, R81), where no touched field is custom. -/
theorem clearFields_eq (c : Cfg) (r : Nat) (be : Word) (l : List FieldDesc) (s : State) (hc : s.cfg = c)
    (h : ∀ f ∈ l, readBeh c f = .readToClear → touched be f = true → f.bind = .stored ∨ ∃ i, f.bind = .irqPending i) :
    l.foldl (clearField r be) s = { s with blk := clearedOver c r be l s.blk } := by
  induction l generalizing s with
  | nil =>
    simp only [List.foldl_nil, clearedOver, List.any_nil, Bool.not_false, Bool.and_true]
    have h1 : s.blk.reg.set r (s.blk.reg.getD r 0 &&& ~~~(0 : Word)) = s.blk.reg := by
      have : ~~~(0 : Word) = BitVec.allOnes 32 := by decide
      rw [this, BitVec.and_allOnes]; exact set_getD_self _ _
    have h2 : s.blk.pending.mapIdx (fun _ p => p) = s.blk.pending := by
      apply List.ext_getElem?; intro n; rw [List.getElem?_mapIdx]; simp
    rw [h1, h2]
  | cons f l ih =>
    rw [List.foldl_cons]
    have hl := fun g hg => h g (List.mem_cons_of_mem _ hg)
    by_cases ht : readBeh c f = .readToClear ∧ touched be f = true
    · have hcl : clearField r be s f = bindApply r f 0 s := by unfold clearField; rw [hc, if_pos ht]
      rw [hcl]
      rcases h f (List.mem_cons_self ..) ht.1 ht.2 with hb | ⟨i, hb⟩
      · have : bindApply r f 0 s = s.setReg r (s.regWord r &&& ~~~(mask f.off f.wid)) := by
          unfold bindApply; rw [hb]; simp only [insertField_zero]
        rw [this, ih (s.setReg r (s.regWord r &&& ~~~(mask f.off f.wid))) hc hl]
        simp only [clearedOver, List.foldl_cons, hb, ht, and_self, if_true, List.any_cons, reduceCtorEq, decide_false,
          Bool.false_and, Bool.false_or, State.setReg, State.regWord, List.set_set]
        congr 2
        rw [mask_fold_or (fun f => f.bind = .stored ∧ readBeh c f = .readToClear ∧ touched be f = true) l (0 ||| mask f.off f.wid)]
        by_cases hr : r < s.blk.reg.length
        · rw [getD_set_self _ _ _ hr]
          congr 1
          rw [BitVec.and_assoc]; congr 1
          simp [BitVec.not_or]
        · rw [List.set_eq_of_length_le (by omega), List.set_eq_of_length_le (by omega)]
      · have : bindApply r f 0 s = s.setPendings (s.blk.pending.set i false) := by
          unfold bindApply; rw [hb]; simp only [bit0_zero]
        rw [this, ih (s.setPendings (s.blk.pending.set i false)) hc hl]
        simp only [clearedOver, List.foldl_cons, hb, reduceCtorEq, false_and, if_false, List.any_cons, State.setPendings]
        congr 2
        rw [set_eq_mapIdx, List.mapIdx_mapIdx]
        congr 1
        funext j p
        simp only [Function.comp, ht, decide_true, Bool.and_true]
        by_cases hj : i = j
        · subst hj; simp
        · simp [hj]
    · have hcl : clearField r be s f = s := by unfold clearField; rw [hc, if_neg ht]
      rw [hcl, ih _ hc hl]
      have h1 : ¬ (f.bind = .stored ∧ readBeh c f = .readToClear ∧ touched be f = true) := fun k => ht k.2
      have h2 : ∀ i : Nat, (decide (f.bind = .irqPending i) && decide (readBeh c f = .readToClear) && touched be f) = false := by
        intro i
        by_cases ha : readBeh c f = .readToClear
        · have : touched be f = false := by rw [← Bool.not_eq_true]; exact fun hh => ht ⟨ha, hh⟩
          simp [this]
        · simp [ha]
      simp only [clearedOver, List.foldl_cons, h1, if_false, List.any_cons, h2, Bool.false_or]

/-- A masked read without read actions, whole: the composed value, and the clears (R80). -/
theorem readMasked_idle (r : Nat) (be : Word) (s : State) (hv : validCfg s.cfg = true)
    (h : ∀ f ∈ fieldsOf s.cfg r, touched be f = true → idleOnRead s.cfg f = true)
    (hp : ∀ d, s.cfg.regs[r]? = some d → d.postRead = none) :
    readMasked r be s = ({ s with blk := Block.readCleared s.cfg s.blk r be }, peekReg s.cfg s.blk r) := by
  unfold readMasked readLoop
  rw [readFields_idle r be s _ _ h]
  dsimp only
  rw [clearFields_eq s.cfg r be _ s rfl (fun f hf hr ht => by
    rcases readToClear_binding hv hf hr with k | k | ⟨a, b, d, k⟩
    · exact .inl k
    · exact .inr k
    · have := h f hf ht
      simp [idleOnRead, hr, readAction, k] at this)]
  have : ((s.cfg.regs[r]?).bind (·.postRead)) = none := by
    rcases hd : s.cfg.regs[r]? with _ | d
    · rfl
    · simp [hp d hd]
  rw [this]
  rfl

end Sys2Proof.Machine
end

