-- ==== Sys2Proof/Laws/Writes.lean ====
section
/-! SUPPORT. What a masked write does on a register without custom functions: the applies in order (40_register_file.md R82), in
closed form where every binding is plain. -/

namespace Sys2Proof.Machine

theorem standard_field {c : Cfg} {r : Nat} (h : standardReg c r = true) {f : FieldDesc} (hf : f ∈ fieldsOf c r) :
    f.effect = none ∧ ∀ a b d, f.bind ≠ .custom a b d := by
  obtain ⟨d, hd, hm⟩ := mem_fieldsOf hf
  simp only [standardReg, hd, Bool.and_eq_true, List.all_eq_true] at h
  have := h.1.1 f hm
  simp only [standardField, Bool.and_eq_true, Option.isNone_iff_eq_none] at this
  refine ⟨this.1, fun a b e hb => ?_⟩
  rw [hb] at this; simp at this

theorem standard_post {c : Cfg} {r : Nat} (h : standardReg c r = true) :
    ((c.regs[r]?).bind (·.postRead)) = none ∧ ((c.regs[r]?).bind (·.postWrite)) = none := by
  rcases hd : c.regs[r]? with _ | d
  · exact ⟨rfl, rfl⟩
  · simp only [standardReg, hd, Bool.and_eq_true, Option.isNone_iff_eq_none] at h
    exact ⟨h.1.2, h.2⟩

theorem effects_none (r : Nat) (ws : List FieldWrite) (s : State) (h : ∀ w ∈ ws, w.1.effect = none) :
    ws.foldl (effectWrite r) s = s := by
  induction ws with
  | nil => rfl
  | cons w ws ih =>
    have : effectWrite r s w = s := by unfold effectWrite; rw [h w (List.mem_cons_self ..)]
    rw [List.foldl_cons, this]; exact ih (fun x hx => h x (List.mem_cons_of_mem _ hx))

/-- On a register without custom functions a write is its applies. -/
theorem writeMasked_standard (r : Nat) (v be : Word) (s : State) (h : standardReg s.cfg r = true) :
    writeMasked r v be s = (fieldWrites s.cfg s.blk r v be).foldl (applyWrite r) s := by
  unfold writeMasked
  dsimp only
  rw [effects_none r _ _ (fun w hw => (standard_field h (mem_fieldWrites hw)).1), (standard_post h).2]
  rfl

/-- The body of a WRITE that reaches a register. -/
theorem write_body {i : Instr} {s : State} {r : Nat} {v be : Word} (h : writeParts s.cfg s.blk i = some (r, v, be)) :
    bodyOf i s = recompute (writeMasked r v be s) := by
  cases i <;> simp only [writeParts, Option.some.injEq, Prod.mk.injEq, reduceCtorEq] at h
  all_goals obtain ⟨rfl, rfl, rfl⟩ := h; rfl

/-! ## Plain bindings -/

theorem lastWrite_append (ws : List FieldWrite) (w : FieldWrite) (k : Binding) :
    lastWrite (ws ++ [w]) k = if w.1.bind = k then some w.2.2 else lastWrite ws k := by
  unfold lastWrite
  rw [List.filter_append]
  by_cases h : w.1.bind = k <;> simp [h]

theorem lastBit_append (ws : List FieldWrite) (w : FieldWrite) (k : Binding) (old : Bool) :
    lastBit (ws ++ [w]) k old = if w.1.bind = k then bit0 w.2.2 else lastBit ws k old := by
  unfold lastBit
  rw [lastWrite_append]
  split <;> split <;> simp_all

theorem mapIdx_set (l : List Bool) (g : Nat → Bool → Bool) (i : Nat) (v : Bool) :
    (l.mapIdx g).set i v = l.mapIdx (fun j p => if i = j then v else g j p) := by
  apply List.ext_getElem?
  intro n
  rw [List.getElem?_set, List.getElem?_mapIdx, List.getElem?_mapIdx, List.length_mapIdx]
  by_cases h : i = n
  · subst h
    simp only [if_true]
    split
    · rename_i h; simp [h]
    · rename_i h; simp at h; simp [h]
  · simp [h]

theorem mapIdx_id (l : List Bool) : l.mapIdx (fun _ p => p) = l := by
  apply List.ext_getElem?; intro n; rw [List.getElem?_mapIdx]; simp

theorem plainWritten_nil (b : Block) (r : Nat) : Block.plainWritten b r [] = b := by
  simp only [Block.plainWritten, List.filter_nil, List.foldl_nil, set_getD_self, lastBit, lastWrite, List.getLast?_nil,
    Option.map_none, mapIdx_id]

/-- The block after the apply of a plain binding. -/
theorem plainWritten_append (b : Block) (r : Nat) (ws : List FieldWrite) (w : FieldWrite) (hp : plainBinding w.1.bind = true)
    (s : State) (hs : s.blk = Block.plainWritten b r ws) :
    applyWrite r s w = { s with blk := Block.plainWritten b r (ws ++ [w]) } := by
  unfold applyWrite bindApply
  have keep : ∀ k : Binding, w.1.bind ≠ k → ∀ o, lastBit (ws ++ [w]) k o = lastBit ws k o := by
    intro k hk o; rw [lastBit_append, if_neg hk]
  rcases hb : w.1.bind with _ | i | i | i | ⟨qr, qt⟩ | q | ⟨q, p⟩ | q | q | q | _ | _ | _ | t | t | ⟨x, y, z⟩
  case stored =>
    simp only [State.setReg, State.regWord, hs]
    congr 1
    simp only [Block.plainWritten, lastBit_append, hb, reduceCtorEq, if_false, List.filter_append, List.filter_cons, decide_true,
      if_true, List.filter_nil, List.foldl_append, List.foldl_cons, List.foldl_nil, List.set_set]
    congr 1
    by_cases hr : r < b.reg.length
    · rw [getD_set_self _ _ _ hr]
    · rw [List.set_eq_of_length_le (by omega), List.set_eq_of_length_le (by omega)]
  case irqPending =>
    simp only [State.setPendings, hs]
    congr 1
    simp only [Block.plainWritten, lastBit_append, hb, reduceCtorEq, if_false, List.filter_append, List.filter_cons, decide_false,
      Bool.false_eq_true, List.filter_nil, List.append_nil, mapIdx_set, Binding.irqPending.injEq]
  case irqEnable =>
    simp only [irqSetEnabled, State.setEnableds, hs]
    congr 1
    simp only [Block.plainWritten, lastBit_append, hb, reduceCtorEq, if_false, List.filter_append, List.filter_cons, decide_false,
      Bool.false_eq_true, List.filter_nil, List.append_nil, mapIdx_set, Binding.irqEnable.injEq]
  case rxEnable =>
    simp only [State.setRxEn, hs]
    congr 1
    simp only [Block.plainWritten, lastBit_append, hb, reduceCtorEq, if_false, if_true, List.filter_append, List.filter_cons, decide_false,
      Bool.false_eq_true, List.filter_nil, List.append_nil]
  case loopback =>
    simp only [State.setLoop, hs]
    congr 1
    simp only [Block.plainWritten, lastBit_append, hb, reduceCtorEq, if_false, if_true, List.filter_append, List.filter_cons, decide_false,
      Bool.false_eq_true, List.filter_nil, List.append_nil]
  case uartData =>
    cases qt with
    | some t => rw [hb] at hp; cases hp
    | none =>
      have : s = { s with blk := Block.plainWritten b r (ws ++ [w]) } := by
        have h : Block.plainWritten b r (ws ++ [w]) = s.blk := by
          rw [hs]
          simp only [Block.plainWritten, lastBit_append, hb, reduceCtorEq, if_false, List.filter_append, List.filter_cons, decide_false,
            Bool.false_eq_true, List.filter_nil, List.append_nil]
        rw [h]
      exact this
  case irqMaskMirror | fifoCount | fifoFlag =>
    all_goals
      have : s = { s with blk := Block.plainWritten b r (ws ++ [w]) } := by
        have h : Block.plainWritten b r (ws ++ [w]) = s.blk := by
          rw [hs]
          simp only [Block.plainWritten, lastBit_append, hb, reduceCtorEq, if_false, List.filter_append, List.filter_cons, decide_false,
            Bool.false_eq_true, List.filter_nil, List.append_nil]
        rw [h]
      exact this
  all_goals (rw [hb] at hp; cases hp)

/-- The applies of plain bindings, all together. -/
theorem applies_plain (r : Nat) (b : Block) (s : State) (ws : List FieldWrite) (h : ∀ w ∈ ws, plainBinding w.1.bind = true)
    (hs : s.blk = b) : ws.foldl (applyWrite r) s = { s with blk := Block.plainWritten b r ws } := by
  induction ws using List.reverseRecOn with
  | nil => rw [plainWritten_nil, ← hs]; rfl
  | append_singleton ws w ih =>
    rw [List.foldl_append, List.foldl_cons, List.foldl_nil, ih (fun x hx => h x (by simp [hx]))]
    rw [plainWritten_append b r ws w (h w (by simp)) _ rfl]

end Sys2Proof.Machine
end

