-- ==== Sys2Proof/Laws/Control.lean ====
section
/-! SUPPORT. Which control bits, enable flags and pending flags an entry point can change, on registers without custom functions. -/

namespace Sys2Proof.Machine

/-- The configuration, the enable flags and the control bits are the same in `t` as in `s`. -/
structure Ctl (s t : State) : Prop where
  cfg : t.cfg = s.cfg
  enabled : t.blk.enabled = s.blk.enabled
  txEn : t.blk.txEn = s.blk.txEn
  rxEn : t.blk.rxEn = s.blk.rxEn
  loopOn : t.blk.loopOn = s.blk.loopOn

theorem Ctl.refl (s : State) : Ctl s s := ⟨rfl, rfl, rfl, rfl, rfl⟩

theorem Ctl.trans {s t u} (h : Ctl s t) (k : Ctl t u) : Ctl s u :=
  ⟨k.1.trans h.1, k.2.trans h.2, k.3.trans h.3, k.4.trans h.4, k.5.trans h.5⟩

theorem Quiet.ctl {s t} (h : Quiet s t) : Ctl s t := ⟨h.1, h.2, h.3, h.4, h.5⟩

/-- The control bit or enable flag that binding `k` names is the same in `t` as in `s`. -/
def BitKept (k : Binding) (s t : State) : Prop :=
  (k = .txEnable → t.blk.txEn = s.blk.txEn) ∧ (k = .rxEnable → t.blk.rxEn = s.blk.rxEn) ∧
    (k = .loopback → t.blk.loopOn = s.blk.loopOn) ∧ (∀ n, k = .irqEnable n → t.blk.enabled[n]? = s.blk.enabled[n]?)

theorem Ctl.bitKept {s t} (h : Ctl s t) (k) : BitKept k s t :=
  ⟨fun _ => h.3, fun _ => h.4, fun _ => h.5, fun n _ => by rw [h.2]⟩

theorem BitKept.trans {k s t u} (a : BitKept k s t) (b : BitKept k t u) : BitKept k s u :=
  ⟨fun h => (b.1 h).trans (a.1 h), fun h => (b.2.1 h).trans (a.2.1 h), fun h => (b.2.2.1 h).trans (a.2.2.1 h),
    fun n h => (b.2.2.2 n h).trans (a.2.2.2 n h)⟩

/-- In a configuration without custom functions on registers every register is standard. -/
theorem standardReg_of {c : Cfg} (h : standardCfg c = true) (r : Nat) : standardReg c r = true := by
  unfold standardReg; split
  · rename_i d hd
    simp only [standardCfg, List.all_eq_true] at h
    exact h d (List.mem_of_getElem? hd)
  · rfl

/-- The apply of a field changes no control bit and no enable flag but its own (40_register_file.md R75). -/
theorem bitKept_apply (k : Binding) (r : Nat) (f : FieldDesc) (new : Word) (s : State)
    (hc : ∀ a b d, f.bind ≠ .custom a b d) (hk : f.bind ≠ k) :
    BitKept k s (bindApply r f new s) := by
  unfold bindApply
  have q : ∀ t, Quiet s t → BitKept k s t := fun t h => h.ctl.bitKept k
  rcases hb : f.bind with _ | i | i | i | ⟨qr, qt⟩ | i | ⟨i, p⟩ | i | i | i | _ | _ | _ | t | t | ⟨x, y, z⟩
  case irqEnable =>
    refine ⟨fun _ => rfl, fun _ => rfl, fun _ => rfl, fun n h => ?_⟩
    subst h; rw [hb] at hk
    have : i ≠ n := fun e => hk (by rw [e])
    show (s.blk.enabled.set i _)[n]? = _
    rw [List.getElem?_set_ne this]
  case rxEnable =>
    refine ⟨fun _ => rfl, fun h => ?_, fun _ => rfl, fun n _ => rfl⟩
    exact absurd (hb.trans h.symm) hk
  case loopback =>
    refine ⟨fun _ => rfl, fun _ => rfl, fun h => ?_, fun n _ => rfl⟩
    exact absurd (hb.trans h.symm) hk
  case txEnable =>
    have h := quiet_txEnable (bit0 new) s
    refine ⟨fun h => absurd (hb.trans h.symm) hk, fun _ => h.rxEn, fun _ => h.loopOn, fun n _ => by simp only [h.enabled]; rfl⟩
  case custom => exact absurd hb (hc _ _ _)
  case uartData => cases qt with
    | none => exact q _ (.refl s)
    | some t => exact q _ (quiet_txByte _ s)
  case fifoWatermark => exact q _ (quiet_fifoSetWatermark _ _ s)
  case fifoMode => exact q _ (quiet_fifoSetCapacity _ _ s)
  case fifoFlush => dsimp only; split; exacts [q _ (quiet_fifoFlush _ s), q _ (.refl s)]
  case timerStart => dsimp only; split; exacts [q _ (quiet_timerArm _ s), q _ (.refl s)]
  case timerStop => dsimp only; split; exacts [q _ (quiet_timerCancel _ s), q _ (.refl s)]
  all_goals exact ⟨fun _ => rfl, fun _ => rfl, fun _ => rfl, fun n _ => rfl⟩

theorem bitKept_writes (k : Binding) (r : Nat) (ws : List FieldWrite) :
    ∀ (s : State), (∀ w ∈ ws, (∀ a b d, w.1.bind ≠ .custom a b d) ∧ w.1.bind ≠ k) → BitKept k s (ws.foldl (applyWrite r) s) := by
  induction ws with
  | nil => intro s _; exact (Ctl.refl s).bitKept k
  | cons w ws ih =>
    intro s h
    have h1 := h w (List.mem_cons_self ..)
    exact (bitKept_apply k r w.1 w.2.2 s h1.1 h1.2).trans (ih _ (fun x hx => h x (List.mem_cons_of_mem _ hx)))

theorem fieldWrites_touched {c b r v be} {w : FieldWrite} (h : w ∈ fieldWrites c b r v be) : touched be w.1 = true := by
  simp only [fieldWrites, List.mem_map, List.mem_filter, Bool.and_eq_true] at h
  obtain ⟨f, hf, rfl⟩ := h; exact hf.2.2

theorem quiet_readLoop (r : Nat) (be : Word) (l : List FieldDesc) :
    ∀ (p : State × Word), (∀ f ∈ l, ∀ a b d, f.bind ≠ .custom a b d) → Quiet p.1 (l.foldl (readField r be) p).1 := by
  induction l with
  | nil => intro p _; exact .refl _
  | cons f l ih =>
    intro p h
    refine Quiet.trans ?_ (ih _ (fun x hx => h x (List.mem_cons_of_mem _ hx)))
    unfold readField; split
    · exact .refl _
    · dsimp only; split
      · unfold bindRead; split
        · exact quiet_fifoPop _ _
        · rename_i hb; exact absurd hb (h f (List.mem_cons_self ..) _ _ _)
        · exact .refl _
      · exact .refl _

/-- The clears of a read: no control bit changes, and a pending flag falls only by its own ReadToClear field (R80, R81). -/
theorem clearLoop_ctl {c : Cfg} (hv : validCfg c = true) (r : Nat) (be : Word) (l : List FieldDesc) :
    ∀ (s : State), s.cfg = c → (∀ f ∈ l, f ∈ fieldsOf c r ∧ ∀ a b d, f.bind ≠ .custom a b d) →
      Ctl s (l.foldl (clearField r be) s) ∧ ∀ n, s.blk.isPending n = true →
        ((l.foldl (clearField r be) s).blk.isPending n = true ∨
          ∃ f ∈ l, f.bind = .irqPending n ∧ readBeh c f = .readToClear ∧ touched be f = true) := by
  induction l with
  | nil => intro s _ _; exact ⟨.refl s, fun n h => .inl h⟩
  | cons f l ih =>
    intro s hc h
    have h' := fun x hx => h x (List.mem_cons_of_mem _ hx)
    obtain ⟨hf, hcu⟩ := h f (List.mem_cons_self ..)
    rw [List.foldl_cons]
    by_cases hcl : readBeh s.cfg f = .readToClear ∧ touched be f = true
    · have e : clearField r be s f = bindApply r f 0 s := by unfold clearField; rw [if_pos hcl]
      rw [hc] at hcl
      have hb := readToClear_binding hv hf hcl.1
      rcases hb with hb | ⟨i, hb⟩ | hb
      · have e2 : clearField r be s f = s.setReg r (insertField (s.regWord r) f.off f.wid 0) := by
          rw [e]; unfold bindApply; rw [hb]
        rw [e2]
        obtain ⟨a, b⟩ := ih (s.setReg r (insertField (s.regWord r) f.off f.wid 0)) hc h'
        refine ⟨Ctl.trans (t := s.setReg r (insertField (s.regWord r) f.off f.wid 0)) ⟨rfl, rfl, rfl, rfl, rfl⟩ a,
          fun n hn => ?_⟩
        rcases b n hn with b | ⟨g, hg, k⟩
        · exact .inl b
        · exact .inr ⟨g, List.mem_cons_of_mem _ hg, k⟩
      · have e2 : clearField r be s f = s.setPendings (s.blk.pending.set i (bit0 0)) := by rw [e]; unfold bindApply; rw [hb]
        rw [e2]
        obtain ⟨a, b⟩ := ih (s.setPendings (s.blk.pending.set i (bit0 0))) hc h'
        refine ⟨Ctl.trans (t := s.setPendings (s.blk.pending.set i (bit0 0))) ⟨rfl, rfl, rfl, rfl, rfl⟩ a, fun n hn => ?_⟩
        by_cases hin : i = n
        · subst hin; exact .inr ⟨f, List.mem_cons_self .., hb, hcl⟩
        · have : (s.setPendings (s.blk.pending.set i (bit0 0))).blk.isPending n = true := by
            show (s.blk.pending.set i _).getD n false = true
            rw [List.getD_eq_getElem?_getD, List.getElem?_set_ne hin, ← List.getD_eq_getElem?_getD]; exact hn
          rcases b n this with b | ⟨g, hg, k⟩
          · exact .inl b
          · exact .inr ⟨g, List.mem_cons_of_mem _ hg, k⟩
      · obtain ⟨x, y, z, hb⟩ := hb; exact absurd hb (hcu _ _ _)
    · have e : clearField r be s f = s := by unfold clearField; rw [if_neg hcl]
      rw [e]
      obtain ⟨a, b⟩ := ih s hc h'
      refine ⟨a, fun n hn => ?_⟩
      rcases b n hn with b | ⟨g, hg, k⟩
      · exact .inl b
      · exact .inr ⟨g, List.mem_cons_of_mem _ hg, k⟩

/-- The same of a whole read of a standard register. -/
theorem readMasked_ctl (r : Nat) (be : Word) (s : State) (hv : validCfg s.cfg = true) (hst : standardReg s.cfg r = true) :
   Ctl s (readMasked r be s).1 ∧ ∀ n, s.blk.isPending n = true →
      ((readMasked r be s).1.blk.isPending n = true ∨
        ∃ f ∈ fieldsOf s.cfg r, f.bind = .irqPending n ∧ readBeh s.cfg f = .readToClear ∧ touched be f = true) := by
  have hcu := fun f (hf : f ∈ fieldsOf s.cfg r) => (standard_field hst hf).2
  have q := quiet_readLoop r be (fieldsOf s.cfg r) (s, s.regWord r) hcu
  obtain ⟨a, b⟩ := clearLoop_ctl hv r be (fieldsOf s.cfg r) (readLoop r be s).1 q.cfg (fun f hf => ⟨hf, hcu f hf⟩)
  have e : (readMasked r be s).1 = (fieldsOf s.cfg r).foldl (clearField r be) (readLoop r be s).1 := by
    unfold readMasked; dsimp only; rw [(standard_post hst).1]; rfl
  rw [e]
  exact ⟨q.ctl.trans a, fun n hn => b n (q.pending n hn)⟩

/-- An entry point that recomputes: a quiet body, a masked read, or a masked write. -/
theorem body_kind {i : Instr} (s : State) (h : i.isTransaction = true) (hr : i ≠ .reset) (hg : ∀ g, i ≠ .signalSample g) :
   (∃ s1 res, bodyOf i s = (recompute s1).returning res ∧ Quiet s s1) ∨
   (∃ r be res, readParts s.cfg i = some (r, be) ∧ bodyOf i s = (recompute (readMasked r be s).1).returning res) ∨
   (∃ r v be, writeParts s.cfg s.blk i = some (r, v, be) ∧ bodyOf i s = recompute (writeMasked r v be s)) := by
  cases i with
  | read r => exact .inr (.inl ⟨_, _, _, rfl, rfl⟩)
  | readNarrow r k n => exact .inr (.inl ⟨_, _, _, rfl, rfl⟩)
  | readSet r => exact .inl ⟨_, _, rfl, quiet_diag s _⟩
  | readClr r => exact .inl ⟨_, _, rfl, quiet_diag s _⟩
  | readTgl r => exact .inl ⟨_, _, rfl, quiet_diag s _⟩
  | readNarrowAlias w r k n => exact .inl ⟨_, _, rfl, quiet_diag s _⟩
  | readRejected a n => exact .inl ⟨_, _, rfl, quiet_diag s _⟩
  | readUnmapped a n => exact .inl ⟨_, _, rfl, quiet_diag s _⟩
  | write r v => exact .inr (.inr ⟨_, _, _, rfl, rfl⟩)
  | writeSet r v => exact .inr (.inr ⟨_, _, _, rfl, rfl⟩)
  | writeClr r v => exact .inr (.inr ⟨_, _, _, rfl, rfl⟩)
  | writeTgl r v => exact .inr (.inr ⟨_, _, _, rfl, rfl⟩)
  | writeNarrow r k n x => exact .inr (.inr ⟨_, _, _, rfl, rfl⟩)
  | writeNarrowAlias w r k n x => exact .inr (.inr ⟨_, _, _, rfl, rfl⟩)
  | writeRejected a n v => exact .inl ⟨_, _, rfl, quiet_diag s _⟩
  | writeUnmapped a n v => exact .inl ⟨_, _, rfl, quiet_diag s _⟩
  | rxByte b => exact .inl ⟨_, _, rfl, quiet_rxPath b s⟩
  | flush q => 
    refine .inl ⟨flushBody q.toNat s, s.result, ?_, ?_⟩
    · show recompute (flushBody q.toNat s) = _
      have := (keepsAll_flushBody q.toNat s).result
      rw [State.returning, ← this]; rfl
    · unfold flushBody; split
      exacts [quiet_fifoFlush _ s, quiet_diag s _]
  | reset => exact absurd rfl hr
  | timerFire t tok =>
    refine .inl ⟨timerFireBody t.toNat tok s, s.result, ?_, ?_⟩
    · show recompute (timerFireBody t.toNat tok s) = _
      have := (keepsAll_timerFireBody t.toNat tok s).result
      rw [State.returning, ← this]; rfl
    · unfold timerFireBody; split
      · split
        · exact .refl s
        · split
          · exact (quiet_setTimer _ _ s).trans (quiet_raise _ _)
          · exact quiet_diag s _
      · exact quiet_diag s _
  | signalSample g => exact absurd rfl (hg g)
  | _ => exact absurd h (by simp [Instr.isTransaction, Instr.opcode])

theorem bitKept_recompute (k) (s1 : State) (res) : BitKept k s1 ((recompute s1).returning res) :=
  ⟨fun _ => rfl, fun _ => rfl, fun _ => rfl, fun _ _ => rfl⟩

/-- The applies of a write: a pending flag falls only by its own field, written so that its new value is 0 (R82). -/
theorem writes_pending (r : Nat) (n : Nat) (ws : List FieldWrite) :
    ∀ (s : State), (∀ w ∈ ws, (∀ a b d, w.1.bind ≠ .custom a b d)) → s.blk.isPending n = true →
    (ws.foldl (applyWrite r) s).blk.isPending n = true ∨ ∃ w ∈ ws, w.1.bind = .irqPending n ∧ bit0 w.2.2 = false := by
  induction ws with
  | nil => intro s _ h; exact .inl h
  | cons w ws ih =>
    intro s h hp
    have hcu := h w (List.mem_cons_self ..)
    have key : (applyWrite r s w).blk.isPending n = true ∨ (w.1.bind = .irqPending n ∧ bit0 w.2.2 = false) := by
      unfold applyWrite bindApply
      have q : ∀ t, Quiet s t → t.blk.isPending n = true ∨ (w.1.bind = .irqPending n ∧ bit0 w.2.2 = false) :=
        fun t h => .inl (h.pending n hp)
      rcases hb : w.1.bind with _ | i | i | i | ⟨qr, qt⟩ | i | ⟨i, p⟩ | i | i | i | _ | _ | _ | t | t | ⟨x, y, z⟩
      case irqPending =>
        by_cases hin : i = n
        · subst hin
          cases hbit : bit0 w.2.2
          · exact .inr ⟨rfl, rfl⟩
          · left
            show (s.blk.pending.set i true).getD i false = true
            have : i < s.blk.pending.length := by
              by_contra hlt
              simp only [Block.isPending, List.getD_eq_getElem?_getD] at hp
              rw [List.getElem?_eq_none (by omega)] at hp; cases hp
            simp [List.getD_eq_getElem?_getD, this]
        · left
          show (s.blk.pending.set i _).getD n false = true
          rw [List.getD_eq_getElem?_getD, List.getElem?_set_ne hin, ← List.getD_eq_getElem?_getD]; exact hp
      case custom => exact absurd hb (hcu _ _ _)
      case txEnable => exact .inl ((quiet_txEnable _ s).pending n hp)
      case uartData => cases qt with
        | none => exact .inl hp
        | some t => exact .inl ((quiet_txByte _ s).pending n hp)
      case fifoWatermark => exact .inl ((quiet_fifoSetWatermark _ _ s).pending n hp)
      case fifoMode => exact .inl ((quiet_fifoSetCapacity _ _ s).pending n hp)
      case fifoFlush => left; dsimp only; split; exacts [(quiet_fifoFlush _ s).pending n hp, hp]
      case timerStart => left; dsimp only; split; exacts [(quiet_timerArm _ s).pending n hp, hp]
      case timerStop => left; dsimp only; split; exacts [(quiet_timerCancel _ s).pending n hp, hp]
      all_goals exact .inl hp
    rcases key with k | k
    · rcases ih _ (fun x hx => h x (List.mem_cons_of_mem _ hx)) k with h | ⟨x, hx, k⟩
      · exact .inl h
      · exact .inr ⟨x, List.mem_cons_of_mem _ hx, k⟩
    · exact .inr ⟨w, List.mem_cons_self .., k⟩

/-- A pending field is one bit wide (R75). -/
theorem pending_wid {c : Cfg} (hv : validCfg c = true) {r : Nat} {f : FieldDesc} {n : Nat} (hf : f ∈ fieldsOf c r)
    (hb : f.bind = .irqPending n) : f.wid = 1 := by
  have h := bindingAllowed_of_valid hv hf
  unfold bindingAllowed at h; rw [hb] at h
  simp only [Bool.and_eq_true, decide_eq_true_eq] at h; exact h.1.1

theorem slice_one (v : Word) (off : Nat) : (slice v off 1).getLsbD 0 = v.getLsbD off := by
  rw [slice_getLsbD _ _ _ _ (by omega)]; simp

theorem touched_one {be : Word} {f : FieldDesc} (hw : f.wid = 1) (h : touched be f = true) : be.getLsbD f.off = true := by
  unfold touched at h; rw [hw] at h
  simp only [decide_eq_true_eq] at h
  by_contra hc
  apply h
  apply BitVec.eq_of_getLsbD_eq; intro j hj
  rw [slice_getLsbD _ _ _ _ (by omega)]
  by_cases hj0 : j = 0
  · subst hj0; simp at hc; simp [hc]
  · have : ¬ j < 1 := by omega
    simp [this]

/-- The outcome of an entry point that returns nothing, from its body before recompute. -/
theorem completes_recompute {i : Instr} {s s1 : State} {b : Block} {out : List Event} (ha : s.cfg.admits i = true)
    (hb : bodyOf i s.start = recompute s1) (hk : Keeps s.start s1) (h1 : s1.blk = b) (ho : outputs s1.trace = out) :
    Completes i s (Block.recomputed s.cfg b) .none out := by
  refine completes_of ha (body_frame _ _).1 (body_frame _ _).2 ?_ ?_ ?_
  · rw [hb, recompute_blk, hk.cfg, h1]; rfl
  · rw [hb, recompute_result, hk.result]; rfl
  · rw [hb, recompute_trace, ho]

end Sys2Proof.Machine
end

