-- ==== Sys2Proof/Laws/PerInstr.lean ====
section
/-! SUPPORT. Per instruction: its descriptor carries its operation code (30_encoding.md R58 to R60). -/

namespace Sys2Proof.Laws

/-- The descriptor of `i` carries the code of `i`, under every configuration. -/
def EncodesOpcode.Statement (i : Instr) : Prop := ∀ c : Cfg, (encode c i).op = i.opcode

theorem EncodesOpcode.read (r : Nat) : EncodesOpcode.Statement (.read r) :=
  fun _ => Desc.op_pack _ _ _ _
theorem EncodesOpcode.readSet (r : Nat) : EncodesOpcode.Statement (.readSet r) :=
  fun _ => Desc.op_pack _ _ _ _
theorem EncodesOpcode.readClr (r : Nat) : EncodesOpcode.Statement (.readClr r) :=
  fun _ => Desc.op_pack _ _ _ _
theorem EncodesOpcode.readTgl (r : Nat) : EncodesOpcode.Statement (.readTgl r) :=
  fun _ => Desc.op_pack _ _ _ _
theorem EncodesOpcode.readNarrow (r k n : Nat) : EncodesOpcode.Statement (.readNarrow r k n) :=
  fun _ => Desc.op_pack _ _ _ _
theorem EncodesOpcode.readNarrowAlias (w : Window) (r k n : Nat) : EncodesOpcode.Statement (.readNarrowAlias w r k n) :=
  fun _ => Desc.op_pack _ _ _ _
theorem EncodesOpcode.readRejected (a : Addr) (n : BitVec 8) : EncodesOpcode.Statement (.readRejected a n) :=
  fun _ => Desc.op_pack _ _ _ _
theorem EncodesOpcode.readUnmapped (a : Addr) (n : BitVec 8) : EncodesOpcode.Statement (.readUnmapped a n) :=
  fun _ => Desc.op_pack _ _ _ _
theorem EncodesOpcode.write (r : Nat) (v : Word) : EncodesOpcode.Statement (.write r v) :=
  fun _ => Desc.op_pack _ _ _ _
theorem EncodesOpcode.writeSet (r : Nat) (m : Word) : EncodesOpcode.Statement (.writeSet r m) :=
  fun _ => Desc.op_pack _ _ _ _
theorem EncodesOpcode.writeClr (r : Nat) (m : Word) : EncodesOpcode.Statement (.writeClr r m) :=
  fun _ => Desc.op_pack _ _ _ _
theorem EncodesOpcode.writeTgl (r : Nat) (m : Word) : EncodesOpcode.Statement (.writeTgl r m) :=
  fun _ => Desc.op_pack _ _ _ _
theorem EncodesOpcode.writeNarrow (r k n : Nat) (x : Word) : EncodesOpcode.Statement (.writeNarrow r k n x) :=
  fun _ => Desc.op_pack _ _ _ _
theorem EncodesOpcode.writeNarrowAlias (w : Window) (r k n : Nat) (x : Word) : EncodesOpcode.Statement (.writeNarrowAlias w r k n x) :=
  fun _ => Desc.op_pack _ _ _ _
theorem EncodesOpcode.writeRejected (a : Addr) (n : BitVec 8) (v : BitVec 64) : EncodesOpcode.Statement (.writeRejected a n v) :=
  fun _ => Desc.op_pack _ _ _ _
theorem EncodesOpcode.writeUnmapped (a : Addr) (n : BitVec 8) (v : BitVec 64) : EncodesOpcode.Statement (.writeUnmapped a n v) :=
  fun _ => Desc.op_pack _ _ _ _
theorem EncodesOpcode.rxByte (b : Byte) : EncodesOpcode.Statement (.rxByte b) :=
  fun _ => Desc.op_pack _ _ _ _
theorem EncodesOpcode.flush (q : BitVec 64) : EncodesOpcode.Statement (.flush q) :=
  fun _ => Desc.op_pack _ _ _ _
theorem EncodesOpcode.reset : EncodesOpcode.Statement (.reset) :=
  fun _ => Desc.op_pack _ _ _ _
theorem EncodesOpcode.timerFire (t : BitVec 64) (tok : Token) : EncodesOpcode.Statement (.timerFire t tok) :=
  fun _ => Desc.op_pack _ _ _ _
theorem EncodesOpcode.signalSample (g : BitVec 64) : EncodesOpcode.Statement (.signalSample g) :=
  fun _ => Desc.op_pack _ _ _ _
theorem EncodesOpcode.fifoPush (q : Nat) (b : Byte) : EncodesOpcode.Statement (.fifoPush q b) :=
  fun _ => Desc.op_pack _ _ _ _
theorem EncodesOpcode.fifoPop (q : Nat) : EncodesOpcode.Statement (.fifoPop q) :=
  fun _ => Desc.op_pack _ _ _ _
theorem EncodesOpcode.fifoFlush (q : Nat) : EncodesOpcode.Statement (.fifoFlush q) :=
  fun _ => Desc.op_pack _ _ _ _
theorem EncodesOpcode.fifoSetCapacity (q n : Nat) : EncodesOpcode.Statement (.fifoSetCapacity q n) :=
  fun _ => Desc.op_pack _ _ _ _
theorem EncodesOpcode.fifoSetWatermark (q n : Nat) : EncodesOpcode.Statement (.fifoSetWatermark q n) :=
  fun _ => Desc.op_pack _ _ _ _
theorem EncodesOpcode.irqSet (i : Nat) (b : Bool) : EncodesOpcode.Statement (.irqSet i b) :=
  fun _ => Desc.op_pack _ _ _ _
theorem EncodesOpcode.irqSetEnabled (i : Nat) (b : Bool) : EncodesOpcode.Statement (.irqSetEnabled i b) :=
  fun _ => Desc.op_pack _ _ _ _
theorem EncodesOpcode.irqIsPending (i : Nat) : EncodesOpcode.Statement (.irqIsPending i) :=
  fun _ => Desc.op_pack _ _ _ _
theorem EncodesOpcode.irqLevel (l : Nat) : EncodesOpcode.Statement (.irqLevel l) :=
  fun _ => Desc.op_pack _ _ _ _
theorem EncodesOpcode.recompute : EncodesOpcode.Statement (.recompute) :=
  fun _ => Desc.op_pack _ _ _ _
theorem EncodesOpcode.txByte (b : Byte) : EncodesOpcode.Statement (.txByte b) :=
  fun _ => Desc.op_pack _ _ _ _
theorem EncodesOpcode.txDrain : EncodesOpcode.Statement (.txDrain) :=
  fun _ => Desc.op_pack _ _ _ _
theorem EncodesOpcode.txEnable (b : Bool) : EncodesOpcode.Statement (.txEnable b) :=
  fun _ => Desc.op_pack _ _ _ _
theorem EncodesOpcode.timerArm (t : Nat) : EncodesOpcode.Statement (.timerArm t) :=
  fun _ => Desc.op_pack _ _ _ _
theorem EncodesOpcode.timerCancel (t : Nat) : EncodesOpcode.Statement (.timerCancel t) :=
  fun _ => Desc.op_pack _ _ _ _

end Sys2Proof.Laws
end

