-- ==== Sys2Proof/Laws/Untraced.lean ====
section
/-! SUPPORT. The operations of a write neither read nor change the events already in the trace and the result (`Blind`). -/

namespace Sys2Proof.Machine

/-- The same state with the events `tr` before its own, and with another result. -/
def State.preceded (s : State) (tr : List Event) (res : Result) : State := { s with trace := tr ++ s.trace, result := res }
/-- An operation that neither reads nor changes the events before it and the result. -/
def Blind (g : State → State) : Prop := ∀ s tr res, g (s.preceded tr res) = State.preceded (g s) tr res

theorem blind_settle (q : Nat) (st : FifoState) (w : Bool) : Blind (settle q st w) := by
  intro s tr res
  rcases h : s.blk.fifo[q]? with _ | f
  · rw [settle_absent _ _ _ _ h, settle_absent _ _ _ (s.preceded tr res) h]
  · rw [settle_eq _ _ _ _ f h, settle_eq _ _ _ (s.preceded tr res) f h]; simp [State.preceded]

theorem blind_refit (q : Nat) (f : Fifo) (items : List Byte) (cap wm : Nat) : Blind (refit q f items cap wm) := by
  intro s tr res; exact blind_settle q f.st f.wmx (s.setFifo q { f with items := items, cap := cap, wm := wm }) tr res

theorem blind_raise (e : IEvent) : Blind (raise e) := fun _ _ _ => rfl

theorem blind_diag (d : Diag) : Blind (fun s => State.diag s d) := by intro s tr res; simp [State.preceded, State.diag, State.emit]

theorem blind_emit (d : Event) : Blind (fun s => State.emit s d) := by intro s tr res; simp [State.preceded, State.emit]

theorem blind_fifoPush (q : Nat) (x : Byte) : Blind (fifoPush q x) := by
  intro s tr res
  unfold fifoPush
  show (match s.blk.fifo[q]? with | none => _ | some f => _) = _
  rcases s.blk.fifo[q]? with _ | f
  · rfl
  · dsimp only; split
    · exact blind_diag _ (raise (.overflow q) s) tr res
    · exact blind_settle q f.st f.wmx (raise (.pushed q) (s.setFifo q { f with items := f.items ++ [x] })) tr res

theorem blind_fifoPop (q : Nat) : Blind (fifoPop q) := by
  intro s tr res
  unfold fifoPop
  show (match s.blk.fifo[q]? with | none => _ | some f => _) = _
  rcases s.blk.fifo[q]? with _ | f
  · rfl
  · dsimp only
    cases hi : f.items with
    | nil => exact blind_diag _ (raise (.underflow q) s) tr res
    | cons b rest => exact blind_refit q f rest f.cap f.wm s tr res

theorem blind_fifoFlush (q : Nat) : Blind (fifoFlush q) := by
  intro s tr res
  unfold fifoFlush
  show (match s.blk.fifo[q]? with | none => _ | some f => _) = _
  rcases s.blk.fifo[q]? with _ | f
  · rfl
  · exact blind_refit q f [] f.cap f.wm s tr res

theorem blind_fifoSetWatermark (q n : Nat) : Blind (fifoSetWatermark q n) := by
  intro s tr res
  unfold fifoSetWatermark
  show (match s.blk.fifo[q]? with | none => _ | some f => _) = _
  rcases s.blk.fifo[q]? with _ | f
  · rfl
  · exact blind_refit q f _ f.cap _ s tr res

theorem blind_fifoSetCapacity (q n : Nat) : Blind (fifoSetCapacity q n) := by
  intro s tr res
  unfold fifoSetCapacity
  show (match s.blk.fifo[q]? with | none => _ | some f => _) = _
  rcases s.blk.fifo[q]? with _ | f
  · rfl
  · dsimp only
    show (if n = f.cap then s.preceded tr res else if (s.blk.txEn || s.blk.rxEn) = true then _
      else if n < 1 ∨ needsPow2 s.cfg q = true ∧ isPow2 n = false then _ else _) = _
    split
    · rfl
    · split
      · exact blind_diag _ s tr res
      · split
        · exact blind_diag _ s tr res
        · exact blind_refit q f _ _ _ s tr res

theorem blind_rxPath (x : Byte) : Blind (rxPath x) := by
  intro s tr res
  unfold rxPath
  show (match fifoOf s.cfg .rx, s.blk.rxEn with | some q, true => _ | _, _ => _) = _
  cases fifoOf s.cfg .rx <;> cases s.blk.rxEn
  · exact blind_diag _ s tr res
  · exact blind_diag _ s tr res
  · exact blind_diag _ s tr res
  · exact blind_fifoPush _ _ s tr res

theorem blind_deliver (x : Byte) : Blind (deliver x) := by
  intro s tr res
  unfold deliver
  show (if s.blk.loopOn = true then _ else _) = _
  split
  · dsimp only
    rw [blind_rxPath x s tr res]
    show (if (rxPath x s).cfg.loopbackAlsoTransmits = true then _ else _) = _
    split
    · exact blind_emit _ (rxPath x s) tr res
    · rfl
  · exact blind_emit _ s tr res

theorem blind_txByte (x : Byte) : Blind (txByte x) := by
  intro s tr res
  unfold txByte
  show (if s.blk.txEn = true then _ else match fifoOf s.cfg .tx with | some q => _ | none => _) = _
  split
  · exact blind_deliver x s tr res
  · rcases fifoOf s.cfg .tx with _ | q
    · exact blind_diag _ s tr res
    · exact blind_fifoPush _ _ s tr res

theorem blind_drainLoop (q n : Nat) : Blind (drainLoop q n) := by
  induction n with
  | zero => intro s tr res; rfl
  | succ n ih =>
    intro s tr res
    unfold drainLoop
    show (match s.blk.fifo[q]? with | none => _ | some f => _) = _
    rcases s.blk.fifo[q]? with _ | f
    · rfl
    · dsimp only
      rcases f.items with _ | ⟨b, rest⟩
      · rfl
      · dsimp only; rw [blind_fifoPop, blind_deliver, ih]

theorem blind_txDrain : Blind txDrain := by
  intro s tr res
  unfold txDrain
  show (match fifoOf s.cfg .tx with | none => _ | some q => match s.blk.fifo[q]? with | none => _ | some f => _) = _
  rcases fifoOf s.cfg .tx with _ | q
  · rfl
  · dsimp only
    rcases s.blk.fifo[q]? with _ | f
    · rfl
    · exact blind_drainLoop _ _ s tr res

theorem blind_txEnable (b : Bool) : Blind (txEnable b) := by
  intro s tr res
  unfold txEnable
  show (if (!s.blk.txEn && b) = true then _ else _) = _
  dsimp only
  split
  · exact blind_txDrain (s.setTxEn b) tr res
  · rfl

theorem blind_voidFiring (t : Nat) (x : Timer) : Blind (voidFiring t x) := by
  intro s tr res; unfold voidFiring; split
  · exact blind_emit _ s tr res
  · rfl

theorem blind_timerArm (t : Nat) : Blind (timerArm t) := by
  intro s tr res
  unfold timerArm
  show (match s.blk.timer[t]? with | none => _ | some x => _) = _
  rcases s.blk.timer[t]? with _ | x
  · rfl
  · dsimp only; rw [blind_voidFiring]; exact blind_emit _ ((voidFiring t x s).setTimer t ⟨.armed, x.token + 1⟩) tr res

theorem blind_timerCancel (t : Nat) : Blind (timerCancel t) := by
  intro s tr res
  unfold timerCancel
  show (match s.blk.timer[t]? with | none => _ | some x => _) = _
  rcases s.blk.timer[t]? with _ | x
  · rfl
  · dsimp only; rw [blind_voidFiring]; rfl

theorem blind_recompute : Blind recompute := fun _ _ _ => rfl

theorem blind_storeOwn (r : Nat) (v : Word) : Blind (storeOwn r v) := by
  intro s tr res
  unfold storeOwn
  show (match s.cfg.regs[r]? with | none => _ | some d => _) = _
  rcases s.cfg.regs[r]? with _ | d <;> rfl

/-- Every action of a custom function. -/
theorem blind_runAct (r : Nat) (a : Act) : Blind (fun s => runAct r s a) := by
  cases a with
  | fifoPush q x => exact blind_fifoPush q x
  | fifoPop q => exact blind_fifoPop q
  | fifoFlush q => exact blind_fifoFlush q
  | fifoSetCapacity q n => exact blind_fifoSetCapacity q n
  | fifoSetWatermark q n => exact blind_fifoSetWatermark q n
  | irqSet i v => exact fun _ _ _ => rfl
  | irqSetEnabled i v => exact fun _ _ _ => rfl
  | recompute => exact blind_recompute
  | txByte x => exact blind_txByte x
  | txDrain => exact blind_txDrain
  | txEnable v => exact blind_txEnable v
  | timerArm t => exact blind_timerArm t
  | timerCancel t => exact blind_timerCancel t
  | emit e => exact blind_emit e
  | raise e => exact blind_raise e
  | store v => exact blind_storeOwn r v

end Sys2Proof.Machine
end

