-- ==== Sys2Proof/Laws/Turns.lean ====
section
/-! SUPPORT. Operations in turn (`InTurn`, `CustomDone`, `ApplyDone`, ... of Safety.lean): each relation is what the model's function for
it does, whatever the trace and the result it starts from (`Tracks`). -/

namespace Sys2Proof.Machine

/-- The same machine but for the trace and the result. -/
structure Alike (s u : State) : Prop where
  cfg : u.cfg = s.cfg
  blk : u.blk = s.blk
  inbox : u.inbox = s.inbox

theorem Alike.refl (s : State) : Alike s s := ⟨rfl, rfl, rfl⟩

theorem Alike.start (s : State) : Alike s s.start := ⟨rfl, rfl, rfl⟩

theorem Alike.preceded {s u : State} (h : Alike s u) : u = s.start.preceded u.trace u.result := by
  obtain ⟨hc, hb, hi⟩ := h
  rcases u with ⟨uc, ub, ui, ut, ur⟩; rcases s with ⟨sc, sb, si, st, sr⟩
  simp only at hc hb hi
  simp [State.preceded, State.start, hc, hb, hi]

/-- What holds all along: the configuration `c` and, where `n` asks for it, the invariants of its blocks. -/
structure Held (c : Cfg) (n : Prop) (u : State) : Prop where
  cfg : u.cfg = c
  good : n → Good c u.blk

theorem Held.keeps {c : Cfg} {n : Prop} {u v : State} (h : Held c n u) (k : Keeps u v) : Held c n v :=
  ⟨k.cfg.trans h.cfg, fun hn => h.cfg ▸ k.good (h.cfg ▸ h.good hn)⟩

theorem Held.foldl {α : Type} {c : Cfg} {n : Prop} (g : State → α → State) (l : List α)
    (h : ∀ a ∈ l, ∀ u, Held c n u → Held c n (g u a)) {u : State} (k : Held c n u) : Held c n (l.foldl g u) := by
  induction l generalizing u with
  | nil => exact k
  | cons a l ih => exact ih (fun b hb => h b (List.mem_cons_of_mem _ hb)) (h a (List.mem_cons_self ..) u k)

/-- In a constructed block they hold between entry points. -/
theorem held_start (s : State) : Held s.cfg (Inv s) s.start := ⟨rfl, fun h => ⟨h.shaped, h.fifos, h.fixed⟩⟩

/-- `g` does what `P` says: from a state that is like the one `P` starts from, to one like the one it ends in, with the events it says. -/
def Tracks (c : Cfg) (n : Prop) (P : State → State → List Event → Prop) (g : State → State) : Prop :=
  ∀ s u, Alike s u → Held c n u → ∃ t o, P s t o ∧ Alike t (g u) ∧ outputs (g u).trace = outputs u.trace ++ o

theorem tracks_skip (c : Cfg) (n : Prop) : Tracks c n (fun s t o => t = s ∧ o = []) id :=
  fun s _ h _ => ⟨s, [], ⟨rfl, rfl⟩, h, by simp⟩

/-- An operation that neither reads nor changes the trace and the result. -/
theorem Blind.alike {g : State → State} (hg : Blind g) {s u : State} (h : Alike s u) :
    Alike (g s.start) (g u) ∧ outputs (g u).trace = outputs u.trace ++ outputs (g s.start).trace := by
  have e : g u = (g s.start).preceded u.trace u.result := by
    conv_lhs => rw [h.preceded]
    exact hg s.start u.trace u.result
  rw [e]
  exact ⟨⟨rfl, rfl, rfl⟩, outputs_append _ _⟩

/-- A body that does what `g` does, but for the value it returns. -/
def Bodied (c : Cfg) (i : Instr) (g : State → State) : Prop := ∀ s : State, s.cfg = c → ∃ res, bodyOf i s = (g s).returning res

theorem bodied_of_eq {c : Cfg} {i : Instr} {g : State → State} (h : ∀ s : State, s.cfg = c → bodyOf i s = g s) : Bodied c i g :=
  fun s hs => ⟨(g s).result, h s hs⟩

/-- A primitive run as an instruction. -/
theorem tracks_exec {c : Cfg} {n : Prop} {i : Instr} {g : State → State} (ha : c.admits i = true) (hg : Bodied c i g) (hb : Blind g) :
    Tracks c n (fun s t o => exec i s = .next t ∧ o = outputs t.trace) g := by
  intro s u h k
  have hc : s.cfg = c := h.cfg.symm.trans k.cfg
  obtain ⟨res, hr⟩ := hg s.start hc
  have hx : exec i s = .next ((g s.start).returning res) := by rw [exec_admitted (by rw [hc]; exact ha), hr]
  obtain ⟨⟨h1, h2, h3⟩, h4⟩ := hb.alike h
  exact ⟨_, _, ⟨hx, rfl⟩, ⟨h1, h2, h3⟩, h4⟩

/-- Operations in turn. -/
theorem tracks_inTurn {α : Type} {c : Cfg} {n : Prop} {P : α → State → State → List Event → Prop} {g : State → α → State} (l : List α)
    (h : ∀ a ∈ l, Tracks c n (P a) (fun s => g s a)) (hk : ∀ a ∈ l, ∀ s, Held c n s → Held c n (g s a)) :
    Tracks c n (InTurn P l) (fun s => l.foldl g s) := by
  induction l with
  | nil => exact tracks_skip c n
  | cons a l ih =>
    intro s u hs hu
    obtain ⟨t, o, h1, h2, h3⟩ := h a (List.mem_cons_self ..) s u hs hu
    obtain ⟨t', o', k1, k2, k3⟩ := ih (fun b hb => h b (List.mem_cons_of_mem _ hb)) (fun b hb => hk b (List.mem_cons_of_mem _ hb)) t (g u a) h2
      (hk a (List.mem_cons_self ..) u hu)
    exact ⟨t', o ++ o', ⟨t, o, o', h1, k1, rfl⟩, k2, k3.trans (by rw [show outputs (g u a).trace = _ from h3, List.append_assoc])⟩

/-! ## Custom functions -/

theorem ownBits_eq {c : Cfg} {r : Nat} {d : RegDesc} (h : c.regs[r]? = some d) : ownBits c r = storedMask d := by
  unfold ownBits; rw [fieldsOf_of h]; rfl

theorem runAct_direct (r : Nat) (a : Act) (s : State) (h : actPrimitive a = none) :
    runAct r s a = { s with blk := actDirect s.cfg r s.blk a, trace := s.trace ++ actEvents a } := by
  cases a <;> first | (cases h; done) | skip
  case emit e => rfl
  case raise e => show raise e s = _; rw [raise_eq]; simp [actDirect, actEvents, State.setPendings]
  case store v =>
    show storeOwn r v s = _
    unfold storeOwn
    rcases hd : s.cfg.regs[r]? with _ | d
    · have : ownBits s.cfg r = 0 := by simp [ownBits, fieldsOf, hd]
      simp only [actDirect, this, actEvents, List.append_nil]
      have e : (s.blk.reg.getD r 0 &&& ~~~(0 : Word)) ||| (v &&& 0) = s.blk.reg.getD r 0 := by
        have : ~~~(0 : Word) = BitVec.allOnes 32 := by decide
        rw [this, BitVec.and_allOnes]; simp
      rw [e, show s.blk.reg.set r (s.blk.reg.getD r 0) = s.blk.reg from set_getD_self s.blk.reg r]
    · simp [actDirect, ownBits_eq hd, actEvents, State.setReg, State.regWord]

/-- An action that invokes a primitive is that primitive's body. -/
theorem runAct_prim (c : Cfg) (r : Nat) (a : Act) (i : Instr) (h : actPrimitive a = some i) : Bodied c i (fun s => runAct r s a) := by
  cases a <;> cases h
  case fifoPush => exact fun s _ => ⟨_, rfl⟩
  case fifoPop => exact fun s _ => ⟨_, rfl⟩
  all_goals exact bodied_of_eq fun _ _ => rfl

/-- An action on an element that a block of the right shape does not have does nothing. -/
theorem runAct_absent (r : Nat) (a : Act) (i : Instr) (s : State) (h : actPrimitive a = some i) (ha : s.cfg.admits i = false)
    (hs : Shaped s.cfg s.blk) : runAct r s a = s := by
  have fifo : ∀ q : Nat, ¬ q < s.cfg.fifos.length → s.blk.fifo[q]? = none := fun q hq => List.getElem?_eq_none (by rw [hs.fifo]; omega)
  have timer : ∀ q : Nat, ¬ q < s.cfg.timers.length → s.blk.timer[q]? = none := fun q hq => List.getElem?_eq_none (by rw [hs.timer]; omega)
  cases a <;> cases h <;> simp only [Cfg.admits, decide_eq_false_iff_not, reduceCtorEq] at ha
  case fifoPush q x => show fifoPush q x s = s; unfold fifoPush; rw [fifo q ha]
  case fifoPop q => show fifoPop q s = s; unfold fifoPop; rw [fifo q ha]
  case fifoFlush q => show fifoFlush q s = s; unfold fifoFlush; rw [fifo q ha]
  case fifoSetCapacity q n => show fifoSetCapacity q n s = s; unfold fifoSetCapacity; rw [fifo q ha]
  case fifoSetWatermark q n => show fifoSetWatermark q n s = s; unfold fifoSetWatermark; rw [fifo q ha]
  case irqSet i v =>
    show s.setPendings _ = s; rw [List.set_eq_of_length_le (by rw [hs.pending]; omega)]; rfl
  case irqSetEnabled i v =>
    show s.setEnableds _ = s; rw [List.set_eq_of_length_le (by rw [hs.enabled]; omega)]; rfl
  case timerArm q => show timerArm q s = s; unfold timerArm; rw [timer q ha]
  case timerCancel q => show timerCancel q s = s; unfold timerCancel; rw [timer q ha]

/-- One action of a custom function, in a block of the right shape. -/
theorem tracks_act {c : Cfg} {n : Prop} (hn : n) (r : Nat) (a : Act) : Tracks c n (ActDone r a) (fun s => runAct r s a) := by
  intro s u h k
  have hc : s.cfg = c := h.cfg.symm.trans k.cfg
  show ∃ t o, ActDone r a s t o ∧ Alike t (runAct r u a) ∧ outputs (runAct r u a).trace = outputs u.trace ++ o
  unfold ActDone
  rcases hp : actPrimitive a with _ | i <;> dsimp only
  · rw [runAct_direct r a u hp]
    exact ⟨_, _, ⟨rfl, rfl⟩, ⟨h.cfg, by simp only [h.cfg, h.blk], h.inbox⟩, outputs_append _ _⟩
  · rw [hc]
    cases ha : c.admits i
    · rw [runAct_absent r a i u hp (by rw [k.cfg]; exact ha) (by rw [k.cfg]; exact (k.good hn).shaped)]
      exact ⟨s, [], ⟨nofun, fun _ => ⟨rfl, rfl⟩⟩, h, by simp⟩
    · obtain ⟨t, o, h1, h2, h3⟩ := tracks_exec (n := n) ha (runAct_prim c r a i hp) (blind_runAct r a) s u h k
      exact ⟨t, o, ⟨fun _ => h1, nofun⟩, h2, h3⟩

/-- A custom function, in a block of the right shape. -/
theorem tracks_custom {c : Cfg} {n : Prop} (hn : n) (r : Nat) (l : List Act) : Tracks c n (CustomDone r l) (runActs r l) := by
  intro s u h k
  obtain ⟨t, o, h1, h2, h3⟩ := tracks_inTurn l (fun a _ => tracks_act hn r a) (fun a _ s hs => hs.keeps (keeps_runAct r s a)) s u h k
  have hd : (Drained s.cfg s.blk → Drained t.cfg t.blk) ↔ (queueClear u = true → queueClear (l.foldl (runAct r) u) = true) := by
    rw [queueClear_iff, queueClear_iff, show (l.foldl (runAct r) u).cfg = t.cfg from h2.cfg, show (l.foldl (runAct r) u).blk = t.blk from h2.blk,
      h.cfg, h.blk]
  rcases runActs_cases r l u with ⟨e, a, b⟩ | ⟨e, a⟩
  · have hx : ¬ (Drained s.cfg s.blk → Drained t.cfg t.blk) := by rw [hd, b]; simpa using a
    exact ⟨s, [], ⟨t, o, h1, fun x => absurd x hx, fun _ => ⟨rfl, rfl⟩⟩, by rw [e]; exact h, by rw [e]; simp [outputs]⟩
  · exact ⟨t, o, ⟨t, o, h1, fun _ => ⟨rfl, rfl⟩, fun x => absurd (hd.2 a) x⟩, by rw [e]; exact h2, by rw [e]; exact h3⟩

/-- `post_read` and `post_write`. -/
theorem tracks_post {c : Cfg} {n : Prop} (r : Nat) (h : Option Nat) (hn : h ≠ none → n) : Tracks c n (PostDone r h) (runPost r h) := by
  rcases h with _ | id
  · exact tracks_skip c n
  · intro s u a k
    have := tracks_custom (c := c) (hn (by simp)) r (Config.customPost id s.blk) s u a k
    unfold PostDone runPost; dsimp only; rw [a.blk]; exact this

/-! ## Applies and effects -/

/-- The apply of a field without a custom binding: a primitive that the configuration admits, or a direct change of the block. -/
theorem apply_cases {c : Cfg} (hv : validCfg c = true) {r : Nat} {w : FieldWrite} (hf : w.1 ∈ fieldsOf c r)
    (hcu : ∀ a b d, w.1.bind ≠ .custom a b d) :
    (∃ i, applyPrimitive c w = some i ∧ c.admits i = true ∧ Bodied c i (fun s => applyWrite r s w)) ∨
    (applyPrimitive c w = none ∧ ∀ s : State, applyWrite r s w = { s with blk := applyDirect r w s.blk }) := by
  have hb := bindingAllowed_of_valid hv hf
  obtain ⟨f, old, new⟩ := w
  dsimp only at hb hcu
  unfold bindingAllowed at hb
  simp only [applyPrimitive, applyWrite, applyDirect, bindApply]
  rcases hbd : f.bind with _ | i | i | i | ⟨qr, qt⟩ | q | ⟨q, p⟩ | q | q | q | _ | _ | _ | t | t | ⟨x, y, z⟩ <;> rw [hbd] at hb <;>
    simp only [Bool.and_eq_true, decide_eq_true_eq] at hb
  case custom => exact absurd hbd (hcu _ _ _)
  case irqEnable => exact .inl ⟨_, rfl, by simpa [Cfg.admits] using hb.1.2, bodied_of_eq fun _ _ => rfl⟩
  case fifoWatermark => exact .inl ⟨_, rfl, by simpa [Cfg.admits] using hb.1, bodied_of_eq fun _ _ => rfl⟩
  case fifoMode => exact .inl ⟨_, rfl, by simpa [Cfg.admits] using hb.1.2, bodied_of_eq fun s hs => by dsimp only; rw [hs]; rfl⟩
  case txEnable => exact .inl ⟨_, rfl, rfl, bodied_of_eq fun _ _ => rfl⟩
  case uartData =>
    cases qt with
    | none => exact .inr ⟨rfl, fun _ => rfl⟩
    | some t => exact .inl ⟨_, rfl, rfl, bodied_of_eq fun _ _ => rfl⟩
  case fifoFlush | timerStart | timerStop =>
    all_goals
      cases hbit : bit0 new <;> simp only [if_true, Bool.false_eq_true, if_false]
      · exact .inr ⟨trivial, fun _ => trivial⟩
      · exact .inl ⟨_, rfl, by simpa [Cfg.admits] using hb.1.2, bodied_of_eq fun _ _ => rfl⟩
  all_goals exact .inr ⟨rfl, fun _ => rfl⟩

/-- The applies neither read nor change the trace and the result. -/
theorem blind_apply (r : Nat) (w : FieldWrite) (hcu : ∀ a b d, w.1.bind ≠ .custom a b d) : Blind (fun s => applyWrite r s w) := by
  obtain ⟨f, old, new⟩ := w
  simp only [applyWrite, bindApply] at hcu ⊢
  rcases hbd : f.bind with _ | i | i | i | ⟨qr, qt⟩ | q | ⟨q, p⟩ | q | q | q | _ | _ | _ | t | t | ⟨x, y, z⟩ <;> try dsimp only
  case custom => exact absurd hbd (hcu _ _ _)
  case uartData => cases qt with
    | none => exact fun _ _ _ => rfl
    | some t => exact blind_txByte _
  case fifoWatermark => exact blind_fifoSetWatermark _ _
  case fifoMode => exact fun s tr res => blind_fifoSetCapacity q (if bit0 new then fifoModeCap s.cfg q else 1) s tr res
  case txEnable => exact blind_txEnable _
  case fifoFlush => cases bit0 new <;> simp only [if_true, Bool.false_eq_true, if_false]; exacts [fun _ _ _ => rfl, blind_fifoFlush _]
  case timerStart => cases bit0 new <;> simp only [if_true, Bool.false_eq_true, if_false]; exacts [fun _ _ _ => rfl, blind_timerArm _]
  case timerStop => cases bit0 new <;> simp only [if_true, Bool.false_eq_true, if_false]; exacts [fun _ _ _ => rfl, blind_timerCancel _]
  all_goals exact fun _ _ _ => rfl

/-- A field whose functions are all standard, or a block of the right shape. -/
theorem tracks_apply {c : Cfg} {n : Prop} (hv : validCfg c = true) {r : Nat} {w : FieldWrite} (hf : w.1 ∈ fieldsOf c r)
    (hn : ∀ a b d, w.1.bind = .custom a b d → n) : Tracks c n (ApplyDone r w) (fun s => applyWrite r s w) := by
  intro s u h k
  have hc : s.cfg = c := h.cfg.symm.trans k.cfg
  by_cases hcu : ∃ a b d, w.1.bind = .custom a b d
  · obtain ⟨a, b, d, e⟩ := hcu
    have := tracks_custom (c := c) (hn a b d e) r (Config.customApply d w.2.2 s.blk) s u h k
    unfold ApplyDone applyWrite bindApply; simp only [e, h.blk]; exact this
  · have hcu : ∀ a b d, w.1.bind ≠ .custom a b d := fun a b d e => hcu ⟨a, b, d, e⟩
    have hA : ∀ t o, ApplyDone r w s t o = (match applyPrimitive c w with
        | some i => exec i s = .next t ∧ o = outputs t.trace
        | none => t = { s with blk := applyDirect r w s.blk } ∧ o = []) := by
      intro t o; unfold ApplyDone; rw [hc]; split
      · rename_i e; exact absurd e (hcu _ _ _)
      · rfl
    simp only [hA]
    rcases apply_cases hv hf hcu with ⟨i, hp, ha, hb⟩ | ⟨hp, hb⟩ <;> rw [hp] <;> dsimp only
    · exact tracks_exec (n := n) ha hb (blind_apply r w hcu) s u h k
    · rw [hb u]
      exact ⟨_, _, ⟨rfl, rfl⟩, ⟨h.cfg, by simp only [h.blk], h.inbox⟩, by simp⟩

/-- A write effect. -/
theorem tracks_effect {c : Cfg} {n : Prop} (r : Nat) (w : FieldWrite) (hn : w.1.effect ≠ none → n) :
    Tracks c n (EffectDone r w) (fun s => effectWrite r s w) := by
  intro s u h k
  show ∃ t o, EffectDone r w s t o ∧ Alike t (effectWrite r u w) ∧ _
  unfold EffectDone effectWrite
  rcases he : w.1.effect with _ | id <;> dsimp only
  · exact tracks_skip c n s u h k
  · have := tracks_custom (c := c) (hn (by simp [he])) r (Config.customEffect id w.2.1 w.2.2 s.blk) s u h k
    rw [h.blk]; exact this

/-! ## Reads -/

/-- A read action. -/
theorem tracks_onRead {c : Cfg} {n : Prop} (hv : validCfg c = true) {r : Nat} {f : FieldDesc} (hf : f ∈ fieldsOf c r)
    (hn : ∀ a b d, f.bind = .custom a b d → n) : Tracks c n (OnReadDone r f) (bindRead r f) := by
  have hb := bindingAllowed_of_valid hv hf
  unfold bindingAllowed at hb
  intro s u h k
  have hc : s.cfg = c := h.cfg.symm.trans k.cfg
  unfold OnReadDone bindRead
  rcases hbd : f.bind with _ | i | i | i | ⟨qr, qt⟩ | q | ⟨q, p⟩ | q | q | q | _ | _ | _ | t | t | ⟨x, y, z⟩ <;> rw [hbd] at hb <;>
    simp only [Bool.and_eq_true, decide_eq_true_eq] at hb <;> try dsimp only
  case custom =>
    have := tracks_custom (c := c) (hn x y z hbd) r (Config.customRead y s.blk) s u h k
    rw [h.blk]; exact this
  case uartData =>
    cases qr with
    | none => exact tracks_skip c n s u h k
    | some q =>
      have hq : q < c.fifos.length := by
        have := (bindingAllowed_iff c f).1 (bindingAllowed_of_valid hv hf)
        unfold FieldAllowed at this; rw [hbd] at this
        obtain ⟨d, hd, -⟩ := this.2.2.1 q rfl
        exact (List.getElem?_eq_some_iff.1 hd).1
      exact tracks_exec (i := .fifoPop q) (n := n) (by simpa [Cfg.admits] using hq) (g := fifoPop q) (fun s hs => ⟨_, rfl⟩) (blind_fifoPop q) s u h k
  all_goals exact tracks_skip c n s u h k

/-- The second loop of a masked read, one field. -/
theorem tracks_clear {c : Cfg} {n : Prop} (hv : validCfg c = true) {r : Nat} {f : FieldDesc} (be : Word) (hf : f ∈ fieldsOf c r)
    (hn : ∀ a b d, f.bind = .custom a b d → n) : Tracks c n (ClearDone r be f) (fun s => clearField r be s f) := by
  intro s u h k
  have hc : s.cfg = c := h.cfg.symm.trans k.cfg
  show ∃ t o, ClearDone r be f s t o ∧ Alike t (clearField r be u f) ∧ outputs (clearField r be u f).trace = _
  unfold ClearDone clearField
  rw [h.cfg]
  by_cases hh : readBeh s.cfg f = .readToClear ∧ slice be f.off f.wid ≠ 0
  · rw [if_pos (by simpa [touched] using hh)]
    obtain ⟨t, o, h1, h2⟩ := tracks_apply (w := (f, 0, 0)) hv hf hn s u h k
    exact ⟨t, o, ⟨fun _ => h1, fun x => absurd hh x⟩, h2⟩
  · rw [if_neg (by simpa [touched] using hh)]
    exact ⟨s, [], ⟨fun x => absurd x hh, fun _ => ⟨rfl, rfl⟩⟩, h, by simp⟩

/-- The first loop of a masked read. -/
theorem tracks_fields {c : Cfg} {n : Prop} (hv : validCfg c = true) {r : Nat} (be : Word) (l : List FieldDesc)
    (hl : ∀ f ∈ l, f ∈ fieldsOf c r) (hn : ∀ f ∈ l, ∀ a b d, f.bind = .custom a b d → n) :
    ∀ (s u : State) (v : Word), Alike s u → Held c n u → ∃ t o, FieldsRead r be l s v t (l.foldl (readField r be) (u, v)).2 o ∧
      Alike t (l.foldl (readField r be) (u, v)).1 ∧ outputs (l.foldl (readField r be) (u, v)).1.trace = outputs u.trace ++ o := by
  induction l with
  | nil => exact fun s u v h _ => ⟨s, [], ⟨rfl, rfl, rfl⟩, h, by simp⟩
  | cons f l ih =>
    intro s u v h k
    have hc : s.cfg = c := h.cfg.symm.trans k.cfg
    have hf := hl f (List.mem_cons_self ..)
    rw [List.foldl_cons]
    have shown : slice (peekReg s.cfg s.blk r) f.off f.wid = trunc f.wid (shownValue s.cfg s.blk r f) := by
      rw [peekReg_eq]; exact insertAll_slice _ _ _ (by rw [hc]; exact laid_fieldsOf hv r) f (by rw [hc]; exact hf)
    have key : ∃ t o, ((readBeh s.cfg f ≠ .zero ∧ slice be f.off f.wid ≠ 0) → OnReadDone r f s t o) ∧
        (¬ (readBeh s.cfg f ≠ .zero ∧ slice be f.off f.wid ≠ 0) → t = s ∧ o = []) ∧
        Alike t (readField r be (u, v) f).1 ∧ outputs (readField r be (u, v) f).1.trace = outputs u.trace ++ o ∧
        Held c n (readField r be (u, v) f).1 ∧
        (readField r be (u, v) f).2 = insertField v f.off f.wid (slice (peekReg s.cfg s.blk r) f.off f.wid) := by
      rw [shown, insertField_trunc]
      unfold readField shownValue; dsimp only
      rw [h.cfg, h.blk]
      by_cases hz : readBeh s.cfg f = .zero
      · simp only [hz, if_true]
        exact ⟨s, [], fun x => absurd rfl x.1, fun _ => ⟨rfl, rfl⟩, h, by simp, k, trivial⟩
      · simp only [hz, if_false]
        by_cases ht : slice be f.off f.wid ≠ 0
        · rw [if_pos (by simpa [touched] using ht)]
          obtain ⟨t, o, h1, h2, h3⟩ := tracks_onRead hv hf (hn f (List.mem_cons_self ..)) s u h k
          exact ⟨t, o, fun _ => h1, fun x => absurd ⟨hz, ht⟩ x, h2, h3, k.keeps (keeps_bindRead r f u), trivial⟩
        · rw [if_neg (by simpa [touched] using ht)]
          exact ⟨s, [], fun x => absurd x.2 ht, fun _ => ⟨rfl, rfl⟩, h, by simp, k, trivial⟩
    obtain ⟨t, o, h1, h2, h3, h4, h5, h6⟩ := key
    obtain ⟨t', o', k1, k2, k3⟩ := ih (fun g hg => hl g (List.mem_cons_of_mem _ hg)) (fun g hg => hn g (List.mem_cons_of_mem _ hg)) t
      (readField r be (u, v) f).1 (readField r be (u, v) f).2 h3 h5
    refine ⟨t', o ++ o', ⟨t, o, o', h1, h2, ?_, rfl⟩, k2, k3.trans (by rw [h4, List.append_assoc])⟩
    rw [← h6]; exact k1

end Sys2Proof.Machine
end

