-- ==== Sys2Proof/Tests/Slice0.lean ====
section
/-! SUPPORT. Tests: ill-formed terms refused, descriptors written out from 30_encoding.md, single steps whose expected values are those
of 95_test_vectors.md (its section is named in the comment), and for every statement with hypotheses a theorem that shows concrete
states and operands meeting all of them. -/

namespace Sys2Proof.Tests

open Machine

set_option Elab.async false

/-! ## Helpers -/

/-- The state after serving one descriptor; the old one if the step stops. -/
def served (s : State) (d : Desc) : State :=
  match step (withDescriptor s d) with
  | .next t => t
  | _ => s

/-- The state after an instruction; the old one if it stops. -/
def ran (s : State) (i : Instr) : State :=
  match exec i s with
  | .next t => t
  | _ => s

/-- The refusal of an outcome, where it is one. -/
def refusal (o : Host.Outcome State Fault Refusal) : Option Refusal :=
  match o with
  | .refused e => some e
  | _ => none

/-- What the decoder reads from a descriptor under REF. -/
def read144 (d : Desc) : Option Instr := decodeTableWord 144 d.toNat

/-- A block of configuration `c`, just constructed. -/
def fresh (c : Cfg) : State :=
  match construct c with
  | .ok s => s
  | .error _ => State.reset

/-- REF after the given instructions. -/
def ref (l : List Instr) : State := l.foldl ran State.reset

/-- A second configuration: registers of 8, 16 and 32 bits, a BOTH status register, a stored ReadToClear field, an rx FIFO only,
loopback that also transmits, a source without a field, a line without a source. -/
def small : Cfg :=
  { regs :=
      [{ name := "FLAGS", addr := 0x00, w := 8, resetValue := 0x80, statusClear := .both
         fields := [⟨"P0", 0, 1, .readToClear, .irqPending 0, none⟩, ⟨"P1", 1, 1, .readOnly, .irqPending 1, none⟩] },
       { name := "MIX", addr := 0x02, w := 16, resetValue := 0xF5A3
         fields := [⟨"RW", 0, 8, .readWrite, .stored, none⟩, ⟨"RC", 8, 4, .readToClear, .stored, none⟩] },
       { name := "PLAIN", addr := 0x04, w := 32, resetValue := 0xA5A51234
         fields := [⟨"LOW", 0, 16, .readWrite, .stored, none⟩] },
       { name := "RX", addr := 0x08, w := 32, resetValue := 0x00000000
         fields := [⟨"COUNT0", 0, 2, .readOnly, .fifoCount 0, none⟩, ⟨"BYTE", 8, 8, .readOnly, .uartData (some 0) none, none⟩,
           ⟨"EMPTY", 16, 1, .readOnly, .fifoFlag 0 .empty, none⟩, ⟨"RXON", 24, 1, .readWrite, .rxEnable, none⟩] },
       { name := "EN", addr := 0x0C, w := 8, resetValue := 0x01
         fields := [⟨"E0", 0, 1, .readWrite, .irqEnable 0, none⟩, ⟨"E0B", 1, 1, .readWrite, .irqEnable 0, none⟩,
           ⟨"LB", 2, 1, .readWrite, .loopback, none⟩, ⟨"TX", 3, 1, .readWrite, .txEnable, none⟩] }]
    hasAlias := true
    setOffset := 0x40
    clearOffset := 0x80
    toggleOffset := 0xC0
    unmappedReadValue := 0xDEADBEEF
    translation := .widen
    sources :=
      [⟨"S0", .writeOneToClear, none, [.overflow 0], false⟩, ⟨"S1", .autoClear, some (.fifo 0 .notEmpty), [.pushed 0], false⟩,
       ⟨"S2", .clearOnRead, none, [.underflow 0], true⟩]
    lines := [⟨"L0", [0, 1, 2]⟩, ⟨"L1", []⟩]
    fifos := [⟨"RXQ", .rx, 2, 1, false, 1, 0xFF⟩]
    signals := [⟨"L0", .line 0⟩, ⟨"K", .const true⟩]
    timers := [⟨"T"⟩, ⟨"U"⟩]
    loopbackAlsoTransmits := true }

/-- `small` with one register in place of its own. -/
def lone (addr : Addr) (w : Nat) (v : Word) (l : List FieldDesc) : Cfg :=
  { small with regs := [{ name := "A", addr := addr, w := w, resetValue := v, fields := l }] }

/-- One register with a field of every binding and every FIFO predicate, over an rx and a tx FIFO. -/
def panel : RegDesc :=
  { name := "PANEL", addr := 0x0, w := 32, resetValue := 0
    fields :=
      [⟨"PEND", 0, 1, .writeOneToClear, .irqPending 0, none⟩, ⟨"EN", 1, 1, .setOnWrite, .irqEnable 0, none⟩,
       ⟨"MSK", 2, 1, .readOnly, .irqMaskMirror 0, none⟩, ⟨"F0", 3, 1, .readOnly, .fifoFlag 0 .empty, none⟩,
       ⟨"F1", 4, 1, .readOnly, .fifoFlag 0 .notEmpty, none⟩, ⟨"F2", 5, 1, .readOnly, .fifoFlag 0 .ready, none⟩,
       ⟨"F3", 6, 1, .readOnly, .fifoFlag 0 .full, none⟩, ⟨"F4", 7, 1, .readOnly, .fifoFlag 0 .notFull, none⟩,
       ⟨"F5", 8, 1, .readOnly, .fifoFlag 0 .watermarkCrossed, none⟩, ⟨"F6", 9, 1, .readOnly, .fifoFlag 0 .notWatermarkCrossed, none⟩,
       ⟨"LEN", 10, 1, .readOnly, .fifoCount 0, none⟩, ⟨"WM", 11, 2, .readWrite, .fifoWatermark 0, none⟩,
       ⟨"MODE", 13, 1, .readWrite, .fifoMode 0, none⟩, ⟨"FL", 14, 1, .writeOnly, .fifoFlush 0, none⟩,
       ⟨"RX", 15, 1, .readWrite, .rxEnable, none⟩, ⟨"TX", 16, 1, .readWrite, .txEnable, none⟩,
       ⟨"LB", 17, 1, .readWrite, .loopback, none⟩, ⟨"GO", 18, 1, .writeOnly, .timerStart 0, none⟩,
       ⟨"STOP", 19, 1, .writeOnly, .timerStop 0, none⟩, ⟨"CU", 20, 2, .readOnly, .custom 0 0 0, none⟩,
       ⟨"ST", 22, 1, .setOnWrite, .stored, none⟩, ⟨"RB", 23, 8, .readOnly, .uartData (some 0) none, none⟩,
       ⟨"TB", 31, 1, .writeOnly, .uartData none (some 1), none⟩] }

/-- `small` with that register alone and a tx FIFO beside its own. -/
def panelCfg : Cfg :=
  { small with regs := [panel], fifos := [⟨"RXQ", .rx, 2, 1, false, 1, 0xFF⟩, ⟨"TXQ", .tx, 2, 1, false, 0, 0⟩] }

/-- `small` with one status register, its selector, and a field of source `i`. -/
def status (k : StatusClear) (i : Nat) (m : AccessMode) : Cfg :=
  { small with
    regs := [{ name := "S", addr := 0, w := 8, resetValue := 0, statusClear := k, fields := [⟨"P", 0, 1, m, .irqPending i, none⟩] }] }

/-- `small` after the given instructions. -/
def sm (l : List Instr) : State := l.foldl ran (fresh small)

/-- REF receiving, with one byte in the rx FIFO. -/
def one : State := ref [.write 3 0x9, .rxByte 0x41]

/-- REF with four bytes in a full rx FIFO. -/
def four : State := ref [.write 3 0x9, .rxByte 1, .rxByte 2, .rxByte 3, .rxByte 4]

/-- REF with three bytes queued for transmission. -/
def queued : State := ref [.write 0 1, .write 0 2, .write 0 3]

/-- REF with T0 armed. -/
def armed : State := ref [.write 3 0x28]

/-! ## Ill-formed terms -/

theorem smoke_register_exists : Cfg.ref.admits (.read 5) = false := by decide
theorem smoke_window_exists : Cfg.admits { Cfg.ref with hasAlias := false } (.readSet 0) = false := by decide
theorem smoke_lane_aligned : Cfg.ref.admits (.readNarrow 0 1 2) = false := by decide
theorem smoke_lane_inside : Cfg.ref.admits (.readNarrow 0 4 1) = false := by decide
theorem smoke_lane_narrower : Cfg.ref.admits (.readNarrow 0 0 4) = false := by decide
theorem smoke_lane_size : Cfg.ref.admits (.readNarrow 0 0 3) = false := by decide
theorem smoke_widen : Cfg.admits { Cfg.ref with translation := .reject } (.readNarrow 0 0 1) = false := by decide
theorem smoke_narrow_window : Cfg.admits { Cfg.ref with hasAlias := false } (.readNarrowAlias .set 0 0 1) = false := by decide
theorem smoke_value_fits : small.admits (.write 0 0x100) = false := by decide
theorem smoke_mask_fits : small.admits (.writeTgl 1 0x10000) = false := by decide
theorem smoke_narrow_value : Cfg.ref.admits (.writeNarrow 3 1 1 0x100) = false := by decide
theorem smoke_narrow_window_value : Cfg.ref.admits (.writeNarrowAlias .set 3 1 1 0x100) = false := by decide
theorem smoke_rejected_class : Cfg.ref.admits (.readRejected 0x0 4) = false := by decide
theorem smoke_unmapped_class : Cfg.ref.admits (.readUnmapped 0x0 4) = false := by decide
theorem smoke_rejected_value : Cfg.ref.admits (.writeRejected 0x1 2 0x10000) = false := by decide
theorem smoke_unmapped_value : Cfg.ref.admits (.writeUnmapped 0x40 1 0x100) = false := by decide
theorem smoke_fifo_exists : Cfg.ref.admits (.fifoPush 2 0) = false := by decide
theorem smoke_source_exists : Cfg.ref.admits (.irqSet 5 true) = false := by decide
theorem smoke_line_exists : Cfg.ref.admits (.irqLevel 2) = false := by decide
theorem smoke_timer_exists : Cfg.ref.admits (.timerArm 1) = false := by decide
theorem smoke_number_fits : (Instr.fifoSetCapacity 0 (2 ^ 64)).fits = false := by decide
theorem smoke_index_fits : (Instr.irqLevel (2 ^ 64)).fits = false := by decide

/-! ## Construction (70_reset_and_hazards.md R155): one configuration refused by each check -/

theorem test_ref_accepted : configError Cfg.ref = none := by decide +kernel
theorem test_small_accepted : configError small = none := by decide +kernel
theorem test_check_width :
    configError (lone 0 24 0 []) = some .registerWidth := by
  decide +kernel
theorem test_check_reset_value :
    configError (lone 0 8 0x100 []) = some .registerWidth := by
  decide +kernel
theorem test_check_fields_overlap :
    configError (lone 0 8 0 [⟨"a", 0, 4, .readWrite, .stored, none⟩, ⟨"b", 3, 1, .readWrite, .stored, none⟩]) = some .fieldLayout := by
  decide +kernel
theorem test_check_field_outside :
    configError (lone 0 8 0 [⟨"a", 4, 5, .readWrite, .stored, none⟩]) = some .fieldLayout := by decide +kernel
theorem test_check_alignment :
    configError (lone 2 32 0 []) = some .alignment := by
  decide +kernel
theorem test_check_offsets_equal : configError { small with setOffset := 0x80 } = some .ranges := by decide +kernel
theorem test_check_wrap :
    configError (lone 0xFFFFFFFFFFFFFFFC 32 0 [])
      = some .ranges := by decide +kernel
theorem test_check_binding_mode :
    configError (lone 0 8 0 [⟨"a", 0, 1, .readOnly, .txEnable, none⟩]) = some .binding := by decide +kernel
theorem test_check_source : configError { small with sources := [⟨"S0", .autoClear, none, [], false⟩], regs := [], lines := [] }
    = some .source := by decide +kernel
theorem test_check_pow2 : configError { small with fifos := [⟨"RXQ", .rx, 3, 1, true, 1, 0xFF⟩] } = some .fifo := by decide +kernel
theorem test_check_signal : configError { small with signals := [⟨"X", .line 2⟩] } = some .signal := by decide +kernel

/-! ## Decoding: every constructor from a descriptor written out by R58 (op, size, addr, data) -/

theorem test_decode_read : read144 0x00_04_0000000000000004_0000000000000000 = some (.read 1) := by decide +kernel
theorem test_decode_readSet : read144 0x00_04_0000000000000104_0000000000000000 = some (.readSet 1) := by decide +kernel
theorem test_decode_readClr : read144 0x00_04_0000000000000204_0000000000000000 = some (.readClr 1) := by decide +kernel
theorem test_decode_readTgl : read144 0x00_04_0000000000000310_0000000000000000 = some (.readTgl 4) := by decide +kernel
theorem test_decode_readNarrow : read144 0x00_01_000000000000000D_0000000000000000 = some (.readNarrow 3 1 1) := by decide +kernel
theorem test_decode_readNarrowAlias :
    read144 0x00_02_000000000000020E_0000000000000000 = some (.readNarrowAlias .clear 3 2 2) := by decide +kernel
theorem test_decode_readRejected : read144 0x00_02_0000000000000001_0000000000000000 = some (.readRejected 1 2) := by decide +kernel
theorem test_decode_readUnmapped :
    read144 0x00_01_FFFFFFFFFFFFFFFF_0000000000000000 = some (.readUnmapped 0xFFFFFFFFFFFFFFFF 1) := by decide +kernel
theorem test_decode_write : read144 0x01_04_000000000000000C_0000000000000003 = some (.write 3 3) := by decide +kernel
theorem test_decode_writeSet : read144 0x01_04_000000000000010C_FFFFFFFF00002100 = some (.writeSet 3 0x2100) := by decide +kernel
theorem test_decode_writeClr : read144 0x01_04_0000000000000204_0000000000000004 = some (.writeClr 1 4) := by decide +kernel
theorem test_decode_writeTgl : read144 0x01_04_0000000000000304_0000000000000004 = some (.writeTgl 1 4) := by decide +kernel
theorem test_decode_writeNarrow : read144 0x01_01_000000000000000D_FFFFFFFFFFFFFF5A = some (.writeNarrow 3 1 1 0x5A) := by decide +kernel
theorem test_decode_writeNarrowAlias :
    read144 0x01_01_000000000000030D_00000000000000C3 = some (.writeNarrowAlias .toggle 3 1 1 0xC3) := by decide +kernel
theorem test_decode_writeRejected :
    read144 0x01_08_0000000000000000_1122334455667788 = some (.writeRejected 0 8 0x1122334455667788) := by decide +kernel
theorem test_decode_writeUnmapped :
    read144 0x01_04_0000000000000040_00000000FFFFFFFF = some (.writeUnmapped 0x40 4 0xFFFFFFFF) := by decide +kernel
theorem test_decode_rxByte : read144 0x10_00_0000000000000000_0000000000000041 = some (.rxByte 0x41) := by decide +kernel
theorem test_decode_flush : read144 0x20_00_0000000000000001_0000000000000000 = some (.flush 1) := by decide +kernel
theorem test_decode_reset : read144 0x30_00_0000000000000000_0000000000000000 = some .reset := by decide +kernel
theorem test_decode_timerFire : read144 0x40_00_0000000000000000_0000000000000006 = some (.timerFire 0 6) := by decide +kernel
theorem test_decode_signalSample : read144 0x50_00_0000000000000003_0000000000000000 = some (.signalSample 3) := by decide +kernel
theorem test_decode_fifoPush : read144 0x80_00_0000000000000001_0000000000000007 = some (.fifoPush 1 7) := by decide +kernel
theorem test_decode_fifoPop : read144 0x81_00_0000000000000001_0000000000000000 = some (.fifoPop 1) := by decide +kernel
theorem test_decode_fifoFlush : read144 0x82_00_0000000000000001_0000000000000000 = some (.fifoFlush 1) := by decide +kernel
theorem test_decode_fifoSetCapacity : read144 0x83_00_0000000000000000_0000000000000008 = some (.fifoSetCapacity 0 8) := by decide +kernel
theorem test_decode_fifoSetWatermark : read144 0x84_00_0000000000000000_0000000000000003 = some (.fifoSetWatermark 0 3) := by
  decide +kernel
theorem test_decode_irqSet : read144 0x90_00_0000000000000002_0000000000000001 = some (.irqSet 2 true) := by decide +kernel
theorem test_decode_irqSetEnabled : read144 0x91_00_0000000000000002_0000000000000000 = some (.irqSetEnabled 2 false) := by
  decide +kernel
theorem test_decode_irqIsPending : read144 0x92_00_0000000000000004_0000000000000000 = some (.irqIsPending 4) := by decide +kernel
theorem test_decode_irqLevel : read144 0x93_00_0000000000000001_0000000000000000 = some (.irqLevel 1) := by decide +kernel
theorem test_decode_recompute : read144 0x94_00_0000000000000000_0000000000000000 = some .recompute := by decide +kernel
theorem test_decode_txByte : read144 0xA0_00_0000000000000000_0000000000000061 = some (.txByte 0x61) := by decide +kernel
theorem test_decode_txDrain : read144 0xA1_00_0000000000000000_0000000000000000 = some .txDrain := by decide +kernel
theorem test_decode_txEnable : read144 0xA2_00_0000000000000000_0000000000000001 = some (.txEnable true) := by decide +kernel
theorem test_decode_timerArm : read144 0xB0_00_0000000000000000_0000000000000000 = some (.timerArm 0) := by decide +kernel
theorem test_decode_timerCancel : read144 0xB1_00_0000000000000000_0000000000000000 = some (.timerCancel 0) := by decide +kernel

/-- The codes of 95_test_vectors.md 2.1 that are refused. -/
theorem test_decode_refused :
    [0x02, 0x11, 0x31, 0x60, 0x7F, 0xFF].all (fun op => (read144 (Desc.pack op 0 0 0)).isNone) = true := by decide +kernel

/-- Every address class of the table of 95_test_vectors.md 2.1. -/
theorem test_classes :
    ([(0x0, 4), (0x0, 1), (0x1, 1), (0x2, 2), (0x3, 1), (0x0, 2), (0x1, 2), (0x3, 4), (0x0, 8), (0x0, 3), (0x4, 4), (0x104, 4),
      (0x105, 1), (0x20D, 1), (0x20E, 2), (0x310, 4), (0x313, 1), (0x10, 2), (0x12, 2), (0x14, 4), (0x114, 4), (0x400, 4),
      (0xFFFFFFFFFFFFFFFF, 1)] : List (Addr × Nat)).map (fun p => Cfg.ref.classify p.1 p.2) =
    [.exact none 0, .narrow none 0 0, .narrow none 0 1, .narrow none 0 2, .narrow none 0 3, .narrow none 0 0, .rejected, .rejected,
     .rejected, .rejected, .exact none 1, .exact (some .set) 1, .narrow (some .set) 1 1, .narrow (some .clear) 3 1,
     .narrow (some .clear) 3 2, .exact (some .toggle) 4, .narrow (some .toggle) 4 3, .narrow none 4 0, .narrow none 4 2, .unmapped,
     .unmapped, .unmapped, .unmapped] := by decide +kernel

/-- An agent that issues an internal code is refused (95_test_vectors.md 2.1). -/
theorem test_internal_code_refused :
    refusal (step (withDescriptor State.reset 0x80_00_0000000000000000_0000000000000041)) = some (.internalFromAgent 0x80) := by
  decide +kernel

/-! ## Single steps -/

/-- 95_test_vectors.md 1.3, first read of DATA. -/
theorem test_read_pops :
    (served four 0x00_04_0000000000000000_0000000000000000).result = .word 4 1
      ∧ (served four 0x00_04_0000000000000000_0000000000000000).trace = [.notify 0 .full .ready true true] := by decide +kernel
/-- 95_test_vectors.md 1.3: a read of DATA with RXF empty gives the dummy and sets UDR. -/
theorem test_read_underflow :
    (ran State.reset (.read 0)).blk.pending = [false, false, false, true, false]
      ∧ outputs (ran State.reset (.read 0)).trace = [] := by decide +kernel
/-- 40_register_file.md R92: a window read shows the byte and keeps it. -/
theorem test_readSet : (ran one (.readSet 0)).result = .word 4 0x41 ∧ (ran one (.readSet 0)).blk = one.blk := by decide +kernel
theorem test_readClr : (ran one (.readClr 0)).result = .word 4 0x41 ∧ (ran one (.readClr 0)).blk = one.blk := by decide +kernel
theorem test_readTgl : (ran one (.readTgl 0)).result = .word 4 0x41 ∧ (ran one (.readTgl 0)).blk = one.blk := by decide +kernel
/-- 95_test_vectors.md 1.5: lane 1 of CTRL after a write of 0x5A to it. -/
theorem test_readNarrow : (ran (ref [.writeNarrow 3 1 1 0x5A]) (.readNarrow 3 1 1)).result = .word 1 0x5A := by decide +kernel
theorem test_readNarrow_beside_data : (ran one (.readNarrow 0 1 1)).blk = one.blk := by decide +kernel
theorem test_readNarrowAlias : (ran one (.readNarrowAlias .clear 0 0 1)).result = .word 1 0x41
    ∧ (ran one (.readNarrowAlias .clear 0 0 1)).blk = one.blk := by decide +kernel
/-- 20_memory.md R47 with the unmapped value of `small`, cut to two bytes. -/
theorem test_readRejected : (ran (sm []) (.readRejected 0x5 2)).result = .word 2 0xBEEF := by decide +kernel
theorem test_readUnmapped : (ran (sm []) (.readUnmapped 0x30 8)).result = .word 8 0xDEADBEEF := by decide +kernel
/-- 95_test_vectors.md 2.3, the write of all ones to CTRL. -/
theorem test_write :
    (served State.reset 0x01_04_000000000000000C_00000000FFFFFFFF).trace = [.timerSchedule 0 1, .timerCancel 0 1]
      ∧ (served State.reset 0x01_04_000000000000000C_00000000FFFFFFFF).blk.reg.getD 3 0 = 0xA500FF08 := by decide +kernel
/-- 95_test_vectors.md 1.5, PLAIN16: reserved bits are kept. -/
theorem test_writeSet : (ran (ran (sm []) (.writeSet 2 0xFFFF00F0)) (.read 2)).result = .word 4 0xA5A512F4 := by decide +kernel
theorem test_writeClr : (ran (ran (sm []) (.writeClr 2 0xFFFF00F0)) (.read 2)).result = .word 4 0xA5A51204 := by decide +kernel
theorem test_writeTgl : (ran (ran (sm []) (.writeTgl 2 0xFFFF00F0)) (.read 2)).result = .word 4 0xA5A512C4 := by decide +kernel
/-- 95_test_vectors.md 1.5, byte 1 of CTRL. -/
theorem test_writeNarrow : (ref [.writeNarrow 3 1 1 0x5A]).blk.reg.getD 3 0 = 0xA5005A08 := by decide +kernel
theorem test_writeNarrowAlias :
    (ref [.writeNarrow 3 1 1 0x5A, .writeNarrowAlias .set 3 1 1 0xC3]).blk.reg.getD 3 0 = 0xA500DB08
      ∧ (ref [.writeNarrow 3 1 1 0x5A, .writeNarrowAlias .clear 3 1 1 0xC3]).blk.reg.getD 3 0 = 0xA5001808
      ∧ (ref [.writeNarrow 3 1 1 0x5A, .writeNarrowAlias .toggle 3 1 1 0xC3]).blk.reg.getD 3 0 = 0xA5009908 := by decide +kernel
theorem test_writeRejected : (ran one (.writeRejected 0x1 2 0x55)).blk = one.blk := by decide +kernel
theorem test_writeUnmapped : (ran one (.writeUnmapped 0x40 4 0xFFFFFFFF)).blk = one.blk := by decide +kernel
/-- 95_test_vectors.md 1.3: the third byte crosses the watermark, the fifth overflows. -/
theorem test_rxByte : (ran (ref [.write 3 0x9, .rxByte 1, .rxByte 2]) (.rxByte 3)).trace = [.notify 0 .ready .ready false true] := by
  decide +kernel
theorem test_rxByte_overflow : (ran four (.rxByte 5)).blk.pending = [true, true, true, false, false] := by decide +kernel
/-- 43_peripheral.md R131, its example. -/
theorem test_flush : (ran one (.flush 0)).trace = [.notify 0 .ready .empty false false]
    ∧ (ran one (.flush 0)).blk.pending = [false, false, false, false, false] := by decide +kernel
theorem test_flush_bad_index : outputs (ran one (.flush 2)).trace = [] ∧ (ran one (.flush 2)).blk = one.blk := by decide +kernel
/-- 70_reset_and_hazards.md R157: the armed timer is voided, the token advances. -/
theorem test_reset : (ran armed .reset).trace = [.timerCancel 0 1]
    ∧ (ran armed .reset).blk = { State.reset.blk with timer := [⟨.idle, 2⟩] } := by decide +kernel
/-- 43_peripheral.md R135: the live token fires, an old one does not. -/
theorem test_timerFire : (ran armed (.timerFire 0 1)).blk.pending = [false, false, false, false, true] := by decide +kernel
theorem test_timerFire_stale : (ran armed (.timerFire 0 0)).blk = armed.blk := by decide +kernel
/-- 43_peripheral.md R138, its example, and an index out of range. -/
theorem test_signalSample : (ran State.reset (.signalSample 3)).result = .bit true ∧ (ran State.reset (.signalSample 5)).result = .bit false := by
  decide +kernel
/-- 42_fifo.md R116, R117, their examples and 95_test_vectors.md 1.2. -/
theorem test_fifoPush : (ran (ref [.fifoPush 0 1, .fifoPush 0 2]) (.fifoPush 0 3)).trace = [.notify 0 .ready .ready false true] := by
  decide +kernel
theorem test_fifoPush_overflow : (ran four (.fifoPush 0 5)).result = .pushOverflow ∧ (ran four (.fifoPush 0 5)).blk.fifo = four.blk.fifo := by
  decide +kernel
theorem test_fifoPop : (ran (ref [.fifoPush 0 1, .fifoPush 0 2, .fifoPush 0 3]) (.fifoPop 0)).trace = [.notify 0 .ready .ready true false] := by
  decide +kernel
theorem test_fifoPop_underflow : (ran (sm []) (.fifoPop 0)).result = .popUnderflow 0xFF := by decide +kernel
/-- 42_fifo.md R118, its example: TXF has watermark 0. -/
theorem test_fifoFlush : (ran (ref [.write 0 7, .write 0 8]) (.fifoFlush 1)).trace = [.notify 1 .ready .empty true false] := by decide +kernel
/-- 42_fifo.md R119, R120, their examples. -/
theorem test_fifoSetCapacity :
    (ran (ref [.fifoPush 0 1, .fifoPush 0 2, .fifoPush 0 3]) (.fifoSetCapacity 0 1)).blk.fifo[0]? = some ⟨[], 1, 1, .empty, false⟩ := by
  decide +kernel
theorem test_fifoSetCapacity_refused :
    (ran one (.fifoSetCapacity 0 8)).blk = one.blk ∧ (ran State.reset (.fifoSetCapacity 0 3)).blk = State.reset.blk := by decide +kernel
theorem test_fifoSetWatermark : (ran (ref [.fifoPush 0 1]) (.fifoSetWatermark 0 0)).trace = [.notify 0 .ready .ready false true] := by
  decide +kernel
/-- 41_interrupts.md R104 to R107, their examples. -/
theorem test_irqSet : (ref [.irqSet 2 true]).blk.pending = [false, false, true, false, false] := by decide +kernel
theorem test_irqSetEnabled : lineLevel Cfg.ref (ref [.irqSet 2 true, .irqSetEnabled 2 true]).blk 0 = true := by decide +kernel
theorem test_irqIsPending : (ran (ref [.irqSet 3 true]) (.irqIsPending 3)).result = .bit true := by decide +kernel
theorem test_irqLevel : (ran (ref [.irqSet 0 true, .irqSetEnabled 0 true]) (.irqLevel 0)).result = .bit true
    ∧ (ran (sm []) (.irqLevel 1)).result = .bit false := by decide +kernel
theorem test_recompute : (ref [.irqSet 0 true, .irqSet 4 true, .recompute]).blk.pending = [false, false, false, false, true] := by
  decide +kernel
/-- 43_peripheral.md R127 to R129, the drain of R129's example. -/
theorem test_txByte : (ran (ref [.write 3 0xA]) (.txByte 0x61)).trace = [.transmit 0x61] := by decide +kernel
theorem test_txByte_queues : (ran State.reset (.txByte 0x61)).blk.fifo[1]? = some ⟨[0x61], 4, 0, .ready, true⟩ := by decide +kernel
theorem test_txDrain : (ran queued .txDrain).trace = [.transmit 1, .transmit 2, .notify 1 .ready .empty true false, .transmit 3] := by
  decide +kernel
theorem test_txEnable : sentBytes (ran queued (.txEnable true)).trace = [1, 2, 3] ∧ (ran queued (.txEnable false)).blk = queued.blk := by
  decide +kernel
/-- 43_peripheral.md R133, R134, their examples with other tokens. -/
theorem test_timerArm : (ran armed (.timerArm 0)).trace = [.timerCancel 0 1, .timerSchedule 0 2] := by decide +kernel
theorem test_timerCancel : (ran armed (.timerCancel 0)).trace = [.timerCancel 0 1]
    ∧ (ran armed (.timerCancel 0)).blk.timer = [⟨.idle, 2⟩] := by decide +kernel
/-- 95_test_vectors.md 2.2, on the low four bits. -/
theorem test_newValue :
    [newValue .write 0xA 0x6 0xF, newValue .write 0xA 0x6 0x3, newValue .w1c 0xA 0x6 0xF, newValue .w1c 0xA 0x6 0x3,
     newValue .w1s 0xA 0x6 0xF, newValue .w1s 0xA 0x6 0x3] = [0x6, 0xA, 0x8, 0x8, 0xE, 0xA] := by decide +kernel

/-- A custom function may push to the tx FIFO while transmit is enabled when it drains, flushes or disables after it; one that leaves the
byte queued is none (40_register_file.md R77). -/
theorem test_customPush :
    let s := ref [.write 3 0xA]
    sentBytes (runActs 3 [.fifoPush 1 9, .txDrain] s).trace = [9] ∧
    txItems s.cfg (runActs 3 [.fifoPush 1 9, .txEnable false] s).blk = [9] ∧ runActs 3 [.fifoPush 1 9] s = s := by decide +kernel

/-! ## Witnesses: states and operands that meet the hypotheses of each statement that has any -/

/-- The invariant as a computation, for configurations without custom signals. -/
def invCheck (s : State) : Bool :=
  validCfg s.cfg && decide (s.blk.reg.length = s.cfg.regs.length) && decide (s.blk.pending.length = s.cfg.sources.length)
    && decide (s.blk.enabled.length = s.cfg.sources.length) && decide (s.blk.fifo.length = s.cfg.fifos.length)
    && decide (s.blk.timer.length = s.cfg.timers.length) && decide (s.blk.sig.length = s.cfg.signals.length)
    && s.blk.fifo.all (fun f => f.consistent && decide (1 ≤ f.cap))
    && (s.cfg.regs.zip s.blk.reg).all (fun p => decide (p.2 &&& ~~~(storedMask p.1) = p.1.resetValue &&& ~~~(storedMask p.1)))
    && (!s.blk.txEn || decide (txItems s.cfg s.blk = []))
    && decide (clearAuto s.blk s.cfg.sources s.blk.pending = s.blk.pending)
    && decide (s.blk.sig = s.cfg.signals.map (fun g => evalSignal s.cfg s.blk g.expr))

theorem inv_of_check {s : State} (h : invCheck s = true) : Inv s := by
  simp only [invCheck, Bool.and_eq_true, decide_eq_true_eq, List.all_eq_true, Bool.or_eq_true, Bool.not_eq_true'] at h
  obtain ⟨⟨⟨⟨⟨⟨⟨⟨⟨⟨⟨h1, h2⟩, h3⟩, h4⟩, h5⟩, h6⟩, h7⟩, h8⟩, h9⟩, h10⟩, h11⟩, h12⟩ := h
  refine ⟨h1, ⟨h2, h3, h4, h5, h6, h7⟩, h8, ?_, ?_, ⟨h11, h12⟩⟩
  · intro r d v hd hv
    refine h9 (d, v) ?_
    rw [List.mem_iff_getElem?]
    exact ⟨r, by rw [List.getElem?_zip_eq_some]; exact ⟨hd, hv⟩⟩
  · intro ht
    rcases h10 with h | h
    · rw [h] at ht; cases ht
    · exact h

theorem forall_of_all {α : Type} {o : Option α} {p : α → Prop} [DecidablePred p] (h : o.all (fun d => decide (p d)) = true) :
    ∀ d, o = some d → p d := by
  rintro d rfl; simpa using h

theorem inv_one : Inv one := inv_of_check (by decide +kernel)
theorem inv_four : Inv four := inv_of_check (by decide +kernel)
theorem inv_queued : Inv queued := inv_of_check (by decide +kernel)
theorem inv_armed : Inv armed := inv_of_check (by decide +kernel)
/-- `small` after an overflow: sources 0 and 1 pending. -/
def smallFull : State := sm [.writeNarrow 3 3 1 1, .rxByte 1, .rxByte 2, .rxByte 3]
theorem inv_small : Inv (sm []) := inv_of_check (by decide +kernel)
theorem inv_smallFull : Inv smallFull := inv_of_check (by decide +kernel)
theorem smallFull_pending : smallFull.blk.pending = [true, true, false] := by decide +kernel

/-- REF with OVR and UDR pending, as in 95_test_vectors.md 1.5. -/
def flagged : State := ref [.read 0, .write 0 1, .write 0 2, .write 0 3, .write 0 4, .write 0 5]
theorem inv_flagged : Inv flagged := inv_of_check (by decide +kernel)

/-- The descriptors of the witnesses. -/
def dRead : Desc := 0x00_04_0000000000000000_0000000000000000
def dOdd : Desc := 0x02_04_0000000000000000_0000000000000000
def dInner : Desc := 0xB1_00_0000000000000000_0000000000000000

/-! ### Encoding -/

theorem witness_DecodeEncodeRoundTrip : validCfg Cfg.ref = true ∧ validCfg small = true ∧
    (Instr.write 3 0xFFFFFFFF).WellFormed Cfg.ref ∧ (Instr.writeNarrowAlias .toggle 4 3 1 0xFF).WellFormed Cfg.ref ∧
    (Instr.readUnmapped 0xFFFFFFFFFFFFFFFF 0xFF).WellFormed Cfg.ref ∧ (Instr.write 1 0xFFFF).WellFormed small ∧
    (Instr.fifoSetCapacity 1 (2 ^ 64 - 1)).WellFormed Cfg.ref := by decide +kernel
theorem witness_DecodedIsWellFormed : ∃ i, decode Cfg.ref dRead = .ok i := ⟨.read 0, rfl⟩
theorem witness_OtherCodesHaveNoStep :
    (let s := withDescriptor one dOdd; s.consistent = true ∧ s.inbox = [dOdd] ∧ dOdd.op ∉ [0x00#8, 0x01, 0x10, 0x20, 0x30, 0x40, 0x50]) ∧
    (let s := withDescriptor one dInner; s.consistent = true ∧ s.inbox = [dInner] ∧
      dInner.op ∉ [0x00#8, 0x01, 0x10, 0x20, 0x30, 0x40, 0x50]) := by decide +kernel
theorem witness_IgnoredBitsChangeNothing :
    (∀ j, j < 8 * (1#8).toNat → (0x1234#64).getLsbD j = (0x5634#64).getLsbD j) ∧
    (∀ j, j < 8 → (0x1234#64).getLsbD j = (0x5634#64).getLsbD j) := by decide +kernel
theorem witness_AddressHasOneRangeAndClass :
    validCfg small = true ∧ small.hasAlias = true ∧ (∃ d, small.regs[0]? = some d) ∧
    [⟨none, 0, 0x00, 1⟩, ⟨some .set, 0, 0x40, 1⟩, ⟨some .clear, 0, 0x80, 1⟩, ⟨some .toggle, 0, 0xC0, 1⟩].all (· ∈ small.spans) = true ∧
    (∀ sp ∈ small.spans, sp.covers (0x1 : Addr).toNat = false) ∧
    (∃ sp ∈ small.spans, sp.covers (0xCC : Addr).toNat = true ∧ 1 = sp.len ∧ (0xCC : Addr).toNat = sp.base) ∧
    (∃ sp ∈ small.spans, sp.covers (0x7 : Addr).toNat = true ∧ 1 < sp.len ∧ (0x7 : Addr).toNat % 1 = 0 ∧ small.translation = .widen) ∧
    (∃ sp ∈ small.spans, sp.covers (0x4 : Addr).toNat = true ∧ 3 ∉ [1, 2, 4]) ∧
    (∃ sp ∈ small.spans, sp.covers (0x0 : Addr).toNat = true ∧ sp.len < 2) ∧
    (∃ sp ∈ small.spans, sp.covers (0x5 : Addr).toNat = true ∧ (0x5 : Addr).toNat % 2 ≠ 0) ∧
    (∃ sp ∈ small.spans, sp.covers (0x7 : Addr).toNat = true ∧ 4 = sp.len ∧ (0x7 : Addr).toNat ≠ sp.base) ∧
    (∃ sp ∈ Cfg.spans { Cfg.ref with translation := .reject }, sp.covers (0x3 : Addr).toNat = true ∧ 1 < sp.len) :=
  ⟨by decide +kernel, rfl, ⟨_, rfl⟩, by decide +kernel⟩

/-! ### Steps -/

/-- A configuration that construction refuses: its watermark after reset is above the capacity, so RESET breaks R25. -/
def broken : Cfg := { small with fifos := [⟨"RXQ", .rx, 2, 1, false, 3, 0xFF⟩] }
theorem witness_StepRunsDecodedTransaction :
    (let s := withDescriptor one dRead; s.consistent = true ∧ s.inbox = [dRead] ∧ decode s.cfg dRead = .ok (.read 0) ∧
      (Instr.read 0).isTransaction = true ∧ (ran { s with inbox := [] } (.read 0)).consistent = true) ∧
    (let s := { withDescriptor (sm []) (Desc.pack 0x30 0 0 0) with cfg := broken }; s.consistent = true ∧
      decode s.cfg (Desc.pack 0x30 0 0 0) = .ok .reset ∧ (ran { s with inbox := [] } .reset).consistent = false) ∧
    (ran { sm [] with cfg := broken } .reset).consistent = false :=
  ⟨⟨by decide +kernel, rfl, rfl, by decide, by decide +kernel⟩, ⟨by decide +kernel, rfl, by decide +kernel⟩, by decide +kernel⟩
theorem witness_NothingChangesBetweenEntryPoints : one.consistent = true ∧ one.inbox = [] := by decide +kernel
theorem witness_EveryEntryPointCompletes :
    Inv one ∧ one.cfg.admits (.read 4) = true ∧ (Instr.read 4).opcode = 0x00 ∧ (Instr.read 4).isTransaction = true ∧
    one.cfg.admits (.readUnmapped 0x40 0xFF) = true ∧ (Instr.readUnmapped 0x40 0xFF).opcode = 0x00 ∧
    one.cfg.admits .reset = true ∧ Instr.reset.isTransaction = true := ⟨inv_one, by decide +kernel⟩
theorem witness_AgentTransactionsNeverStop :
    Inv (withDescriptor one dRead) ∧ (withDescriptor one dRead).inbox = [dRead] ∧
    dRead.op ∈ [0x00#8, 0x01, 0x10, 0x20, 0x30, 0x40, 0x50] := ⟨inv_of_check (by decide +kernel), by decide +kernel⟩
theorem witness_StepKeepsInvariant : ∃ t, Inv (withDescriptor one dRead) ∧ step (withDescriptor one dRead) = .next t :=
  ⟨served one dRead, inv_of_check (by decide +kernel), rfl⟩
theorem witness_ConfigurationNeverChanges : ∃ t u, exec (.write 3 1) one = .next t ∧ step (withDescriptor one dRead) = .next u :=
  ⟨ran one (.write 3 1), served one dRead, rfl, rfl⟩

/-! ### Construction and reset -/

/-- `small` with one signal, which is custom. -/
def odd : Cfg := { small with signals := [⟨"C", .custom 0⟩] }
theorem inv_odd : Inv (fresh odd) := inv_of_fresh (by decide +kernel) ⟨rfl, rfl, rfl, rfl, rfl, rfl⟩ (recomputed_settled _ _)
/-- `small` with a FIFO, signals of a line and of a constant; a block with a custom signal; one that is refused. -/
theorem witness_ConstructionStartsBlock :
    (validCfg small = true ∧ plainSignals small = true ∧ (∃ d, small.fifos[0]? = some d) ∧ ∃ d, small.signals[1]? = some d) ∧
    (validCfg odd = true ∧ plainSignals odd = false) ∧ validCfg broken = false :=
  ⟨⟨by decide +kernel, rfl, ⟨_, rfl⟩, ⟨_, rfl⟩⟩, ⟨by decide +kernel, rfl⟩, by decide +kernel⟩
theorem witness_FieldsOfRegisterShareNoBit :
    validCfg Cfg.ref = true ∧ Ref.ctrl ∈ Cfg.ref.regs ∧ ∃ f g, Ref.ctrl.fields[0]? = some f ∧ Ref.ctrl.fields[7]? = some g ∧
      f.off ≤ 0 ∧ 0 < f.off + f.wid ∧ g.off ≤ 15 ∧ 15 < g.off + g.wid :=
  ⟨by decide +kernel, by decide +kernel, _, _, rfl, rfl, by decide⟩
theorem witness_ResetRestoresRegistersFlagsSignals :
    flagged.cfg.regs[3]? = some Ref.ctrl ∧ (∃ d, flagged.cfg.sources[4]? = some d) ∧ (∃ g, flagged.cfg.signals[4]? = some g) :=
  ⟨by decide +kernel, ⟨_, rfl⟩, ⟨_, rfl⟩⟩
/-- Source 2 has no field, source 0 has two, of which the first counts; loopback has one field, transmit enable none where the only
register has no fields. -/
theorem witness_ResetEnablesFollowFields :
    validCfg (sm []).cfg = true ∧ (∃ d, (sm []).cfg.sources[2]? = some d) ∧
    (∀ r ∈ (sm []).cfg.regs, ∀ f ∈ r.fields, f.bind ≠ .irqEnable 2) ∧
    (∃ d rs rs' r fs fs' f, (sm []).cfg.sources[0]? = some d ∧ (sm []).cfg.regs = rs ++ r :: rs' ∧ r.fields = fs ++ f :: fs' ∧
      f.bind = .irqEnable 0 ∧ (∀ x ∈ rs, ∀ g ∈ x.fields, g.bind ≠ .irqEnable 0) ∧ (∀ g ∈ fs, g.bind ≠ .irqEnable 0)) ∧
    ((∃ r ∈ (sm []).cfg.regs, ∃ f ∈ r.fields, f.bind = .loopback) ∧
      (∀ r ∈ (sm []).cfg.regs, ∀ f ∈ r.fields, f.bind = .loopback → r.resetValue.getLsbD f.off = false)) ∧
    (∀ r ∈ (lone 0 8 0 []).regs, ∀ f ∈ r.fields, f.bind ≠ .txEnable) ∧ validCfg (lone 0 8 0 []) = true :=
  ⟨by decide +kernel, ⟨_, rfl⟩, by decide +kernel,
    ⟨_, small.regs.take 4, [], _, [], _, _, rfl, rfl, rfl, by decide +kernel, by decide +kernel, by decide⟩,
    by decide +kernel, by decide, by decide +kernel⟩
theorem witness_ResetEmptiesFifos :
    (∃ d, four.cfg.fifos[0]? = some d ∧ (∃ r ∈ four.cfg.regs, ∃ f ∈ r.fields, f.bind = .fifoWatermark 0) ∧
      (∀ r ∈ four.cfg.regs, ∀ f ∈ r.fields, f.bind = .fifoWatermark 0 → min (slice r.resetValue f.off f.wid).toNat d.capReset = 2)) ∧
    (∃ d, four.cfg.fifos[1]? = some d ∧ ∀ r ∈ four.cfg.regs, ∀ f ∈ r.fields, f.bind ≠ .fifoWatermark 1) :=
  ⟨⟨_, rfl, by decide +kernel⟩, ⟨_, rfl, by decide +kernel⟩⟩
theorem witness_ResetIdlesTimers : armed.blk.timer[0]? = some ⟨.armed, 1⟩ := by decide +kernel
theorem witness_SecondResetOnlyAdvancesTokens : plainSignals armed.cfg = true := by decide +kernel

/-! ### Reads -/

/-- Bit 12 of MIX is reserved; PANEL has a field of every binding, those that read as Zero being the action bits and the data field of the
tx FIFO; its rx FIFO empty and with one byte. -/
theorem witness_ComposedValueByParts :
    validCfg small = true ∧ (∃ d, small.regs[1]? = some d ∧ (∀ f ∈ d.fields, ¬ (f.off ≤ 12 ∧ 12 < f.off + f.wid)) ∧
      ∃ f ∈ d.fields, readBeh small f ≠ .zero) ∧
    validCfg panelCfg = true ∧ panelCfg.regs[0]? = some panel ∧
    (panel.fields.filter (fun f => readBeh panelCfg f = .zero)).map (·.bind) =
      [.fifoFlush 0, .timerStart 0, .timerStop 0, .uartData none (some 1)] ∧
    (fresh panelCfg).blk.fifo[0]? = some ⟨[], 2, 0, .empty, false⟩ ∧ (∃ d, panelCfg.fifos[0]? = some d) ∧
    (ran (fresh panelCfg) (.fifoPush 0 0x41)).blk.fifo[0]? = some ⟨[0x41], 2, 0, .ready, true⟩ :=
  ⟨by decide +kernel, ⟨_, rfl, by decide +kernel⟩, by decide +kernel, by decide +kernel, by decide +kernel, by decide +kernel, ⟨_, rfl⟩,
    by decide +kernel⟩
/-- `small` with one register of custom functions: a custom field and a stored one with effects, a ReadToClear field, two data fields,
`post_read` and `post_write`. -/
def bespoke : Cfg :=
  { small with
    regs := [{ name := "A", addr := 0, w := 32, resetValue := 0xF00, postRead := some 5, postWrite := some 6
               fields := [⟨"C", 0, 4, .readWrite, .custom 0 1 2, some 3⟩, ⟨"S", 4, 4, .readWrite, .stored, some 4⟩,
                 ⟨"RC", 8, 4, .readToClear, .stored, none⟩, ⟨"D0", 16, 8, .readOnly, .uartData (some 0) none, none⟩,
                 ⟨"D1", 24, 8, .readOnly, .uartData (some 0) none, none⟩] }] }
theorem inv_bespoke : Inv (fresh bespoke) := inv_of_fresh (by decide +kernel) ⟨rfl, rfl, rfl, rfl, rfl, rfl⟩ (recomputed_settled _ _)
/-- A register with custom functions, whole and by one byte; one with a data field; and FLAGS whole and MIX by its upper byte, both with a
ReadToClear field. -/
theorem witness_ReadComposesThenClears :
    (validCfg bespoke = true ∧ Inv (fresh bespoke) ∧ standardReg bespoke 0 = false ∧ (fresh bespoke).cfg.admits (.read 0) = true ∧
      readParts (fresh bespoke).cfg (.read 0) = some (0, ones 32) ∧ (fresh bespoke).cfg.admits (.readNarrow 0 1 1) = true ∧
      readParts (fresh bespoke).cfg (.readNarrow 0 1 1) = some (0, mask 8 8)) ∧
    (standardReg smallFull.cfg 3 = true ∧ smallFull.cfg.admits (.read 3) = true ∧ readParts smallFull.cfg (.read 3) = some (3, ones 32)) ∧
    validCfg smallFull.cfg = true ∧
    (smallFull.cfg.admits (.read 0) = true ∧ readParts smallFull.cfg (.read 0) = some (0, ones 8) ∧
      (∀ f ∈ fieldsOf smallFull.cfg 0, touched (ones 8) f = true → idleOnRead smallFull.cfg f = true) ∧
      ∀ d, smallFull.cfg.regs[0]? = some d → d.postRead = none) ∧
    (smallFull.cfg.admits (.readNarrow 1 1 1) = true ∧ readParts smallFull.cfg (.readNarrow 1 1 1) = some (1, mask 8 8) ∧
      (∀ f ∈ fieldsOf smallFull.cfg 1, touched (mask 8 8) f = true → idleOnRead smallFull.cfg f = true) ∧
      ∀ d, smallFull.cfg.regs[1]? = some d → d.postRead = none) :=
  ⟨⟨by decide +kernel, inv_bespoke, by decide +kernel, by decide +kernel, by decide +kernel, by decide +kernel, by decide +kernel⟩,
    by decide +kernel, by decide +kernel, ⟨by decide +kernel, by decide +kernel, by decide +kernel, forall_of_all (by decide +kernel)⟩,
    ⟨by decide +kernel, by decide +kernel, by decide +kernel, forall_of_all (by decide +kernel)⟩⟩
theorem witness_PlainReadRepeats :
    Inv flagged ∧ flagged.cfg.admits (.read 1) = true ∧ readParts flagged.cfg (.read 1) = some (1, ones 32) ∧
    (∀ f ∈ fieldsOf flagged.cfg 1, touched (ones 32) f = true → idleOnRead flagged.cfg f = true ∧ readBeh flagged.cfg f ≠ .readToClear) ∧
    ∀ d, flagged.cfg.regs[1]? = some d → d.postRead = none :=
  ⟨inv_flagged, by decide +kernel, by decide +kernel, by decide +kernel, forall_of_all (by decide +kernel)⟩
/-- `small` with one register: a data field, and the flag of the source that an underflow sets, cleared on read. -/
def under : Cfg :=
  lone 0 32 0 [⟨"D", 0, 8, .readOnly, .uartData (some 0) none, none⟩, ⟨"P", 8, 1, .readToClear, .irqPending 2, none⟩]
/-- 40_register_file.md R80, R81: the pop of the empty FIFO sets the flag, the word shows it beside the dummy, and the same read clears it. -/
theorem test_read_clears_flag_of_its_pop :
    let t := ran (fresh under) (.read 0)
    t.result = .word 4 0x1FF ∧ t.blk.pending = [false, false, false] := by decide +kernel
/-- RX of `small`, with fields before and after the data field; full, and empty; and a flag that is cleared on read. -/
theorem witness_ReadOfDataFieldPops :
    ∃ l l' f, validCfg smallFull.cfg = true ∧ smallFull.cfg.admits (.read 3) = true ∧
      readParts smallFull.cfg (.read 3) = some (3, ones 32) ∧ fieldsOf smallFull.cfg 3 = l ++ f :: l' ∧
      f.bind = .uartData (some 0) none ∧ touched (ones 32) f = true ∧
      (∀ g ∈ l ++ l', touched (ones 32) g = true → idleOnRead smallFull.cfg g = true) ∧
      (∀ d, smallFull.cfg.regs[3]? = some d → d.postRead = none) ∧ smallFull.blk.fifo[0]? = some ⟨[1, 2], 2, 1, .full, true⟩ ∧
      (sm []).cfg = smallFull.cfg ∧ (sm []).blk.fifo[0]? = some ⟨[], 2, 1, .empty, false⟩ ∧
      (let s := fresh under
       validCfg s.cfg = true ∧ s.cfg.admits (.read 0) = true ∧ readParts s.cfg (.read 0) = some (0, ones 32) ∧
        fieldsOf s.cfg 0 = [] ++ ⟨"D", 0, 8, .readOnly, .uartData (some 0) none, none⟩ :: [⟨"P", 8, 1, .readToClear, .irqPending 2, none⟩] ∧
        (∀ g ∈ fieldsOf s.cfg 0, g.bind = .irqPending 2 → touched (ones 32) g = true ∧ idleOnRead s.cfg g = true ∧
          readBeh s.cfg g = .readToClear) ∧
        (s.cfg.regs[0]?).all (fun d => d.postRead.isNone) = true ∧ s.blk.fifo[0]? = some ⟨[], 2, 1, .empty, false⟩) :=
  ⟨(fieldsOf small 3).take 1, (fieldsOf small 3).drop 2, ⟨"BYTE", 8, 8, .readOnly, .uartData (some 0) none, none⟩, by decide +kernel, by decide +kernel,
    by decide +kernel,
    by decide +kernel, rfl, by decide +kernel, by decide +kernel, forall_of_all (by decide +kernel), by decide +kernel, by decide +kernel,
    by decide +kernel, by decide +kernel⟩
theorem witness_WindowReadHasNoSideEffect :
    one.cfg.admits (.readSet 0) = true ∧ one.cfg.admits (.readClr 0) = true ∧ one.cfg.admits (.readTgl 4) = true ∧
    one.cfg.admits (.readNarrowAlias .set 0 3 1) = true ∧ one.cfg.admits (.readNarrowAlias .toggle 4 2 2) = true := by decide +kernel
theorem witness_AbsentAccessHasNoEffect :
    Inv one ∧ one.cfg.classify 0x3 (4 : BitVec 8).toNat = .rejected ∧ busValue (4 : BitVec 8).toNat 0xFFFFFFFF = 0xFFFFFFFF ∧
    one.cfg.classify 0x14 (255 : BitVec 8).toNat = .unmapped ∧ busValue (255 : BitVec 8).toNat 0xFFFFFFFFFFFFFFFF = 0xFFFFFFFFFFFFFFFF :=
  ⟨inv_one, by decide +kernel⟩

/-! ### Writes -/

/-- Every access mode, every effective policy and every selector; writes that reach fields of each write behaviour. -/
theorem witness_NewValueBitByBit :
    (∀ m : AccessMode, ∃ f : FieldDesc, f.mode = m ∧ ∀ i, f.bind ≠ .irqPending i) ∧
    (eff Cfg.ref 2 = .writeOneToClear ∧ eff (status .none 2 .readToClear) 2 = .clearOnRead ∧ eff small 0 = .both ∧
      eff Cfg.ref 0 = .autoClear) ∧
    (∃ f ∈ fieldsOf Cfg.ref 1, f.bind = .irqPending 2) ∧ (∃ f ∈ fieldsOf small 0, f.bind = .irqPending 0) ∧
    (∃ d, small.sources[0]? = some d ∧ d.clear ≠ .autoClear) ∧ (∃ d, small.sources[1]? = some d ∧ d.clear = .autoClear) ∧
    (∃ d, small.sources[2]? = some d ∧ d.clear ≠ .autoClear ∧ ∀ r ∈ small.regs, ∀ f ∈ r.fields, f.bind ≠ .irqPending 2) ∧
    (validCfg (status .none 0 .writeOneToClear) = true ∧ validCfg (status .w1c 0 .writeOneToClear) = true ∧
      validCfg (status .cor 0 .readToClear) = true ∧ validCfg (status .both 0 .readToClear) = true ∧
      validCfg (status .none 2 .readToClear) = true) ∧
    (∃ d, Cfg.ref.regs[3]? = some d ∧ ∃ w ∈ fieldWrites Cfg.ref State.reset.blk 3 0xFFFFFFFF (ones 32),
      readBeh Cfg.ref w.1 ≠ .zero ∧ writeBeh Cfg.ref w.1 = .write ∧ 7 < w.1.wid) ∧
    (∃ w ∈ fieldWrites Cfg.ref State.reset.blk 1 0xFFFFFFFF (ones 32), writeBeh Cfg.ref w.1 = .w1c ∧ 0 < w.1.wid) ∧
    (∃ w ∈ fieldWrites panelCfg (fresh panelCfg).blk 0 0xFFFFFFFF (mask 16 8), writeBeh panelCfg w.1 = .w1s ∧ 0 < w.1.wid ∧ w.1.wid ≤ 1) :=
  ⟨fun m => ⟨⟨"F", 0, 1, m, .stored, none⟩, rfl, fun _ => by simp⟩, by decide +kernel, by decide +kernel, by decide +kernel,
    ⟨_, rfl, by decide⟩, ⟨_, rfl, rfl⟩, ⟨_, rfl, by decide, by decide +kernel⟩, by decide +kernel, ⟨_, rfl, by decide +kernel⟩,
    by decide +kernel,
    ⟨_, List.mem_map.2 ⟨⟨"ST", 22, 1, .setOnWrite, .stored, none⟩, by decide +kernel, rfl⟩, by decide +kernel, by decide, by decide⟩⟩
/-- CTRL whole, and its second byte through a window; a register of custom functions whole and by one byte through a window. -/
theorem witness_WriteAppliesFieldsInOrder :
    validCfg queued.cfg = true ∧ queued.cfg.admits (.write 3 0xFFFFFFFF) = true ∧
    writeParts queued.cfg queued.blk (.write 3 0xFFFFFFFF) = some (3, 0xFFFFFFFF, ones 32) ∧ standardReg queued.cfg 3 = true ∧
    queued.cfg.admits (.writeNarrowAlias .toggle 3 1 1 0xFF) = true ∧
    (∃ v, writeParts queued.cfg queued.blk (.writeNarrowAlias .toggle 3 1 1 0xFF) = some (3, v, mask 8 8)) ∧
    (Inv (fresh bespoke) ∧ (fresh bespoke).cfg.admits (.write 0 0xFF) = true ∧
      writeParts (fresh bespoke).cfg (fresh bespoke).blk (.write 0 0xFF) = some (0, 0xFF, ones 32) ∧
      (fresh bespoke).cfg.admits (.writeNarrowAlias .set 0 0 1 0x10) = true ∧
      ∃ v, writeParts (fresh bespoke).cfg (fresh bespoke).blk (.writeNarrowAlias .set 0 0 1 0x10) = some (0, v, mask 0 8)) :=
  ⟨by decide +kernel, by decide +kernel, by decide +kernel, by decide +kernel, by decide +kernel, ⟨_, rfl⟩, inv_bespoke, by decide +kernel, rfl,
    by decide +kernel, ⟨_, rfl⟩⟩
theorem witness_PlainWriteChangesOnlyItsFields :
    (flagged.cfg.admits (.write 2 0x1F) = true ∧ writeParts flagged.cfg flagged.blk (.write 2 0x1F) = some (2, 0x1F, ones 32) ∧
      standardReg flagged.cfg 2 = true ∧ (fieldWrites flagged.cfg flagged.blk 2 0x1F (ones 32)).length = 5 ∧
      ∀ w ∈ fieldWrites flagged.cfg flagged.blk 2 0x1F (ones 32), plainBinding w.1.bind = true) ∧
    (flagged.cfg.admits (.writeNarrow 3 1 1 0x5A) = true ∧
      writeParts flagged.cfg flagged.blk (.writeNarrow 3 1 1 0x5A) = some (3, 0x5A00, mask 8 8) ∧ standardReg flagged.cfg 3 = true ∧
      ∀ w ∈ fieldWrites flagged.cfg flagged.blk 3 0x5A00 (mask 8 8), plainBinding w.1.bind = true) := by decide +kernel
theorem witness_WriteKeepsReservedBits :
    one.cfg.admits (.write 3 0xFFFFFFFF) = true ∧ (Instr.write 3 0xFFFFFFFF).opcode = 0x01 ∧ one.cfg.regs[3]? = some Ref.ctrl ∧
    (∀ f ∈ Ref.ctrl.fields, f.bind = .stored → ¬ (f.off ≤ 31 ∧ 31 < f.off + f.wid)) ∧
    (∀ f ∈ Ref.ctrl.fields, f.bind = .stored → ¬ (f.off ≤ 3 ∧ 3 < f.off + f.wid)) := by decide +kernel
theorem witness_WindowWriteThenRead :
    ∃ d, Inv (sm []) ∧ (sm []).cfg.hasAlias = true ∧ (sm []).cfg.regs[2]? = some d ∧ (sm []).cfg.fitsReg 2 0xFFFF00F0 = true ∧
      (∀ f ∈ d.fields, f.bind = .stored ∧ f.mode = .readWrite ∧ f.effect = none) ∧ d.postRead = none ∧ d.postWrite = none :=
  ⟨_, inv_small, by decide +kernel, rfl, by decide +kernel, by decide +kernel, rfl, rfl⟩
/-- OVR of REF, WriteOneToClear, and P0 of `small`, BOTH. -/
theorem witness_WriteOneClearsPending :
    (∃ f ∈ fieldsOf flagged.cfg 1, Inv flagged ∧ flagged.cfg.admits (.write 1 4) = true ∧
      writeParts flagged.cfg flagged.blk (.write 1 4) = some (1, 4, ones 32) ∧ standardReg flagged.cfg 1 = true ∧
      (∀ w ∈ fieldWrites flagged.cfg flagged.blk 1 4 (ones 32), plainBinding w.1.bind = true) ∧ f.bind = .irqPending 2 ∧
      eff flagged.cfg 2 = .writeOneToClear ∧ (ones 32).getLsbD f.off = true ∧ flagged.blk.isPending 2 = true) ∧
    (∃ f ∈ fieldsOf smallFull.cfg 0, Inv smallFull ∧ smallFull.cfg.admits (.write 0 0) = true ∧
      writeParts smallFull.cfg smallFull.blk (.write 0 0) = some (0, 0, ones 8) ∧ standardReg smallFull.cfg 0 = true ∧
      (∀ w ∈ fieldWrites smallFull.cfg smallFull.blk 0 0 (ones 8), plainBinding w.1.bind = true) ∧ f.bind = .irqPending 0 ∧
      eff smallFull.cfg 0 = .both ∧ (ones 8).getLsbD f.off = true ∧ smallFull.blk.isPending 0 = true) :=
  ⟨⟨⟨"OVR", 2, 1, .writeOneToClear, .irqPending 2, none⟩, by decide +kernel, inv_flagged, by decide +kernel⟩,
    ⟨⟨"P0", 0, 1, .readToClear, .irqPending 0, none⟩, by decide +kernel, inv_smallFull, by decide +kernel⟩⟩
theorem witness_WindowWriteClearsFlags :
    ∃ f ∈ fieldsOf flagged.cfg 1, Inv flagged ∧ flagged.cfg.hasAlias = true ∧ flagged.cfg.fitsReg 1 4 = true ∧
      standardReg flagged.cfg 1 = true ∧ (∀ g ∈ fieldsOf flagged.cfg 1, writeBeh flagged.cfg g ≠ .none → plainBinding g.bind = true) ∧
      f.bind = .irqPending 3 ∧ eff flagged.cfg 3 = .writeOneToClear ∧ flagged.blk.isPending 3 = true :=
  ⟨⟨"UDR", 3, 1, .writeOneToClear, .irqPending 3, none⟩, by decide +kernel, inv_flagged, by decide +kernel⟩
/-- A write of IRQ_EN reaches no control bit; a byte from the line reaches none at all. -/
theorem witness_ControlBitsChangeOnlyByTheirFields :
    validCfg one.cfg = true ∧ standardCfg one.cfg = true ∧ one.cfg.admits (.write 2 0x1F) = true ∧
    (Instr.write 2 0x1F).isTransaction = true ∧ Instr.write 2 0x1F ≠ .reset ∧
    (∀ r v be, writeParts one.cfg one.blk (.write 2 0x1F) = some (r, v, be) →
      ∀ f ∈ fieldsOf one.cfg r, touched be f = true → f.bind ≠ .rxEnable) ∧
    (∀ r v be, writeParts one.cfg one.blk (.rxByte 0) = some (r, v, be) →
      ∀ f ∈ fieldsOf one.cfg r, touched be f = true → f.bind ≠ .irqEnable 0) := by
  refine ⟨by decide +kernel, by decide +kernel, by decide +kernel, by decide, by decide, ?_, ?_⟩
  · intro r v be h
    simp only [writeParts, Option.some.injEq, Prod.mk.injEq] at h
    obtain ⟨rfl, rfl, rfl⟩ := h
    decide +kernel
  · intro r v be h; cases h

/-! ### Interrupt controller -/

theorem witness_IrqSetWritesOneFlag :
    ∃ d, 0 < State.reset.cfg.sources.length ∧ State.reset.cfg.sources[0]? = some d ∧ d.clear = .autoClear ∧
      d.cond = some (.fifo 0 .notEmpty) ∧ State.reset.blk.holds (.fifo 0 .notEmpty) = false :=
  ⟨_, by decide, rfl, rfl, rfl, by decide⟩
theorem witness_IrqSetEnabledWritesOneFlag :
    ∃ d, 3 < flagged.cfg.sources.length ∧ Shaped flagged.cfg flagged.blk ∧ flagged.cfg.lines[0]? = some d ∧ 3 ∈ d.sources ∧
      flagged.blk.isPending 3 = true := ⟨_, by decide +kernel, inv_flagged.shaped, rfl, by decide, by decide +kernel⟩
theorem witness_IrqIsPendingReturnsRawFlag : 4 < flagged.cfg.sources.length ∧ flagged.blk.pending[3]? = some true ∧
    flagged.blk.pending[4]? = some false ∧ flagged.blk.isEnabled 3 = false := by decide +kernel
theorem witness_IrqLevelIsOrOfEnabledPending : ∃ d e, flagged.cfg.lines[0]? = some d ∧ small.lines[1]? = some e ∧ e.sources = [] :=
  ⟨_, _, rfl, rfl, rfl⟩
/-- RXNE pending with its condition true and, set in vain, false; signals of a line, a FIFO, a constant and a custom function. -/
theorem witness_RecomputeClearsAndLatches :
    (∃ d, one.cfg.sources[0]? = some d ∧ d.clear = .autoClear ∧ d.cond = some (.fifo 0 .notEmpty) ∧
      one.blk.fifo[0]? = some ⟨[0x41], 4, 2, .ready, false⟩ ∧ one.blk.isPending 0 = true) ∧
    (let s := ref [.irqSet 0 true]; s.blk.fifo[0]? = some ⟨[], 4, 2, .empty, false⟩ ∧ s.blk.isPending 0 = true) ∧
    (∃ d L, one.cfg.signals[0]? = some d ∧ d.expr = .line 0 ∧ one.cfg.lines[0]? = some L) ∧
    (∃ d, one.cfg.signals[4]? = some d ∧ d.expr = .fifo 0 .full) ∧
    (∃ d, (sm []).cfg.signals[1]? = some d ∧ d.expr = .const true) ∧ (∃ d, (fresh odd).cfg.signals[0]? = some d ∧ d.expr = .custom 0) :=
  ⟨⟨_, rfl, rfl, rfl, by decide +kernel, by decide +kernel⟩, by decide +kernel, ⟨_, _, rfl, rfl, rfl⟩, ⟨_, rfl, rfl⟩, ⟨_, rfl, rfl⟩,
    ⟨_, rfl, rfl⟩⟩
theorem witness_RecomputeIsIdempotent : Settled one.cfg one.blk := inv_one.settled
theorem witness_OutputsCurrentAfterEntryPoint :
    ∃ d e, Inv one ∧ one.cfg.admits (.read 0) = true ∧ (Instr.read 0).isTransaction = true ∧ one.cfg.signals[0]? = some d ∧
      d.expr = .line 0 ∧ one.cfg.sources[1]? = some e ∧ e.clear = .autoClear ∧ e.cond = some (.fifo 0 .watermarkCrossed) ∧
      (ran four (.rxByte 5)).blk.isPending 1 = true ∧
      (ran four (.rxByte 5)).blk.fifo[0]? = some ⟨[1, 2, 3, 4], 4, 2, .full, true⟩ :=
  ⟨_, _, inv_one, by decide +kernel, by decide, rfl, rfl, rfl, rfl, rfl, by decide +kernel, by decide +kernel⟩
/-- A flag falls by RESET, by its condition, by a written 1 and by a read. -/
theorem witness_PendingFallsOnlyByPolicy :
    (∃ t, Inv flagged ∧ standardCfg flagged.cfg = true ∧ Instr.reset.isTransaction = true ∧ exec .reset flagged = .next t ∧
      flagged.blk.isPending 2 = true ∧ t.blk.isPending 2 = false) ∧
    (∃ t, Inv one ∧ standardCfg one.cfg = true ∧ (Instr.read 0).isTransaction = true ∧ exec (.read 0) one = .next t ∧
      one.blk.isPending 0 = true ∧ t.blk.isPending 0 = false) ∧
    (∃ t, exec (.write 1 4) flagged = .next t ∧ (Instr.write 1 4).isTransaction = true ∧ t.blk.isPending 2 = false) ∧
    (∃ t, Inv smallFull ∧ standardCfg smallFull.cfg = true ∧ exec (.read 0) smallFull = .next t ∧ smallFull.blk.isPending 0 = true ∧
      t.blk.isPending 0 = false) :=
  ⟨⟨ran flagged .reset, inv_flagged, by decide +kernel, by decide, rfl, by decide +kernel, by decide +kernel⟩,
    ⟨ran one (.read 0), inv_one, by decide +kernel, by decide, rfl, by decide +kernel, by decide +kernel⟩,
    ⟨ran flagged (.write 1 4), rfl, by decide, by decide +kernel⟩,
    ⟨ran smallFull (.read 0), inv_smallFull, by decide +kernel, rfl, by decide +kernel, by decide +kernel⟩⟩

/-! ### FIFOs -/

/-- Whether source `i` of REF lists one of the given events. -/
def lists (i : Nat) (es : List IEvent) : Bool := (Cfg.ref.sources[i]?).any (fun d => d.triggers.any (fun e => decide (e ∈ es)))

/-- Room for one more, and full, where OVR lists the event and UDR does not. -/
theorem witness_FifoPushAppendsOrOverflows :
    0 < four.cfg.fifos.length ∧ four.blk.fifo[0]? = some ⟨[1, 2, 3, 4], 4, 2, .full, true⟩ ∧
    queued.blk.fifo[1]? = some ⟨[1, 2, 3], 4, 0, .ready, true⟩ ∧ 1 < queued.cfg.fifos.length ∧ four.cfg = Cfg.ref ∧
    four.blk.pending[2]? = some false ∧ lists 2 (pushRaises 0 ⟨[1, 2, 3, 4], 4, 2, .full, true⟩ 5) = true ∧
    four.blk.pending[3]? = some false ∧ lists 3 (pushRaises 0 ⟨[1, 2, 3, 4], 4, 2, .full, true⟩ 5) = false := by decide +kernel
theorem witness_FifoPopTakesHeadOrUnderflows :
    0 < one.cfg.fifos.length ∧ one.blk.fifo[0]? = some ⟨[0x41], 4, 2, .ready, false⟩ ∧
    one.blk.fifo[1]? = some ⟨[], 4, 0, .empty, false⟩ ∧ 1 < one.cfg.fifos.length ∧ one.cfg = Cfg.ref ∧
    one.blk.pending[3]? = some false ∧ lists 3 (popRaises 1 ⟨[], 4, 0, .empty, false⟩) = false ∧
    lists 3 (popRaises 0 ⟨[], 4, 2, .empty, false⟩) = true := by decide +kernel
theorem witness_FifoFlushEmpties : 0 < four.cfg.fifos.length ∧ four.blk.fifo[0]? = some ⟨[1, 2, 3, 4], 4, 2, .full, true⟩ := by
  decide +kernel
/-- The current capacity; a new one while receiving; 0 and 3 for a power-of-two FIFO; 1 and 8 with both enables clear. -/
theorem witness_FifoSetCapacityCases :
    ∃ d, queued.cfg.fifos[1]? = some d ∧ queued.blk.fifo[1]? = some ⟨[1, 2, 3], 4, 0, .ready, true⟩ ∧
      4 = (⟨[1, 2, 3], 4, 0, .ready, true⟩ : Fifo).cap ∧
      (8 ≠ 4 ∧ four.blk.rxEn = true) ∧ (0 ≠ 4 ∧ 0 < 1) ∧ (3 ≠ 4 ∧ d.pow2 = true ∧ ∀ e, 3 ≠ 2 ^ e) ∧
      (1 ≠ 4 ∧ queued.blk.txEn = false ∧ queued.blk.rxEn = false ∧ 1 ≤ 1 ∧ ∃ e, 1 = 2 ^ e) ∧ (∃ e, 8 = 2 ^ e) := by
  refine ⟨_, rfl, by decide +kernel, rfl, ⟨by decide, by decide +kernel⟩, by decide, ⟨by decide, rfl, ?_⟩,
    ⟨by decide, by decide +kernel, by decide +kernel, by decide, 0, rfl⟩, 3, rfl⟩
  intro e h
  rcases e with _ | _ | e
  · cases h
  · cases h
  · have : 2 ^ (e + 2) = 4 * 2 ^ e := by ring
    omega
theorem witness_FifoSetWatermarkClamps :
    0 < four.cfg.fifos.length ∧ four.blk.fifo[0]? = some ⟨[1, 2, 3, 4], 4, 2, .full, true⟩ ∧
    (⟨[1, 2, 3, 4], 4, 2, .full, true⟩ : Fifo).consistent = true := by decide +kernel
theorem witness_FifoPropertiesHoldForEverySequence :
    (∃ t, (∀ i ∈ [Instr.fifoPush 0 1, .fifoPop 0, .fifoFlush 1, .fifoSetCapacity 1 8, .fifoSetWatermark 0 9], isFifoPrimitive i = true) ∧
      FifosOk four.blk ∧ runAll [.fifoPush 0 1, .fifoPop 0, .fifoFlush 1, .fifoSetCapacity 1 8, .fifoSetWatermark 0 9] four = some t) ∧
    (∃ f g, 0 < four.cfg.fifos.length ∧ four.blk.fifo[0]? = some f ∧ f.st = .full ∧ four.blk.fifo[1]? = some g ∧ g.st = .empty) ∧
    (∃ t, isFifoPrimitive (.fifoFlush 0) = true ∧ exec (.fifoFlush 0) four = .next t) :=
  ⟨⟨_, by decide, inv_four.fifos, rfl⟩, ⟨_, _, by decide +kernel, rfl, by decide +kernel, rfl, by decide +kernel⟩,
    ⟨ran four (.fifoFlush 0), rfl, rfl⟩⟩

/-! ### Receive, transmit, flush, timers, signals -/

theorem witness_RxBytePushesOrDrops :
    (State.reset.blk.rxEn = false) ∧
    (one.blk.rxEn = true ∧ fifoOf one.cfg .rx = some 0 ∧ one.blk.fifo[0]? = some ⟨[0x41], 4, 2, .ready, false⟩) ∧
    (four.blk.rxEn = true ∧ fifoOf four.cfg .rx = some 0 ∧ four.cfg = Cfg.ref ∧ four.blk.pending[2]? = some false ∧
      eff four.cfg 2 ≠ .autoClear ∧ lists 2 (pushRaises 0 ⟨[1, 2, 3, 4], 4, 2, .full, true⟩ 5) = true) := by decide +kernel
/-- Sending; looping with and without receive; queueing; no tx FIFO. -/
theorem witness_TxByteSendsLoopsOrQueues :
    (let s := ref [.write 3 0xA]; s.blk.txEn = true ∧ s.blk.loopOn = false) ∧
    (let s := ref [.write 3 0xE]; s.blk.txEn = true ∧ s.blk.loopOn = true ∧ s.blk.rxEn = false) ∧
    (let s := ref [.write 3 0xF]; s.blk.txEn = true ∧ s.blk.loopOn = true ∧ s.blk.rxEn = true ∧ fifoOf s.cfg .rx = some 0 ∧
      s.blk.fifo[0]? = some ⟨[], 4, 2, .empty, false⟩) ∧
    (queued.blk.txEn = false ∧ fifoOf queued.cfg .tx = some 1 ∧ queued.blk.fifo[1]? = some ⟨[1, 2, 3], 4, 0, .ready, true⟩) ∧
    ((sm []).blk.txEn = false ∧ fifoOf (sm []).cfg .tx = none) := by decide +kernel
theorem witness_TxEnableDrainsOnRise :
    queued.blk.txEn = false ∧ ¬ (queued.blk.txEn = false ∧ false = true) ∧
    ¬ ((ref [.write 3 0xA]).blk.txEn = false ∧ true = true) := by decide +kernel
/-- Three bytes queued, none queued, and the outputs of the example in 43_peripheral.md R129. -/
theorem witness_TxDrainSendsInOrder :
    queued.blk.loopOn = false ∧ txItems queued.cfg queued.blk = [1, 2, 3] ∧ fifoOf queued.cfg .tx ≠ some 0 ∧
    flagged.blk.loopOn = false ∧ flagged.blk.isPending 2 = true ∧ fifoOf queued.cfg .tx = some 1 ∧
    queued.blk.fifo[1]? = some ⟨[1, 2, 3], 4, 0, .ready, true⟩ ∧
    drainOutputs 1 true ⟨[1, 2, 3], 4, 0, .ready, true⟩ none [1, 2, 3] =
      [.transmit 1, .transmit 2, .notify 1 .ready .empty true false, .transmit 3] ∧
    one.blk.loopOn = false ∧ txItems one.cfg one.blk = [] ∧ queued.blk.pending[2]? = some false ∧
    drainRaises 1 ⟨[1, 2, 3], 4, 0, .ready, true⟩ none [1, 2, 3] = [.enterState 1 .empty, .watermarkFall 1] := by decide +kernel
/-- Receiving, with three bytes in the rx FIFO and two queued, of which one does not fit; not receiving; no rx FIFO; nothing queued. -/
theorem witness_TxDrainLoopsIntoReceive :
    (let s := ref [.write 3 0x9, .rxByte 1, .rxByte 2, .rxByte 3, .write 0 4, .write 0 5, .write 3 0xD]
     s.blk.loopOn = true ∧ fifoOf s.cfg .rx = some 0 ∧ s.blk.fifo[0]? = some ⟨[1, 2, 3], 4, 2, .ready, true⟩ ∧
      txItems s.cfg s.blk = [4, 5] ∧ s.blk.rxEn = true ∧ fifoOf s.cfg .tx = some 1 ∧
      s.blk.fifo[1]? = some ⟨[4, 5], 4, 0, .ready, true⟩ ∧ s.cfg = Cfg.ref ∧ s.blk.pending[2]? = some false ∧
      lists 2 (drainRaises 1 ⟨[4, 5], 4, 0, .ready, true⟩ (some (0, ⟨[1, 2, 3], 4, 2, .ready, true⟩)) [4, 5]) = true) ∧
    (let s := ref [.write 0 4, .write 3 0xC]
     s.blk.loopOn = true ∧ s.blk.rxEn = false ∧ fifoOf s.cfg .tx = some 1 ∧ s.blk.fifo[1]? = some ⟨[4], 4, 0, .ready, true⟩) ∧
    (let s := ran (ran (fresh { lone 0 8 4 [⟨"LB", 2, 1, .readWrite, .loopback, none⟩] with
        fifos := [⟨"TXQ", .tx, 2, 1, false, 1, 0⟩] }) .reset) (.txByte 7)
     validCfg s.cfg = true ∧ s.blk.loopOn = true ∧ fifoOf s.cfg .rx = none ∧ fifoOf s.cfg .tx = some 0 ∧
      s.blk.fifo[0]? = some ⟨[7], 2, 1, .ready, false⟩) ∧
    (let s := ref [.write 3 0xC]; s.blk.loopOn = true ∧ txItems s.cfg s.blk = []) := by decide +kernel
theorem witness_FlushEmptiesNamedFifo :
    ((1 : BitVec 64).toNat < queued.cfg.fifos.length ∧ queued.blk.fifo[(1 : BitVec 64).toNat]? = some ⟨[1, 2, 3], 4, 0, .ready, true⟩) ∧
    queued.cfg.fifos.length ≤ (2 : BitVec 64).toNat ∧ queued.blk.pending[2]? = some false ∧ eff queued.cfg 2 ≠ .autoClear := by
  decide +kernel
theorem witness_TimerArmSchedulesNewToken : 0 < armed.cfg.timers.length ∧ armed.blk.timer[0]? = some ⟨.armed, 1⟩ := by decide +kernel
theorem witness_TimerCancelAdvancesToken : 0 < armed.cfg.timers.length ∧ armed.blk.timer[0]? = some ⟨.armed, 1⟩ := by decide +kernel
theorem witness_TimerFireOnlyWithLiveToken :
    (armed.blk.timer[(0 : BitVec 64).toNat]? = some ⟨.armed, 1⟩ ∧ (0 : BitVec 64).toNat < armed.cfg.timers.length) ∧
    armed.blk.timer[(0 : BitVec 64).toNat]? ≠ some ⟨.armed, 0⟩ ∧ armed.cfg.timers.length ≤ (1 : BitVec 64).toNat ∧ armed.cfg = Cfg.ref ∧
    armed.blk.pending[4]? = some false ∧ eff armed.cfg 4 ≠ .autoClear ∧ lists 4 [.timerFired 0] = true ∧ lists 3 [.timerFired 0] = false := by
  decide +kernel
theorem witness_StaleFiringIsIgnored :
    (0 : BitVec 64).toNat < armed.cfg.timers.length ∧ armed.blk.timer[(0 : BitVec 64).toNat]? = some ⟨.armed, 1⟩ ∧ (1 : Token) ≠ 1 + 1 := by
  decide +kernel
/-- Signals of a FIFO and of a line, of a constant, and of a custom function. -/
theorem witness_SignalSampleReturnsLatchedLevel :
    ((4 : BitVec 64).toNat < four.cfg.signals.length ∧ four.blk.sig[(4 : BitVec 64).toNat]? = some true) ∧
    four.cfg.signals.length ≤ (5 : BitVec 64).toNat ∧
    (Inv four ∧ (∃ d, four.cfg.signals[(4 : BitVec 64).toNat]? = some d ∧ d.expr = .fifo 0 .full ∧
      four.blk.fifo[0]? = some ⟨[1, 2, 3, 4], 4, 2, .full, true⟩) ∧
      ∃ d L, four.cfg.signals[(0 : BitVec 64).toNat]? = some d ∧ d.expr = .line 0 ∧ four.cfg.lines[0]? = some L) ∧
    (Inv (sm []) ∧ ∃ d, (sm []).cfg.signals[(1 : BitVec 64).toNat]? = some d ∧ d.expr = .const true) ∧
    (Inv (fresh odd) ∧ ∃ d, (fresh odd).cfg.signals[(0 : BitVec 64).toNat]? = some d ∧ d.expr = .custom 0) :=
  ⟨by decide +kernel, by decide +kernel, ⟨inv_four, ⟨_, rfl, rfl, by decide +kernel⟩, _, _, rfl, rfl, rfl⟩,
    ⟨inv_small, _, rfl, rfl⟩, inv_odd, _, rfl, rfl⟩

end Sys2Proof.Tests
end

section
/-! PROOFS. The statements of 10_state.md: the invariant between entry points, the configuration, construction, RESET, the control
bits, and the reference state. -/

namespace Sys2Proof.Machine

/-! ## Steps -/

/-- Inversion of the check after a transaction (60_exceptions.md R143). -/
theorem guarded_next {o : Host.Outcome State Fault Refusal} {t : State} (h : guarded o = .next t) :
    o = .next t ∧ t.consistent = true := by
  cases o with
  | next u =>
    unfold guarded at h
    dsimp only at h
    split at h
    · injection h with h
      subst h
      exact ⟨rfl, ‹_›⟩
    · cases h
  | fault f => cases h
  | refused r => cases h

/-- Inversion of `step`: with nothing to serve it answers the same state, else what the decoded transaction answers. -/
theorem step_next {s t : State} (h : step s = .next t) :
    (s.inbox = [] ∧ t = s) ∨
      ∃ d rest i, s.inbox = d :: rest ∧ decode s.cfg d = .ok i ∧ i.isTransaction = true ∧
        exec i { s with inbox := rest } = .next t ∧ t.consistent = true := by
  unfold step advance at h
  split at h
  · cases hl : s.inbox with
    | nil =>
      rw [hl] at h
      injection h with h
      exact .inl ⟨rfl, h.symm⟩
    | cons d rest =>
      rw [hl] at h
      dsimp only [issue] at h
      cases hd : decode s.cfg d with
      | error e => rw [hd] at h; cases h
      | ok i =>
        rw [hd] at h
        dsimp only at h
        split at h
        · exact .inr ⟨d, rest, i, rfl, hd, ‹_›, guarded_next h⟩
        · cases h
  · cases h

/-- Settles O11: the state before the transaction differs from `s` in its inbox only, and every entry point keeps the invariant. -/
theorem stepKeepsInvariant : Obligations.StepKeepsInvariant := by
  intro s t hi h
  rcases step_next h with ⟨-, rfl⟩ | ⟨d, rest, i, -, -, htx, hx, -⟩
  · exact hi
  · exact inv_exec (hi.withInbox rest) hx htx

theorem exec_next_cfg {i : Instr} {s t : State} (h : exec i s = .next t) : t.cfg = s.cfg := by
  obtain ⟨-, rfl⟩ := exec_next h
  exact (body_frame i s.start).1

/-- Settles O13: every instruction's body keeps the configuration, and a step runs at most one instruction. -/
theorem configurationNeverChanges : Obligations.ConfigurationNeverChanges := by
  refine ⟨fun s t i => exec_next_cfg, fun s t h => ?_⟩
  rcases step_next h with ⟨-, rfl⟩ | ⟨d, rest, i, -, -, -, hx, -⟩
  · rfl
  · have hc := exec_next_cfg hx
    exact hc

/-! ## Fields of a register -/

/-- Two positions of a laid list of fields share no bit. -/
theorem Laid.apart_at {l : List FieldDesc} (h : Laid l) {m n : Nat} {f g : FieldDesc} (hf : l[m]? = some f) (hg : l[n]? = some g)
    (hmn : m ≠ n) (j : Nat) : ¬ (FieldDesc.hits f j ∧ FieldDesc.hits g j) := by
  obtain ⟨hm, rfl⟩ := List.getElem?_eq_some_iff.1 hf
  obtain ⟨hn, rfl⟩ := List.getElem?_eq_some_iff.1 hg
  have hp := List.pairwise_iff_getElem.1 h.apart
  rcases Nat.lt_or_gt_of_ne hmn with hlt | hgt
  · exact hp m n hm hn hlt j
  · exact fun hj => hp n m hn hm hgt j hj.symm

/-- Settles O15: check 2 of construction lays the fields of every register out. -/
theorem fieldsOfRegisterShareNoBit : Obligations.FieldsOfRegisterShareNoBit := by
  intro c d j m n f g hv hd hf hg
  obtain ⟨hl, hw⟩ := laid_of_valid hv hd
  exact ⟨fun hj => Nat.lt_of_lt_of_le hj.2 (hw f (List.mem_of_getElem? hf)), fun hmn => hl.apart_at hf hg hmn j⟩

/-! ## RESET -/

/-- The timers after RESET (10_state.md R36). -/
def idledTimers (ts : List Timer) : List Timer := ts.map (fun t => ⟨.idle, t.token + 1⟩)

/-- RESET answers a next state in every state: the block of 70_reset_and_hazards.md R157, recomputed, and the voided firings. -/
theorem exec_reset (s : State) : ∃ t, exec .reset s = .next t ∧
    t.blk = Block.recomputed s.cfg (rstBlock s.cfg (idledTimers s.blk.timer)) ∧ t.trace = rstEvents s.blk.timer :=
  ⟨_, exec_admitted rfl, rfl, rfl⟩

section
variable (c : Cfg) (ts : List Timer)

theorem resetBlock_reg (r : Nat) : (Block.recomputed c (rstBlock c ts)).reg[r]? = (c.regs[r]?).map (·.resetValue) := by
  simp [Block.recomputed, rstBlock]

theorem resetBlock_pending (i : Nat) : (Block.recomputed c (rstBlock c ts)).pending[i]? = (c.sources[i]?).map (fun _ => false) := by
  show (clearAuto _ c.sources (c.sources.map (fun _ => false)))[i]? = _
  rw [clearAuto_getElem?, List.getElem?_map, Option.map_map]
  rfl

theorem resetBlock_enabled (i : Nat) : (Block.recomputed c (rstBlock c ts)).enabled[i]? = (c.sources[i]?).map (rstEnabled c i) := by
  simp [Block.recomputed, rstBlock, List.getElem?_zipIdx, Function.comp_def]

theorem resetBlock_fifo (q : Nat) : (Block.recomputed c (rstBlock c ts)).fifo[q]? = (c.fifos[q]?).map (rstFifo c q) := by
  simp [Block.recomputed, rstBlock, List.getElem?_zipIdx, Function.comp_def]

theorem resetBlock_txEn : (Block.recomputed c (rstBlock c ts)).txEn = rstBit c .txEnable := rfl
theorem resetBlock_rxEn : (Block.recomputed c (rstBlock c ts)).rxEn = rstBit c .rxEnable := rfl
theorem resetBlock_loopOn : (Block.recomputed c (rstBlock c ts)).loopOn = rstBit c .loopback := rfl
theorem resetBlock_timer : (Block.recomputed c (rstBlock c ts)).timer = ts := rfl

end

/-- A signal after recompute shows the value of its expression (41_interrupts.md R111). -/
theorem recomputed_sig {c : Cfg} {g : Nat} {d : SignalDesc} (b : Block) (hd : c.signals[g]? = some d) :
    (Block.recomputed c b).sig[g]? = some (evalSignal c (Block.recomputed c b) d.expr) := by
  rw [(recomputed_settled c b).sig, List.getElem?_map, hd]
  rfl

/-- Settles O16: no flag is set before recompute, which sets none, and recompute leaves every signal current. -/
theorem resetRestoresRegistersFlagsSignals : Obligations.ResetRestoresRegistersFlagsSignals := by
  intro s
  obtain ⟨t, ht, hb, -⟩ := exec_reset s
  refine ⟨t, ht, fun r d hd => ?_, fun i d hd => ?_, fun g d hd => ?_⟩ <;> rw [hb]
  · rw [resetBlock_reg, hd, Option.map_some]
  · rw [resetBlock_pending, hd, Option.map_some]
  · exact recomputed_sig _ hd

/-! ### Reset values that fields give (10_state.md R33 to R35) -/

/-- No field of the configuration has binding `k`. -/
def Unbound (c : Cfg) (k : Binding) : Prop := ∀ r ∈ c.regs, ∀ f ∈ r.fields, f.bind ≠ k

theorem resetFieldOf_eq_none_iff (c : Cfg) (k : Binding) : resetFieldOf c k = none ↔ Unbound c k := by
  simp [resetFieldOf, Unbound, List.findSome?_eq_none_iff]

/-- A reset value comes from a field with the binding. -/
theorem exists_of_resetFieldOf {c : Cfg} {k : Binding} {v : Word} (h : resetFieldOf c k = some v) :
    ∃ r ∈ c.regs, ∃ f ∈ r.fields, f.bind = k ∧ v = slice r.resetValue f.off f.wid := by
  obtain ⟨r, hr, h⟩ := List.exists_of_findSome?_eq_some h
  obtain ⟨f, hf, h⟩ := List.exists_of_findSome?_eq_some h
  split at h
  · injection h with h
    exact ⟨r, hr, f, hf, ‹_›, h.symm⟩
  · cases h

/-- Where a field has the binding there is a reset value, and it is such a field's. -/
theorem resetFieldOf_of_bound {c : Cfg} {k : Binding} (h : ∃ r ∈ c.regs, ∃ f ∈ r.fields, f.bind = k) :
    ∃ r ∈ c.regs, ∃ f ∈ r.fields, f.bind = k ∧ resetFieldOf c k = some (slice r.resetValue f.off f.wid) := by
  cases hv : resetFieldOf c k with
  | none =>
    obtain ⟨r, hr, f, hf, hk⟩ := h
    exact absurd hk ((resetFieldOf_eq_none_iff c k).1 hv r hr f hf)
  | some v =>
    obtain ⟨r, hr, f, hf, hk, rfl⟩ := exists_of_resetFieldOf hv
    exact ⟨r, hr, f, hf, hk, rfl⟩

/-- The reset value is that of the first field with the binding, in register order, then field order (R33). -/
theorem resetFieldOf_first {c : Cfg} {k : Binding} {rs rs' : List RegDesc} {r : RegDesc} {fs fs' : List FieldDesc} {f : FieldDesc}
    (hr : c.regs = rs ++ r :: rs') (hf : r.fields = fs ++ f :: fs') (hk : f.bind = k)
    (hrs : ∀ x ∈ rs, ∀ g ∈ x.fields, g.bind ≠ k) (hfs : ∀ g ∈ fs, g.bind ≠ k) :
    resetFieldOf c k = some (slice r.resetValue f.off f.wid) := by
  refine List.findSome?_eq_some_iff.2 ⟨rs, r, rs', hr, List.findSome?_eq_some_iff.2 ⟨fs, f, fs', hf, if_pos hk, ?_⟩, ?_⟩
  · exact fun g hg => if_neg (hfs g hg)
  · exact fun x hx => List.findSome?_eq_none_iff.2 fun g hg => if_neg (hrs x hx g hg)

/-- Bit 0 of a field's value is the word's bit at its offset, whatever the width. -/
theorem bit0_slice (v : Word) (off : Nat) {wid : Nat} (h : 1 ≤ wid) : bit0 (slice v off wid) = v.getLsbD off := by
  unfold bit0
  rw [slice_getLsbD_any, Nat.add_zero, decide_eq_true (show 0 < wid from h), Bool.and_true]

theorem rstEnabled_of_unbound {c : Cfg} {i : Nat} (d : SourceDesc) (h : Unbound c (.irqEnable i)) :
    rstEnabled c i d = d.enableReset := by
  unfold rstEnabled
  rw [(resetFieldOf_eq_none_iff c _).2 h]

theorem rstEnabled_of_field {c : Cfg} {i : Nat} {v : Word} (d : SourceDesc) (h : resetFieldOf c (.irqEnable i) = some v) :
    rstEnabled c i d = bit0 v := by
  unfold rstEnabled
  rw [h]

theorem rstBit_of_unbound {c : Cfg} {k : Binding} (h : Unbound c k) : rstBit c k = false := by
  unfold rstBit
  rw [(resetFieldOf_eq_none_iff c k).2 h]

/-- A control bit after reset, where all fields bound to it agree on it (R35). -/
theorem rstBit_of_bound {c : Cfg} (hv : validCfg c = true) {k : Binding} {v : Bool}
    (h : ∃ r ∈ c.regs, ∃ f ∈ r.fields, f.bind = k)
    (ha : ∀ r ∈ c.regs, ∀ f ∈ r.fields, f.bind = k → r.resetValue.getLsbD f.off = v) : rstBit c k = v := by
  obtain ⟨r, hr, f, hf, hk, hs⟩ := resetFieldOf_of_bound h
  have hw : 1 ≤ f.wid := ((laid_of_valid hv hr).1.inside f hf).1
  unfold rstBit
  rw [hs]
  exact (bit0_slice _ _ hw).trans (ha r hr f hf hk)

/-- Settles O17: an enable flag takes the first bound field (R33); a control bit takes one on which all bound fields agree (R35). -/
theorem resetEnablesFollowFields : Obligations.ResetEnablesFollowFields := by
  intro s hv
  obtain ⟨t, ht, hb, -⟩ := exec_reset s
  refine ⟨t, ht, fun i d hd => ?_, fun k v h => ?_⟩ <;> rw [hb]
  · rw [resetBlock_enabled, hd, Option.map_some]
    refine ⟨fun hu => congrArg some (rstEnabled_of_unbound d hu), fun rs rs' r fs fs' f hr hf hk hrs hfs => ?_⟩
    have hmr : r ∈ s.cfg.regs := by simp [hr]
    have hmf : f ∈ r.fields := by simp [hf]
    have hw : 1 ≤ f.wid := ((laid_of_valid hv hmr).1.inside f hmf).1
    rw [rstEnabled_of_field d (resetFieldOf_first hr hf hk hrs hfs), bit0_slice _ _ hw, bit0_slice _ _ (Nat.le_refl 1)]
  · have hk : rstBit s.cfg k = v := by
      rcases h with ⟨hu, rfl⟩ | ⟨hbound, ha⟩
      · exact rstBit_of_unbound hu
      · exact rstBit_of_bound hv hbound ha
    rw [resetBlock_txEn, resetBlock_rxEn, resetBlock_loopOn]
    refine ⟨?_, ?_, ?_⟩ <;> rintro rfl <;> exact hk

theorem rstWm_of_unbound {c : Cfg} {q : Nat} (d : FifoDesc) (h : Unbound c (.fifoWatermark q)) : rstWm c q d = d.wmReset := by
  unfold rstWm
  rw [(resetFieldOf_eq_none_iff c _).2 h]

/-- A watermark after reset, where all fields bound to it agree on it (R34). -/
theorem rstWm_of_bound {c : Cfg} {q v : Nat} {d : FifoDesc} (h : ∃ r ∈ c.regs, ∃ f ∈ r.fields, f.bind = .fifoWatermark q)
    (ha : ∀ r ∈ c.regs, ∀ f ∈ r.fields, f.bind = .fifoWatermark q → min (slice r.resetValue f.off f.wid).toNat d.capReset = v) :
    rstWm c q d = v := by
  obtain ⟨r, hr, f, hf, hk, hs⟩ := resetFieldOf_of_bound h
  unfold rstWm
  rw [hs]
  exact ha r hr f hf hk

/-- Settles O18: recompute leaves the FIFOs, whose watermark is that of a field bound to it, on which all of them agree. -/
theorem resetEmptiesFifos : Obligations.ResetEmptiesFifos := by
  intro s q d hd
  obtain ⟨t, ht, hb, -⟩ := exec_reset s
  refine ⟨t, rstFifo s.cfg q d, ht, ?_, rfl, rfl, rfl, rfl, rstWm_of_unbound d, fun v => rstWm_of_bound⟩
  rw [hb, resetBlock_fifo, hd, Option.map_some]

/-! ### Timers -/

/-- The events of a reset are the voided firings of the armed timers, and no others (R157). -/
theorem mem_rstEvents (ts : List Timer) (e : Event) :
    e ∈ rstEvents ts ↔ ∃ n x, ts[n]? = some x ∧ x.phase = .armed ∧ e = .timerCancel n x.token := by
  simp only [rstEvents, List.mem_filterMap, Prod.exists, List.mem_zipIdx_iff_getElem?, Option.ite_none_right_eq_some,
    Option.some.injEq]
  constructor
  · rintro ⟨x, n, hx, ha, rfl⟩
    exact ⟨n, x, hx, ha, rfl⟩
  · rintro ⟨n, x, hx, ha, rfl⟩
    exact ⟨x, n, hx, ha, rfl⟩

theorem sentBytes_rstEvents (ts : List Timer) : sentBytes (rstEvents ts) = [] := by
  refine List.filterMap_eq_nil_iff.2 fun e he => ?_
  obtain ⟨n, x, -, -, rfl⟩ := (mem_rstEvents ts e).1 he
  rfl

/-- Settles O19: the trace of a RESET is the voided firings alone. -/
theorem resetIdlesTimers : Obligations.ResetIdlesTimers := by
  intro s
  obtain ⟨t, ht, hb, htr⟩ := exec_reset s
  refine ⟨t, ht, fun n x hx => ?_, ?_, fun e => ?_, ?_⟩
  · rw [hb, resetBlock_timer, idledTimers, List.getElem?_map, hx, Option.map_some]
  · rw [hb, resetBlock_timer, idledTimers, List.length_map]
  · rw [htr]
    exact mem_rstEvents _ e
  · rw [htr]
    exact sentBytes_rstEvents _

/-! ## Control bits -/

/-- A bit is kept by an entry point other than RESET, if no WRITE reaches a field bound to it (R21, R26). -/
theorem bitKept_body {i : Instr} {s : State} (hv : validCfg s.cfg = true) (hst : standardCfg s.cfg = true)
    (htx : i.isTransaction = true) (hr : i ≠ .reset) {k : Binding}
    (hk : ∀ r v be, writeParts s.cfg s.blk i = some (r, v, be) → ∀ f ∈ fieldsOf s.cfg r, touched be f = true → f.bind ≠ k) :
    BitKept k s (bodyOf i s) := by
  by_cases hg : ∃ g, i = .signalSample g
  · obtain ⟨g, rfl⟩ := hg
    exact Ctl.bitKept ⟨rfl, rfl, rfl, rfl, rfl⟩ k
  rcases body_kind s htx hr (fun g e => hg ⟨g, e⟩) with
    ⟨s1, res, hb, hq⟩ | ⟨r, be, res, -, hb⟩ | ⟨r, v, be, hw, hb⟩ <;> rw [hb]
  · exact (hq.ctl.bitKept k).trans (bitKept_recompute k s1 res)
  · exact ((readMasked_ctl r be s hv (standardReg_of hst r)).1.bitKept k).trans (bitKept_recompute k _ res)
  · have hreg := standardReg_of hst r
    rw [writeMasked_standard r v be s hreg]
    refine BitKept.trans (bitKept_writes k r _ s fun w hmem => ?_) (bitKept_recompute k _ (State.result _))
    have hf := mem_fieldWrites hmem
    exact ⟨(standard_field hreg hf).2, hk r v be hw w.1 hf (fieldWrites_touched hmem)⟩

/-- Settles O35, for each of the three kinds of entry point: a quiet body, a masked read, and a masked write. -/
theorem controlBitsChangeOnlyByTheirFields : Obligations.ControlBitsChangeOnlyByTheirFields := by
  intro i s hv hst ha htx hr
  exact ⟨_, exec_admitted ha, fun k hk => bitKept_body (s := s.start) hv hst htx hr hk⟩

/-! ## The reference state -/

theorem validCfg_ref : validCfg Cfg.ref = true := by decide +kernel

/-- Construction of a configuration that passes the checks (R155, R156). -/
theorem construct_of_valid {c : Cfg} (hv : validCfg c = true) :
    construct c = .ok (recompute
      { cfg := c, blk := rstBlock c (c.timers.map (fun _ => ⟨.idle, 0⟩)), inbox := [], trace := [], result := .none }) := by
  have he : configError c = none := by
    simp only [validCfg, List.all_eq_true] at hv
    simpa [configError] using hv
  unfold construct
  rw [he]

/-- The values of 10_state.md R39 are those that construction gives to REF. -/
theorem ref_blk : State.reset.blk = Block.recomputed Cfg.ref (rstBlock Cfg.ref [⟨.idle, 0⟩]) := by decide +kernel

/-- Settles O12: REF passes the checks, and its state after reset is a fresh block, recomputed. -/
theorem resetStateSatisfiesInvariant : Obligations.ResetStateSatisfiesInvariant :=
  inv_of_fresh validCfg_ref ⟨rfl, rfl, rfl, by decide, rfl, rfl⟩ (by rw [ref_blk]; exact recomputed_settled _ _)

/-- A field whose read has no side effect: no read action, and it is not cleared (40_register_file.md R80, R81). -/
def inertOnRead (c : Cfg) (f : FieldDesc) : Bool := idleOnRead c f && decide (readBeh c f ≠ .readToClear)

/-- The second loop of a masked read leaves fields that are not ReadToClear (R80, R81). -/
theorem clearFields_skip {r : Nat} {be : Word} {s : State} {l : List FieldDesc} (h : ∀ f ∈ l, readBeh s.cfg f ≠ .readToClear) :
    l.foldl (clearField r be) s = s := by
  induction l with
  | nil => rfl
  | cons f l ih =>
    have hskip : clearField r be s f = s := if_neg fun k => h f (List.mem_cons_self ..) k.1
    rw [List.foldl_cons, hskip]
    exact ih fun g hg => h g (List.mem_cons_of_mem _ hg)

/-- A masked read of fields without side effects only composes (R80). -/
theorem readMasked_inert {r : Nat} {s : State} {d : RegDesc} (be : Word) (hd : s.cfg.regs[r]? = some d)
    (hf : ∀ f ∈ d.fields, inertOnRead s.cfg f = true) (hp : d.postRead = none) :
    readMasked r be s = (s, peekReg s.cfg s.blk r) := by
  simp only [inertOnRead, Bool.and_eq_true, decide_eq_true_eq] at hf
  have hloop : readLoop r be s = (s, peekReg s.cfg s.blk r) := by
    unfold readLoop
    rw [readFields_idle r be s _ _ (by rw [fieldsOf_of hd]; exact fun f hm _ => (hf f hm).1)]
    rfl
  have hpost : (s.cfg.regs[r]?).bind (·.postRead) = none := by rw [hd, Option.bind_some, hp]
  unfold readMasked
  dsimp only
  rw [hloop, fieldsOf_of hd, clearFields_skip fun f hm => (hf f hm).2, hpost]
  rfl

/-- Such a READ in a settled block returns the composed value and changes nothing (R85). -/
theorem completes_read_inert {r : Nat} {s : State} {d : RegDesc} (hs : Settled s.cfg s.blk) (ha : s.cfg.admits (.read r) = true)
    (hd : s.cfg.regs[r]? = some d) (hf : ∀ f ∈ d.fields, inertOnRead s.cfg f = true) (hp : d.postRead = none) :
    Completes (.read r) s s.blk (.word (s.cfg.regBytes r) (peekReg s.cfg s.blk r)) [] := by
  have hb : bodyOf (.read r) s.start = s.start.returning (.word (s.cfg.regBytes r) (peekReg s.cfg s.blk r)) := by
    show readEntry r (allLanes s.cfg r) (s.cfg.regBytes r) id s.start = _
    unfold readEntry
    rw [readMasked_inert (s := s.start) _ hd hf hp]
    dsimp only
    rw [Settled.recompute_eq (s := s.start) hs]
    rfl
  exact completes_of ha (by rw [hb]; rfl) (by rw [hb]; rfl) (by rw [hb]; rfl) (by rw [hb]; rfl) (by rw [hb]; rfl)

/-- Settles O21: the three registers read have no field with a read side effect, so each READ only composes. -/
theorem referenceStateAfterReset : Obligations.ReferenceStateAfterReset := by
  have hs : Settled Cfg.ref State.reset.blk := resetStateSatisfiesInvariant.settled
  have hc : construct Cfg.ref = .ok State.reset := by
    rw [construct_of_valid validCfg_ref, recompute_eq]
    exact congrArg (fun b => Except.ok { State.reset with blk := b }) ref_blk.symm
  refine ⟨hc, rfl, rfl, rfl, rfl, ⟨rfl, rfl, rfl⟩, rfl, rfl, ?_, ?_, ?_⟩
  · have h3 : peekReg Cfg.ref State.reset.blk 3 = 0xA5000008 := by decide +kernel
    exact h3 ▸ completes_read_inert (s := State.reset) hs rfl (d := Ref.ctrl) rfl (by decide) rfl
  · have h4 : peekReg Cfg.ref State.reset.blk 4 = 0x00000002 := by decide +kernel
    exact h4 ▸ completes_read_inert (s := State.reset) hs rfl (d := Ref.fifoCfg) rfl (by decide) rfl
  · have h1 : peekReg Cfg.ref State.reset.blk 1 = 0x00000500 := by decide +kernel
    exact h1 ▸ completes_read_inert (s := State.reset) hs rfl (d := Ref.status) rfl (by decide) rfl

end Sys2Proof.Machine
end

section
/-! PROOFS. The statements of 20_memory.md: the ranges of the window and the class of an access, accesses that reach no register,
READs without side effects, and the transaction that a step runs. -/

namespace Sys2Proof.Machine

/-! ## The ranges of the window (20_memory.md R42, R43) -/

theorem mem_windows {c : Cfg} {w : Option Window} :
    w ∈ c.windows ↔ c.hasAlias = true ∧ (w = some .set ∨ w = some .clear ∨ w = some .toggle) := by
  unfold Cfg.windows
  split <;> simp [*]

/-- A range is that of its register in its window exactly when its ends are. -/
theorem eq_span_iff {c : Cfg} {d : RegDesc} {sp : Span} :
    sp = c.span d sp.reg sp.win ↔ sp.len = d.w / 8 ∧ sp.base = d.addr.toNat + c.offset sp.win := by
  obtain ⟨win, i, base, len⟩ := sp
  simp [Cfg.span, and_comm]

/-- The ranges: each register's own, and in a block with windows its three aliases. -/
theorem mem_spans_iff {c : Cfg} {sp : Span} :
    sp ∈ c.spans ↔ ∃ d, c.regs[sp.reg]? = some d ∧ sp.len = d.w / 8 ∧
      ((sp.win = none ∧ sp.base = d.addr.toNat) ∨
        (c.hasAlias = true ∧ ((sp.win = some .set ∧ sp.base = d.addr.toNat + c.setOffset.toNat) ∨
          (sp.win = some .clear ∧ sp.base = d.addr.toNat + c.clearOffset.toNat) ∨
          (sp.win = some .toggle ∧ sp.base = d.addr.toNat + c.toggleOffset.toNat)))) := by
  rw [mem_spans]
  refine exists_congr fun d => and_congr_right fun _ => ?_
  rw [eq_span_iff, mem_windows, and_assoc]
  refine and_congr_right fun _ => ?_
  rcases sp.win with _ | _ | _ | _ <;> simp [Cfg.offset, and_comm]

/-- A search for the one element with a property does not depend on the order of the list. -/
theorem find?_eq_of_perm {α : Type} {p : α → Bool} {l l' : List α} (h : l.Perm l')
    (hu : ∀ x ∈ l', ∀ y ∈ l', p x = true → p y = true → x = y) : l.find? p = l'.find? p := by
  cases hf : l'.find? p with
  | none => exact List.find?_eq_none.2 fun x hx => List.find?_eq_none.1 hf x (h.mem_iff.1 hx)
  | some x =>
    have hx : x ∈ l' := List.mem_of_find?_eq_some hf
    have hpx : p x = true := List.find?_some hf
    cases hg : l.find? p with
    | none => exact absurd hpx (List.find?_eq_none.1 hg x (h.mem_iff.2 hx))
    | some y => exact congrArg some (hu y (h.mem_iff.1 (List.mem_of_find?_eq_some hg)) x hx (List.find?_some hg) hpx)

/-! ## The class of an access (20_memory.md R45, 30_encoding.md R63) -/

theorem classify_unmapped {c : Cfg} {a : Addr} (n : Nat) (h : ∀ sp ∈ c.spans, sp.covers a.toNat = false) :
    c.classify a n = .unmapped := by
  have hf : c.spans.find? (·.covers a.toNat) = none := List.find?_eq_none.2 fun sp hs => by simp [h sp hs]
  unfold Cfg.classify
  rw [hf]

theorem busSize_iff {n : Nat} : busSize n = true ↔ n ∈ [1, 2, 4] := by
  simp [busSize, or_assoc]

theorem accessForm_rejected {c : Cfg} (win : Option Window) (r : Nat) {len k n : Nat}
    (h : busSize n = true → (n = len → k ≠ 0) ∧ (n < len → k % n = 0 → c.translation ≠ .widen)) :
    c.accessForm win r len k n = .rejected := by
  unfold Cfg.accessForm
  by_cases hs : busSize n = false
  · rw [if_pos hs]
  · obtain ⟨hexact, hnarrow⟩ := h (by simpa using hs)
    rw [if_neg hs, if_neg fun e => hexact e.1 e.2, if_neg fun e => hnarrow e.1 e.2.1 e.2.2]

theorem base_le_of_covers {sp : Span} {a : Nat} (k : sp.covers a = true) : sp.base ≤ a := by
  simp only [Span.covers, Bool.and_eq_true, decide_eq_true_eq] at k
  exact k.1

theorem busSize_dvd : ∀ m ∈ [1, 2, 4], ∀ n ∈ [1, 2, 4], n ≤ m → n ∣ m := by decide

/-- A range starts at a multiple of every bus size that is not above its length (R44), so an access is aligned in its range exactly
when its address is. -/
theorem lane_mod {c : Cfg} (hv : validCfg c = true) {sp : Span} (hs : sp ∈ c.spans) {a n : Nat} (hn : n ∈ [1, 2, 4])
    (hle : n ≤ sp.len) (ha : sp.base ≤ a) : (a - sp.base) % n = a % n := by
  obtain ⟨hlen, hal, -⟩ := span_of_valid hv hs
  have hdvd : n ∣ sp.base := (busSize_dvd sp.len (by simpa using hlen) n hn hle).trans (Nat.dvd_of_mod_eq_zero hal)
  obtain ⟨q, hq⟩ := hdvd
  rw [hq] at ha ⊢
  exact Nat.sub_mul_mod ha

section
variable {c : Cfg} (hv : validCfg c = true) {sp : Span} (hs : sp ∈ c.spans) {a : Addr} (k : sp.covers a.toNat = true)
include hv hs k

theorem classify_exact (ha : a.toNat = sp.base) : c.classify a sp.len = .exact sp.win sp.reg := by
  rw [classify_of_covers hv hs a _ k, ha, Nat.sub_self]
  exact accessForm_exact c _ _ _ (busSize_iff.2 (by simpa using (span_of_valid hv hs).1))

theorem classify_narrow {n : Nat} (hn : n ∈ [1, 2, 4]) (hlt : n < sp.len) (hal : a.toNat % n = 0) (ht : c.translation = .widen) :
    c.classify a n = .narrow sp.win sp.reg (a.toNat - sp.base) := by
  have hb := base_le_of_covers k
  rw [classify_of_covers hv hs a _ k]
  exact accessForm_narrow c _ _ _ _ _ (busSize_iff.2 hn) hlt ((lane_mod hv hs hn hlt.le hb).trans hal) ht

/-- What is neither exact nor narrow is rejected: each of the five reasons excludes both forms. -/
theorem classify_rejected {n : Nat} (h : n ∉ [1, 2, 4] ∨ sp.len < n ∨ a.toNat % n ≠ 0 ∨ (n = sp.len ∧ a.toNat ≠ sp.base) ∨
    (n < sp.len ∧ c.translation = .reject)) : c.classify a n = .rejected := by
  have hb := base_le_of_covers k
  rw [classify_of_covers hv hs a _ k]
  refine accessForm_rejected _ _ fun hsize => ?_
  have hn := busSize_iff.1 hsize
  rcases h with h | h | h | ⟨h, hne⟩ | ⟨h, ht⟩
  · exact absurd hn h
  · exact ⟨fun e => by omega, fun e => by omega⟩
  · have hmod : n ≤ sp.len → (a.toNat - sp.base) % n ≠ 0 := fun hle => by rwa [lane_mod hv hs hn hle hb]
    exact ⟨fun e h0 => hmod e.le (by rw [h0, Nat.zero_mod]), fun e h0 => absurd h0 (hmod e.le)⟩
  · exact ⟨fun _ => by omega, fun e => by omega⟩
  · exact ⟨fun e => by omega, fun _ _ => by simp [ht]⟩

end

/-- Settles O5: the ranges of a valid configuration are disjoint, so the one that covers an address gives its class. -/
theorem addressHasOneRangeAndClass : Obligations.AddressHasOneRangeAndClass := by
  intro c a n hv
  have hu : ∀ x ∈ c.spans, ∀ y ∈ c.spans, x.covers a.toNat = true → y.covers a.toNat = true → x = y :=
    fun x hx y hy => span_unique hv hx hy
  refine ⟨fun sp => mem_spans_iff, hu, fun l hl => find?_eq_of_perm hl hu, classify_unmapped n, fun sp hs k => ⟨?_, ?_, ?_⟩⟩
  · rintro ⟨rfl, ha⟩
    exact classify_exact hv hs k ha
  · rintro ⟨hn, hlt, hal, ht⟩
    exact classify_narrow hv hs k hn hlt hal ht
  · exact classify_rejected hv hs k

/-! ## Accesses that reach no register (20_memory.md R47, 40_register_file.md R96, R97) -/

/-- A completion is read off the state that the body leaves. -/
theorem completes_of_body {i : Instr} {s t : State} (ha : s.cfg.admits i = true) (hb : bodyOf i s.start = t) (hc : t.cfg = s.cfg)
    (hi : t.inbox = s.inbox) : Completes i s t.blk t.result (outputs t.trace) :=
  ⟨t, by rw [exec_admitted ha, hb], hc, hi, rfl, rfl, rfl⟩

/-- An operation that only emits a diagnostic changes nothing in a settled block (41_interrupts.md R110). -/
theorem completes_of_diag {i : Instr} {s : State} {d : Diag} {res : Result} (hs : Settled s.cfg s.blk) (ha : s.cfg.admits i = true)
    (hb : bodyOf i s.start = (recompute (s.start.diag d)).returning res) : Completes i s s.blk res [] := by
  rw [Settled.recompute_eq (s := s.start.diag d) hs] at hb
  exact completes_of_body ha hb rfl rfl

/-- Settles O27: the body of each of the four absent accesses is a diagnostic and recompute. -/
theorem absentAccessHasNoEffect : Obligations.AbsentAccessHasNoEffect := by
  intro s a n v hi
  refine ⟨fun hc => ⟨?_, fun hv => ?_⟩, fun hc => ⟨?_, fun hv => ?_⟩⟩
  · exact completes_of_diag hi.settled (by simp [Cfg.admits, hc]) rfl
  · exact completes_of_diag hi.settled (by simp [Cfg.admits, hc, hv]) rfl
  · exact completes_of_diag hi.settled (by simp [Cfg.admits, hc]) rfl
  · exact completes_of_diag hi.settled (by simp [Cfg.admits, hc, hv]) rfl

/-! ## READs without side effects (20_memory.md R51, R52) -/

/-- The body of a canonical READ: the masked read of its lanes, recompute, and its view of the composed word (R85, R93). -/
theorem bodyOf_of_readParts {i : Instr} {s : State} {r : Nat} {be : Word} (h : readParts s.cfg i = some (r, be)) :
    bodyOf i s = (recompute (readMasked r be s).1).returning (readValue s.cfg i (readMasked r be s).2) := by
  cases i with
  | read r' => cases h; rfl
  | readNarrow r' k n => cases h; rfl
  | _ => cases h

/-- The second loop of a masked read skips a field that is not ReadToClear or that the read does not reach (40_register_file.md R80). -/
theorem clearFields_unreached {r : Nat} {be : Word} {s : State} {l : List FieldDesc}
    (h : ∀ f ∈ l, touched be f = true → readBeh s.cfg f ≠ .readToClear) : l.foldl (clearField r be) s = s :=
  List.foldlRecOn (motive := (· = s)) l _ rfl fun t ht f hf => by
    subst ht
    exact if_neg fun e => h f hf e.2 e.1

/-- A masked read that reaches no field with a side effect, and runs no `post_read`, only composes (R80). -/
theorem readMasked_plain {r : Nat} {be : Word} {s : State}
    (hf : ∀ f ∈ fieldsOf s.cfg r, touched be f = true → idleOnRead s.cfg f = true ∧ readBeh s.cfg f ≠ .readToClear)
    (hp : ∀ d, s.cfg.regs[r]? = some d → d.postRead = none) : readMasked r be s = (s, peekReg s.cfg s.blk r) := by
  have hpost : (s.cfg.regs[r]?).bind (·.postRead) = none := Option.bind_eq_none_iff.2 hp
  unfold readMasked readLoop
  rw [readFields_idle r be s _ _ fun f hm ht => (hf f hm ht).1]
  dsimp only
  rw [clearFields_unreached fun f hm ht => (hf f hm ht).2, hpost]
  rfl

/-- The instruction is a READ that an agent can issue, of the lanes `be` of register `r`, and reaches none of the features of R51. -/
structure PlainRead (c : Cfg) (i : Instr) (r : Nat) (be : Word) : Prop where
  admitted : c.admits i = true
  parts : readParts c i = some (r, be)
  fields : ∀ f ∈ fieldsOf c r, touched be f = true → idleOnRead c f = true ∧ readBeh c f ≠ .readToClear
  post : ∀ d, c.regs[r]? = some d → d.postRead = none

/-- Such a READ of a settled block returns the composed value and changes nothing (40_register_file.md R80, R85, R93). -/
theorem PlainRead.completes {s : State} {i : Instr} {r : Nat} {be : Word} (h : PlainRead s.cfg i r be) (hs : Settled s.cfg s.blk) :
    Completes i s s.blk (readValue s.cfg i (peekReg s.cfg s.blk r)) [] := by
  have hb : bodyOf i s.start = s.start.returning (readValue s.cfg i (peekReg s.cfg s.blk r)) := by
    rw [bodyOf_of_readParts (s := s.start) h.parts, readMasked_plain (s := s.start) h.fields h.post, Settled.recompute_eq (s := s.start) hs]
    rfl
  exact completes_of_body h.admitted hb rfl rfl

/-- Settles O24: the first READ leaves the configuration and the block, on which alone the second one's outcome depends. -/
theorem plainReadRepeats : Obligations.PlainReadRepeats := by
  intro i s r be hi ha hp hf hpost
  have hr : PlainRead s.cfg i r be := ⟨ha, hp, hf, hpost⟩
  obtain ⟨t, ht, htc, -, htb, htr, -⟩ := hr.completes hi.settled
  obtain ⟨u, hu, -, -, hub, hur, -⟩ := PlainRead.completes (s := t) (htc.symm ▸ hr) (by rw [htc, htb]; exact hi.settled)
  rw [htc, htb] at hur
  exact ⟨t, u, ht, htb, hu, hub.trans htb, hur.trans htr.symm, htr⟩

/-! ## Steps (20_memory.md R49, R54) -/

/-- The decoder answers only operations that the configuration admits. -/
theorem admits_of_decode {c : Cfg} {d : Desc} {i : Instr} (h : decode c d = .ok i) : c.admits i = true := by
  unfold decode at h
  split at h
  · cases h
  · split at h
    · cases h
      assumption
    · cases h

theorem guarded_next_eq (t : State) : guarded (.next t) = if t.consistent then .next t else .fault .invariantViolation := rfl

theorem step_inconsistent {s : State} (h : s.consistent = false) : step s = .fault .invariantViolation :=
  if_neg (by simp [h])

/-- A step with a transaction to serve takes it from the inbox, runs it, and checks the state it leaves (log 17). -/
theorem step_serves {s : State} {d : Desc} {rest : List Desc} {i : Instr} (hs : s.consistent = true) (hl : s.inbox = d :: rest)
    (hd : decode s.cfg d = .ok i) (hx : i.isTransaction = true) : step s = guarded (exec i { s with inbox := rest }) := by
  unfold step advance
  rw [if_pos hs, hl]
  dsimp only [issue]
  rw [hd]
  exact if_pos hx

/-- Settles O7: the decoded operation is admitted, so it answers a next state, which the check lets through or not. -/
theorem stepRunsDecodedTransaction : Obligations.StepRunsDecodedTransaction := by
  refine ⟨fun s d rest i hs hl hd hx => ?_, fun s => step_inconsistent⟩
  have hexec := exec_admitted (s := { s with inbox := rest }) (admits_of_decode hd)
  refine ⟨_, hexec, fun ht => ?_, fun ht => ?_⟩ <;> rw [step_serves hs hl hd hx, hexec, guarded_next_eq]
  · exact if_pos ht
  · exact if_neg (by simp [ht])

end Sys2Proof.Machine
end

section
/-! PROOFS. The statements of 30_encoding.md: the decoder gives back what the encoder took, what it gives is well-formed, the bits it
ignores, and the descriptors that have no step. -/

namespace Sys2Proof.Machine

/-! ## The decoder (30_encoding.md R58, R59) -/

/-- What is decoded is the row that the code names, where the configuration admits it. -/
theorem decode_eq_ok_iff {c : Cfg} {d : Desc} {i : Instr} :
    decode c d = .ok i ↔ c.decodeRow d.op d.size d.addr d.data = some i ∧ c.admits i = true := by
  unfold decode
  cases c.decodeRow d.op d.size d.addr d.data with
  | none => simp
  | some i' =>
    by_cases ha : c.admits i' = true
    · simp only [ha, if_true, Except.ok.injEq, Option.some.injEq]
      exact ⟨fun e => ⟨e, e ▸ ha⟩, And.left⟩
    · dsimp only
      rw [if_neg ha]
      exact ⟨(nomatch ·), fun ⟨e, h⟩ => absurd (Option.some.inj e ▸ h) ha⟩

theorem decode_error {c : Cfg} {d : Desc} {e : DecodeError} (h : decode c d = .error e) :
    e = .notAnOperation d.op ∨ e = .noSuchOperand d.op := by
  unfold decode at h
  split at h
  · cases h
    exact .inl rfl
  · split at h
    · cases h
    · cases h
      exact .inr rfl

theorem decode_pack_ok {c : Cfg} {op size : BitVec 8} {addr data : BitVec 64} {i : Instr}
    (hrow : c.decodeRow op size addr data = some i) (ha : c.admits i = true) : decode c (Desc.pack op size addr data) = .ok i :=
  decode_eq_ok_iff.2 ⟨by simpa using hrow, ha⟩

/-- Two descriptors of one code that name the same row decode alike. -/
theorem decode_pack_congr {c : Cfg} {op size size' : BitVec 8} {addr addr' data data' : BitVec 64}
    (h : c.decodeRow op size addr data = c.decodeRow op size' addr' data') :
    decode c (Desc.pack op size addr data) = decode c (Desc.pack op size' addr' data') := by
  rw [decode_pack, decode_pack, h]

/-! ## The rows of a code (30_encoding.md R59, R60) -/

theorem decodeRead_opcode (c : Cfg) (size : BitVec 8) (a : Addr) : (c.decodeRead size a).opcode = 0x00 := by
  unfold Cfg.decodeRead
  split <;> rfl

theorem decodeRead_fits (c : Cfg) (size : BitVec 8) (a : Addr) : (c.decodeRead size a).fits = true := by
  unfold Cfg.decodeRead
  split <;> rfl

theorem decodeWrite_opcode (c : Cfg) (size : BitVec 8) (a : Addr) (x : BitVec 64) : (c.decodeWrite size a x).opcode = 0x01 := by
  unfold Cfg.decodeWrite
  dsimp only
  split <;> rfl

theorem decodeWrite_fits (c : Cfg) (size : BitVec 8) (a : Addr) (x : BitVec 64) : (c.decodeWrite size a x).fits = true := by
  unfold Cfg.decodeWrite
  dsimp only
  split <;> rfl

/-- A row has the code that names it, and its operands, which are read from 64-bit fields, fit them. -/
theorem decodeRow_some {c : Cfg} {op size : BitVec 8} {addr data : BitVec 64} {i : Instr}
    (h : c.decodeRow op size addr data = some i) : i.opcode = op ∧ i.fits = true := by
  have hcode {m : BitVec 8} (hm : op.toNat = m.toNat) : m = op := (BitVec.eq_of_toNat_eq hm).symm
  unfold Cfg.decodeRow at h
  dsimp only at h
  split at h
  case h_1 hop => cases h; exact ⟨(decodeRead_opcode ..).trans (hcode hop), decodeRead_fits ..⟩
  case h_2 hop => cases h; exact ⟨(decodeWrite_opcode ..).trans (hcode hop), decodeWrite_fits ..⟩
  case h_23 => cases h
  all_goals
    cases h
    exact ⟨hcode ‹_›, by simp [Instr.fits, addr.isLt, data.isLt]⟩

/-- Settles O2: the code and the operands' sizes are those of the row, and the decoder checks that the configuration admits it. -/
theorem decodedIsWellFormed : Obligations.DecodedIsWellFormed := by
  intro c d i h
  obtain ⟨hrow, ha⟩ := decode_eq_ok_iff.1 h
  obtain ⟨hop, hfits⟩ := decodeRow_some hrow
  exact ⟨⟨ha, hfits⟩, hop⟩

/-! ## Codes without a step (30_encoding.md R61) -/

theorem step_issues {s : State} {d : Desc} {rest : List Desc} (hs : s.consistent = true) (hl : s.inbox = d :: rest) :
    step s = issue d { s with inbox := rest } := by
  unfold step advance
  rw [if_pos hs, hl]

theorem issue_error {s : State} {d : Desc} {e : DecodeError} (h : decode s.cfg d = .error e) :
    issue d s = .refused (refusalOf e) := by
  unfold issue
  rw [h]

theorem issue_internal {s : State} {d : Desc} {i : Instr} (h : decode s.cfg d = .ok i) (hx : i.isTransaction = false) :
    issue d s = .refused (.internalFromAgent i.opcode) := by
  unfold issue
  rw [h]
  exact if_neg (by simp [hx])

theorem isTransaction_eq_false_iff {i : Instr} :
    i.isTransaction = false ↔ i.opcode ∉ [0x00#8, 0x01, 0x10, 0x20, 0x30, 0x40, 0x50] := by
  rw [← List.contains_iff_mem, Bool.not_eq_true]
  rfl

/-- Settles O3: such a descriptor either does not decode, or decodes to an operation of the same code, which no agent may issue. -/
theorem otherCodesHaveNoStep : Obligations.OtherCodesHaveNoStep := by
  intro s d rest hs hl hop
  rw [step_issues hs hl]
  cases hd : decode s.cfg d with
  | error e =>
    rw [issue_error (s := { s with inbox := rest }) hd]
    rcases decode_error hd with rfl | rfl
    · exact .inl rfl
    · exact .inr rfl
  | ok i =>
    have hcode : i.opcode = d.op := (decodedIsWellFormed _ _ _ hd).2
    rw [issue_internal (s := { s with inbox := rest }) hd (isTransaction_eq_false_iff.2 (hcode ▸ hop)), hcode]
    exact .inr rfl

/-! ## The value of a bus access (30_encoding.md R62) -/

theorem busValue_getLsbD (n j : Nat) (x : BitVec 64) : (busValue n x).getLsbD j = (x.getLsbD j && decide (j < 8 * n)) := by
  by_cases hj : j < 64
  · unfold busValue
    split
    · have hn : j < 8 * n := by omega
      simp [hn]
    · rw [BitVec.getLsbD_and, BitVec.getLsbD_ofNat, Nat.testBit_two_pow_sub_one]
      simp [hj]
  · rw [BitVec.getLsbD_of_ge _ j (by omega), BitVec.getLsbD_of_ge x j (by omega), Bool.false_and]

/-- The value does not depend on the bits `data[63:8n]`. -/
theorem busValue_congr {n : Nat} {x x' : BitVec 64} (h : ∀ j, j < 8 * n → x.getLsbD j = x'.getLsbD j) :
    busValue n x = busValue n x' := by
  refine BitVec.eq_of_getLsbD_eq fun j _ => ?_
  rw [busValue_getLsbD, busValue_getLsbD]
  by_cases hn : j < 8 * n
  · rw [h j hn]
  · simp [hn]

/-- A value of `n` bytes comes back from the data field. -/
theorem busValue_setWidth {n : Nat} {v : Word} (h : trunc (8 * n) v = v) : (busValue n (v.setWidth 64)).setWidth 32 = v := by
  refine BitVec.eq_of_getLsbD_eq fun j hj => ?_
  have hbit : v.getLsbD j = (v.getLsbD j && decide (j < 8 * n)) := by rw [← trunc_getLsbD_any, h]
  have hj' : j < 64 := by omega
  rw [BitVec.getLsbD_setWidth, busValue_getLsbD, BitVec.getLsbD_setWidth, hbit]
  simp [hj, hj']

/-- Settles O4: a WRITE's row depends on its data through its value only, and the other rows do not read the fields they ignore. -/
theorem ignoredBitsChangeNothing : Obligations.IgnoredBitsChangeNothing := by
  intro c n n' a a' x x'
  refine ⟨decode_pack_congr rfl, fun hx => ?_, fun hx => ?_, decode_pack_congr rfl, decode_pack_congr rfl, decode_pack_congr rfl,
    decode_pack_congr rfl⟩
  · have hw : c.decodeWrite n a x = c.decodeWrite n a x' := by
      unfold Cfg.decodeWrite
      rw [busValue_congr hx]
    exact decode_pack_congr (congrArg some hw)
  · have hb : x.setWidth 8 = x'.setWidth 8 :=
      BitVec.eq_of_getLsbD_eq fun j hj => by rw [BitVec.getLsbD_setWidth, BitVec.getLsbD_setWidth, hx j hj]
    exact decode_pack_congr (congrArg (some ∘ Instr.rxByte) hb)

/-! ## The bus rows of an encoded access (30_encoding.md R63, R64) -/

theorem toNat_ofNat_of_lt {w n : Nat} (h : n < 2 ^ w) : (BitVec.ofNat w n).toNat = n :=
  (BitVec.toNat_ofNat n w).trans (Nat.mod_eq_of_lt h)

/-- A bus size fits the descriptor's size field. -/
theorem toNat_ofNat_of_busSize {n : Nat} (h : busSize n = true) : (BitVec.ofNat 8 n).toNat = n :=
  toNat_ofNat_of_lt (by
    have : n = 1 ∨ n = 2 ∨ n = 4 := by simpa using busSize_iff.1 h
    omega)

theorem some_mem_windows {c : Cfg} (h : c.hasAlias = true) (w : Window) : some w ∈ c.windows :=
  mem_windows.2 ⟨h, by cases w <;> simp⟩

/-- What makes a narrow access (20_memory.md R45). -/
structure NarrowFits (c : Cfg) (r k n : Nat) : Prop where
  size : busSize n = true
  narrower : n < c.regBytes r
  lane : k < c.regBytes r
  aligned : k % n = 0
  widened : c.translation = .widen

theorem narrowFits_iff {c : Cfg} {r k n : Nat} : c.narrowFits r k n = true ↔ NarrowFits c r k n := by
  simp only [Cfg.narrowFits, Bool.and_eq_true, decide_eq_true_eq, and_assoc]
  exact ⟨fun ⟨hs, hn, hl, ha, ht⟩ => ⟨hs, hn, hl, ha, ht⟩, fun ⟨hs, hn, hl, ha, ht⟩ => ⟨hs, hn, hl, ha, ht⟩⟩

section
variable {c : Cfg} (hv : validCfg c = true) {win : Option Window} (hw : win = none ∨ win ∈ c.windows) {r : Nat}
include hv hw

/-- The class of an encoded access to a whole register. -/
theorem classify_busAddr_exact (hb : busSize (c.regBytes r) = true) :
    c.classify (c.busAddr win r 0) (BitVec.ofNat 8 (c.regBytes r)).toNat = .exact win r := by
  obtain ⟨d, hd⟩ := reg_of_busSize hb
  have hpos : 0 < c.regBytes r := by
    have := (regBytes_of_valid hv hd).2
    omega
  rw [toNat_ofNat_of_busSize hb, classify_busAddr hv hd hw hpos, accessForm_exact _ _ _ _ hb]

/-- The class of an encoded access to some lanes of a register. -/
theorem classify_busAddr_narrow {k n : Nat} (h : NarrowFits c r k n) :
    c.classify (c.busAddr win r k) (BitVec.ofNat 8 n).toNat = .narrow win r k := by
  obtain ⟨d, hd⟩ := reg_of_lt h.lane
  rw [toNat_ofNat_of_busSize h.size, classify_busAddr hv hd hw h.lane, accessForm_narrow _ _ _ _ _ _ h.size h.narrower h.aligned h.widened]

theorem decodeRead_exact (hb : busSize (c.regBytes r) = true) :
    c.decodeRead (BitVec.ofNat 8 (c.regBytes r)) (c.busAddr win r 0) =
      match win with
      | none => .read r
      | some .set => .readSet r
      | some .clear => .readClr r
      | some .toggle => .readTgl r := by
  unfold Cfg.decodeRead
  rw [classify_busAddr_exact hv hw hb]
  rcases win with _ | _ | _ | _ <;> rfl

theorem decodeRead_narrow {k n : Nat} (h : NarrowFits c r k n) :
    c.decodeRead (BitVec.ofNat 8 n) (c.busAddr win r k) =
      match win with
      | none => .readNarrow r k n
      | some w => .readNarrowAlias w r k n := by
  unfold Cfg.decodeRead
  rw [classify_busAddr_narrow hv hw h, toNat_ofNat_of_busSize h.size]
  rcases win with _ | w <;> rfl

theorem decodeWrite_exact {v : Word} (hb : busSize (c.regBytes r) = true) (hfit : c.fitsReg r v = true) :
    c.decodeWrite (BitVec.ofNat 8 (c.regBytes r)) (c.busAddr win r 0) (v.setWidth 64) =
      match win with
      | none => .write r v
      | some .set => .writeSet r v
      | some .clear => .writeClr r v
      | some .toggle => .writeTgl r v := by
  unfold Cfg.decodeWrite
  dsimp only
  rw [classify_busAddr_exact hv hw hb, toNat_ofNat_of_busSize hb, busValue_setWidth (of_decide_eq_true hfit)]
  rcases win with _ | _ | _ | _ <;> rfl

theorem decodeWrite_narrow {k n : Nat} {x : Word} (h : NarrowFits c r k n) (hfit : trunc (8 * n) x = x) :
    c.decodeWrite (BitVec.ofNat 8 n) (c.busAddr win r k) (x.setWidth 64) =
      match win with
      | none => .writeNarrow r k n x
      | some w => .writeNarrowAlias w r k n x := by
  unfold Cfg.decodeWrite
  dsimp only
  rw [classify_busAddr_narrow hv hw h, toNat_ofNat_of_busSize h.size, busValue_setWidth hfit]
  rcases win with _ | w <;> rfl

end

theorem decodeRead_rejected {c : Cfg} {a : Addr} {n : BitVec 8} (h : c.classify a n.toNat = .rejected) :
    c.decodeRead n a = .readRejected a n := by
  unfold Cfg.decodeRead
  rw [h]

theorem decodeRead_unmapped {c : Cfg} {a : Addr} {n : BitVec 8} (h : c.classify a n.toNat = .unmapped) :
    c.decodeRead n a = .readUnmapped a n := by
  unfold Cfg.decodeRead
  rw [h]

theorem decodeWrite_rejected {c : Cfg} {a : Addr} {n : BitVec 8} {v : BitVec 64} (h : c.classify a n.toNat = .rejected)
    (hv : busValue n.toNat v = v) : c.decodeWrite n a v = .writeRejected a n v := by
  unfold Cfg.decodeWrite
  rw [h, hv]

theorem decodeWrite_unmapped {c : Cfg} {a : Addr} {n : BitVec 8} {v : BitVec 64} (h : c.classify a n.toNat = .unmapped)
    (hv : busValue n.toNat v = v) : c.decodeWrite n a v = .writeUnmapped a n v := by
  unfold Cfg.decodeWrite
  rw [h, hv]

/-! ## Decoding what was encoded (30_encoding.md R58, R62; log 6) -/

theorem decode_read {c : Cfg} {n : BitVec 8} {a : Addr} {x : BitVec 64} {i : Instr} (h : c.decodeRead n a = i)
    (ha : c.admits i = true) : decode c (Desc.pack 0x00 n a x) = .ok i :=
  decode_pack_ok (congrArg some h) ha

theorem decode_write {c : Cfg} {n : BitVec 8} {a : Addr} {x : BitVec 64} {i : Instr} (h : c.decodeWrite n a x = i)
    (ha : c.admits i = true) : decode c (Desc.pack 0x01 n a x) = .ok i :=
  decode_pack_ok (congrArg some h) ha

/-- An internal primitive comes back from its index and its number: `f` is the row of its code. -/
theorem decode_packIndex {c : Cfg} {op : BitVec 8} {j n : Nat} {i : Instr} (f : Nat → BitVec 64 → Instr)
    (hrow : ∀ a x, c.decodeRow op 0 a x = some (f a.toNat x)) (hj : j < 2 ^ 64) (hi : f j (BitVec.ofNat 64 n) = i)
    (ha : c.admits i = true) : decode c (packIndex op j n) = .ok i :=
  decode_pack_ok (by rw [hrow, toNat_ofNat_of_lt hj, hi]) ha

theorem setWidth_ofNat_toNat (b : Byte) : (BitVec.ofNat 64 b.toNat).setWidth 8 = b := by
  have := b.isLt
  bv_omega

theorem getLsbD_ofNat_toNat (b : Bool) : (BitVec.ofNat 64 b.toNat).getLsbD 0 = b := by
  cases b <;> rfl

/-- Settles O1, row by row: an access to a register is classified by the register's range, and every other operand stands in a field
that holds it. -/
theorem decodeEncodeRoundTrip : Obligations.DecodeEncodeRoundTrip := by
  rintro c i hv ⟨ha, hf⟩
  have hadm := ha
  have canon : (none : Option Window) = none ∨ none ∈ c.windows := .inl rfl
  have window {w : Window} (hal : c.hasAlias = true) : some w = none ∨ some w ∈ c.windows := .inr (some_mem_windows hal w)
  cases i <;> simp only [Cfg.admits, Instr.fits, Bool.and_eq_true, decide_eq_true_eq, narrowFits_iff] at hadm hf
  case read => exact decode_read (decodeRead_exact hv canon hadm) ha
  case readSet | readClr | readTgl =>
    obtain ⟨hb, hal⟩ := hadm
    exact decode_read (decodeRead_exact hv (window hal) hb) ha
  case readNarrow => exact decode_read (decodeRead_narrow hv canon hadm) ha
  case readNarrowAlias =>
    obtain ⟨hn, hal⟩ := hadm
    exact decode_read (decodeRead_narrow hv (window hal) hn) ha
  case readRejected => exact decode_read (decodeRead_rejected hadm) ha
  case readUnmapped => exact decode_read (decodeRead_unmapped hadm) ha
  case write =>
    obtain ⟨hb, hfit⟩ := hadm
    exact decode_write (decodeWrite_exact hv canon hb hfit) ha
  case writeSet | writeClr | writeTgl =>
    obtain ⟨⟨hb, hal⟩, hfit⟩ := hadm
    exact decode_write (decodeWrite_exact hv (window hal) hb hfit) ha
  case writeNarrow =>
    obtain ⟨hn, hfit⟩ := hadm
    exact decode_write (decodeWrite_narrow hv canon hn hfit) ha
  case writeNarrowAlias =>
    obtain ⟨⟨hn, hal⟩, hfit⟩ := hadm
    exact decode_write (decodeWrite_narrow hv (window hal) hn hfit) ha
  case writeRejected => exact decode_write (decodeWrite_rejected hadm.1 hadm.2) ha
  case writeUnmapped => exact decode_write (decodeWrite_unmapped hadm.1 hadm.2) ha
  case rxByte b => exact decode_pack_ok (congrArg (some ∘ Instr.rxByte) (BitVec.setWidth_setWidth_of_le b (by decide))) ha
  case flush | reset | timerFire | signalSample | recompute | txDrain => exact decode_pack_ok rfl ha
  case fifoPush q b =>
    exact decode_packIndex (fun j x => .fifoPush j (x.setWidth 8)) (fun _ _ => rfl) hf (congrArg _ (setWidth_ofNat_toNat b)) ha
  case fifoPop => exact decode_packIndex (fun j _ => .fifoPop j) (fun _ _ => rfl) hf rfl ha
  case fifoFlush => exact decode_packIndex (fun j _ => .fifoFlush j) (fun _ _ => rfl) hf rfl ha
  case fifoSetCapacity =>
    exact decode_packIndex (fun j x => .fifoSetCapacity j x.toNat) (fun _ _ => rfl) hf.1
      (congrArg _ (toNat_ofNat_of_lt hf.2)) ha
  case fifoSetWatermark =>
    exact decode_packIndex (fun j x => .fifoSetWatermark j x.toNat) (fun _ _ => rfl) hf.1
      (congrArg _ (toNat_ofNat_of_lt hf.2)) ha
  case irqSet b =>
    exact decode_packIndex (fun j x => .irqSet j (x.getLsbD 0)) (fun _ _ => rfl) hf (congrArg _ (getLsbD_ofNat_toNat b)) ha
  case irqSetEnabled b =>
    exact decode_packIndex (fun j x => .irqSetEnabled j (x.getLsbD 0)) (fun _ _ => rfl) hf (congrArg _ (getLsbD_ofNat_toNat b)) ha
  case irqIsPending => exact decode_packIndex (fun j _ => .irqIsPending j) (fun _ _ => rfl) hf rfl ha
  case irqLevel => exact decode_packIndex (fun j _ => .irqLevel j) (fun _ _ => rfl) hf rfl ha
  case txByte b => exact decode_pack_ok (congrArg (some ∘ Instr.txByte) (setWidth_ofNat_toNat b)) ha
  case txEnable b => exact decode_pack_ok (congrArg (some ∘ Instr.txEnable) (getLsbD_ofNat_toNat b)) ha
  case timerArm => exact decode_packIndex (fun j _ => .timerArm j) (fun _ _ => rfl) hf rfl ha
  case timerCancel => exact decode_packIndex (fun j _ => .timerCancel j) (fun _ _ => rfl) hf rfl ha

/-- Settles O6: each word is the descriptor that the encoder makes of its operation. -/
theorem wordsFromTheSpecDecode : Obligations.WordsFromTheSpecDecode := by
  have hdecode {i : Instr} (d : Desc) (hi : i.WellFormed Cfg.ref) (he : encode Cfg.ref i = d) : decode Cfg.ref d = .ok i :=
    he ▸ decodeEncodeRoundTrip _ _ validCfg_ref hi
  exact ⟨hdecode _ (by decide) rfl, hdecode _ (by decide) rfl, hdecode _ (by decide) rfl, hdecode _ (by decide) rfl,
    hdecode _ (by decide) rfl⟩

end Sys2Proof.Machine
end

section
/-! PROOFS. The statements of 40_register_file.md: what a register shows, READs and WRITEs of a register and through its windows, and the
values that a write gives its fields. -/

namespace Sys2Proof.Machine

/-! ## READ through a window (40_register_file.md R92) -/

/-- An operation that only emits a diagnostic leaves the block to recompute (41_interrupts.md R109). -/
theorem completes_diag_recomputed {i : Instr} {s : State} {d : Diag} {res : Result} (ha : s.cfg.admits i = true)
    (hb : bodyOf i s.start = (recompute (s.start.diag d)).returning res) :
    Completes i s (Block.recomputed s.cfg s.blk) res [] :=
  completes_of_body ha hb rfl rfl

/-- Settles O26: the body of each window READ emits a diagnostic, recomputes, and returns what `peek` shows. -/
theorem windowReadHasNoSideEffect : Obligations.WindowReadHasNoSideEffect := by
  intro s w r k n
  exact ⟨fun ha => completes_diag_recomputed ha rfl, fun ha => completes_diag_recomputed ha rfl,
    fun ha => completes_diag_recomputed ha rfl, fun ha => completes_diag_recomputed ha rfl⟩

/-! ## The composed value (R75, R78, R79) -/

theorem trunc_toNat (wid : Nat) (v : Word) : (trunc wid v).toNat = v.toNat % 2 ^ wid := by
  apply Nat.eq_of_testBit_eq
  intro j
  rw [BitVec.testBit_toNat, trunc_getLsbD_any, Nat.testBit_mod_two_pow, BitVec.testBit_toNat, Bool.and_comm]

/-- A field shows its binding's value at its width, or 0 where it reads as Zero (R78). -/
theorem slice_peekReg {c : Cfg} (hv : validCfg c = true) (b : Block) {r : Nat} {f : FieldDesc} (hf : f ∈ fieldsOf c r) :
    slice (peekReg c b r) f.off f.wid = if readBeh c f = .zero then 0 else trunc f.wid (bindPeek c b r f) := by
  rw [peekReg_eq, insertAll_slice _ _ _ (laid_fieldsOf hv r) f hf, shownValue]
  split
  · exact trunc_zero _
  · exact trunc_trunc _ _

theorem peekReg_reserved {c : Cfg} (hv : validCfg c = true) (b : Block) (r : Nat) {j : Nat}
    (hj : ∀ f ∈ fieldsOf c r, ¬ FieldDesc.hits f j) : (peekReg c b r).getLsbD j = (b.reg.getD r 0).getLsbD j := by
  have hw : ∀ f ∈ fieldsOf c r, f.wid ≤ 32 := fun f hf => by have := (laid_fieldsOf hv r).inside f hf; omega
  rw [peekReg_eq, insertAll_outside _ _ _ hw j hj]

theorem trunc_one_ofBit (v : Bool) : trunc 1 (ofBit v) = if v = true then 1 else 0 := by
  cases v <;> rfl

theorem trunc_one_ofBit_getD (l : List Bool) (i : Nat) : trunc 1 (ofBit (l.getD i false)) = if l[i]? = some true then 1 else 0 := by
  rw [trunc_one_ofBit, List.getD_eq_getElem?_getD]
  rcases l[i]? with _ | v
  · rfl
  · cases v <;> rfl

/-- A number of a FIFO, cut to a field's width (R75). -/
theorem trunc_fifoNumber {b : Block} {q : Nat} {F : Fifo} (hF : b.fifo[q]? = some F) (g : Fifo → Nat) {wid : Nat} (hw : wid ≤ 32) :
    (trunc wid (fifoNumber b q g)).toNat = g F % 2 ^ wid := by
  have hn : fifoNumber b q g = BitVec.ofNat 32 (g F) := by simp only [fifoNumber, hF]
  rw [hn, trunc_toNat, BitVec.toNat_ofNat, Nat.mod_mod_of_dvd _ (Nat.pow_dvd_pow 2 hw)]

/-- The FIFO predicate that a block shows is the table of 41_interrupts.md R108. -/
theorem fifoPred_iff {b : Block} {q : Nat} {F : Fifo} (hF : b.fifo[q]? = some F) (p : FifoPred) :
    b.fifoPred q p = true ↔ F.shows p := by
  simp only [Block.fifoPred, hF]
  cases p <;> simp [Fifo.pred, Fifo.shows]

theorem trunc_one_fifoPred {b : Block} {q : Nat} {F : Fifo} (hF : b.fifo[q]? = some F) (p : FifoPred) :
    let x := trunc 1 (ofBit (b.fifoPred q p))
    (x = 0 ∨ x = 1) ∧ (x = 1 ↔ F.shows p) := by
  rw [← fifoPred_iff hF, trunc_one_ofBit]
  cases b.fifoPred q p <;> decide

theorem inFifoMode_eq {b : Block} {q : Nat} {F : Fifo} (hF : b.fifo[q]? = some F) : inFifoMode b q = decide (1 < F.cap) := by
  simp only [inFifoMode, hF]

theorem trunc_setWidth_toNat (wid : Nat) (x : Byte) : (trunc wid (x.setWidth 32)).toNat = x.toNat % 2 ^ wid := by
  rw [trunc_toNat, BitVec.toNat_setWidth_of_le (by decide)]

theorem uartPeek_of_items {c : Cfg} {b : Block} {q : Nat} {F : Fifo} {y : Byte} {l : List Byte} (hF : b.fifo[q]? = some F)
    (hi : F.items = y :: l) : uartPeek c b (some q) = y.setWidth 32 := by
  simp only [uartPeek, hF, hi]

theorem uartPeek_of_empty {c : Cfg} {b : Block} {q : Nat} {F : Fifo} (hF : b.fifo[q]? = some F)
    (hi : F.items = []) : uartPeek c b (some q) = (dummyOf c q).setWidth 32 := by
  simp only [uartPeek, hF, hi]

theorem dummyOf_eq {c : Cfg} {q : Nat} {D : FifoDesc} (hD : c.fifos[q]? = some D) : dummyOf c q = D.dummy := by
  simp only [dummyOf, hD]

/-- Settles O22: each part of the composed value is a part of `insertAll`; a flag's field is one bit wide in a valid configuration. -/
theorem composedValueByParts : Obligations.ComposedValueByParts := by
  intro c b r d hv hd
  have hfs := fieldsOf_of hd
  have hslice : ∀ f ∈ d.fields, slice (peekReg c b r) f.off f.wid = if readBeh c f = .zero then 0 else trunc f.wid (bindPeek c b r f) :=
    fun f hf => slice_peekReg hv b (hfs.symm ▸ hf)
  have hshown : ∀ f ∈ d.fields, readBeh c f ≠ .zero → slice (peekReg c b r) f.off f.wid = trunc f.wid (bindPeek c b r f) :=
    fun f hf hz => by rw [hslice f hf, if_neg hz]
  refine ⟨fun j hj => peekReg_reserved hv b r (hfs.symm ▸ hj), fun f hf hz => by rw [hslice f hf, if_pos hz], hshown, fun f hf hz => ?_,
    fun f hf n hn => ?_⟩
  · have hal := (bindingAllowed_iff c f).1 (bindingAllowed_of_valid hv (hfs.symm ▸ hf))
    have hw : f.wid ≤ 32 := by have := (laid_of_valid hv (List.mem_of_getElem? hd)).1.inside f hf; omega
    rw [hshown f hf hz]
    unfold FieldAllowed at hal
    unfold bindPeek
    rcases hb : f.bind with _ | i | i | i | ⟨_ | q, qt⟩ | q | ⟨q, p⟩ | q | q | q | _ | _ | _ | t | t | ⟨pk, rd, ap⟩ <;> rw [hb] at hal <;>
      dsimp only at hal ⊢
    case stored => exact trunc_trunc _ _
    case irqPending | irqEnable | irqMaskMirror => all_goals rw [hal.1]; exact trunc_one_ofBit_getD _ i
    case uartData.none => exact trunc_zero _
    case uartData.some =>
      intro F D hF hD
      refine ⟨fun y l hi => ?_, fun hi => ?_⟩
      · rw [uartPeek_of_items hF hi, trunc_setWidth_toNat]
      · rw [uartPeek_of_empty hF hi, trunc_setWidth_toNat, dummyOf_eq hD]
    case fifoCount | fifoWatermark => all_goals exact fun F hF => trunc_fifoNumber hF _ hw
    case fifoFlag => rw [hal.1]; exact fun F hF => trunc_one_fifoPred hF p
    case fifoMode =>
      intro F hF
      rw [hal.1, trunc_one_ofBit, inFifoMode_eq hF]
      simp only [decide_eq_true_eq]
    case fifoFlush | timerStart | timerStop => all_goals exact trunc_zero _
    case rxEnable | txEnable | loopback => all_goals rw [hal.1]; exact trunc_one_ofBit _
  · have hp : bindPeek c b r f = 0 := by
      unfold bindPeek
      rcases hn with hn | hn | hn | hn <;> simp only [hn, uartPeek]
    rw [hslice f hf, hp, trunc_zero, ite_self]

/-! ## Canonical READs (R80, R81, R83, R85, R93) -/

/-- Where a register asks for custom functions to be those of a constructed block, a field with one does. -/
theorem inv_of_custom {s : State} {r : Nat} (h : standardReg s.cfg r = true ∨ Inv s) {f : FieldDesc} (hf : f ∈ fieldsOf s.cfg r)
    {a b d : Nat} (hb : f.bind = .custom a b d) : Inv s :=
  h.resolve_left fun hst => (standard_field hst hf).2 a b d hb

/-- A masked read is its relations in turn: the fields read, the clears, `post_read` (R80, R83). -/
theorem tracks_readMasked {s : State} {r : Nat} (be : Word) (hv : validCfg s.cfg = true) (h : standardReg s.cfg r = true ∨ Inv s) :
    ∃ s1 o1 s2 o2 s3 o3,
      FieldsRead r be (fieldsOf s.cfg r) s (s.blk.reg.getD r 0) s1 (readMasked r be s.start).2 o1 ∧
      InTurn (ClearDone r be) (fieldsOf s.cfg r) s1 s2 o2 ∧
      PostDone r ((s.cfg.regs[r]?).bind (·.postRead)) s2 s3 o3 ∧
      Alike s3 (readMasked r be s.start).1 ∧ outputs (readMasked r be s.start).1.trace = o1 ++ (o2 ++ o3) := by
  have hcu : ∀ f ∈ fieldsOf s.cfg r, ∀ a b d, f.bind = .custom a b d → Inv s := fun f hf a b d => inv_of_custom h hf
  have hpost : (s.cfg.regs[r]?).bind (·.postRead) ≠ none → Inv s := fun hne => h.resolve_left fun hst => hne (standard_post hst).1
  obtain ⟨s1, o1, h1, a1, t1⟩ := tracks_fields hv be _ (fun _ hf => hf) hcu s s.start (s.blk.reg.getD r 0) (Alike.start s) (held_start s)
  have k1 : Held s.cfg (Inv s) (readLoop r be s.start).1 := (held_start s).keeps (keepsAll_readLoop r be s.start).toKeeps
  have hclear : ∀ f ∈ fieldsOf s.cfg r, ∀ u, Held s.cfg (Inv s) u → Held s.cfg (Inv s) (clearField r be u f) := by
    intro f hf u hu
    unfold clearField
    split
    · exact hu.keeps (keeps_bindApply r f 0 u (hu.cfg.symm ▸ hf))
    · exact hu
  obtain ⟨s2, o2, h2, a2, t2⟩ := tracks_inTurn (fieldsOf s.cfg r) (fun f hf => tracks_clear hv be hf (hcu f hf)) hclear s1 _ a1 k1
  have k2 := k1.foldl (clearField r be) (fieldsOf s.cfg r) hclear
  obtain ⟨s3, o3, h3, a3, t3⟩ := tracks_post r _ hpost s2 _ a2 k2
  refine ⟨s1, o1, s2, o2, s3, o3, h1, h2, h3, a3, t3.trans ?_⟩
  rw [t2, t1, List.append_assoc]
  rfl

/-- The outcome of a canonical READ, from the masked read. -/
theorem completes_read {i : Instr} {s : State} {r : Nat} {be : Word} (ha : s.cfg.admits i = true) (hp : readParts s.cfg i = some (r, be)) :
    Completes i s (Block.recomputed s.cfg (readMasked r be s.start).1.blk) (readValue s.cfg i (readMasked r be s.start).2)
      (outputs (readMasked r be s.start).1.trace) := by
  have hk := keepsAll_readMasked r be s.start
  have hcfg : (readMasked r be s.start).1.cfg = s.cfg := hk.cfg
  have hc := completes_of_body ha (bodyOf_of_readParts (s := s.start) hp) hcfg hk.inbox
  rw [State.returning_blk, recompute_blk, hcfg] at hc
  exact hc

/-- Settles O23: a masked read does what the three relations say in turn; without read actions it has the closed form `readMasked_idle`. -/
theorem readComposesThenClears : Obligations.ReadComposesThenClears := by
  intro i s r be hv ha hp
  have hc := completes_read ha hp
  refine ⟨fun h => ?_, fun hidle hpost => ?_⟩
  · obtain ⟨s1, o1, s2, o2, s3, o3, h1, h2, h3, a3, t3⟩ := tracks_readMasked be hv h
    rw [a3.blk, t3] at hc
    exact ⟨s1, _, o1, s2, o2, s3, o3, h1, h2, h3, hc⟩
  · rw [readMasked_idle r be s.start hv hidle hpost] at hc
    exact hc

/-! ### A READ that pops (R80, R81, R165, R166) -/

/-- A data field that shows an rx FIFO is read as it stands (R75). -/
theorem readBeh_of_uartData {c : Cfg} (hv : validCfg c = true) {r : Nat} {f : FieldDesc} (hf : f ∈ fieldsOf c r) {q : Nat} {qt : Option Nat}
    (hb : f.bind = .uartData (some q) qt) : readBeh c f = .read := by
  have hal := (bindingAllowed_iff c f).1 (bindingAllowed_of_valid hv hf)
  unfold FieldAllowed at hal
  rw [hb] at hal
  obtain ⟨-, -, -, -, hm⟩ := hal
  unfold readBeh
  rw [hb]
  cases qt <;> (rw [hm]; rfl)

/-- Such a field shows the byte that the pop gives (R75, 42_fifo.md R117). -/
theorem uartPeek_eq_popByte {c : Cfg} {b : Block} {q : Nat} {x : Fifo} (hx : b.fifo[q]? = some x) :
    uartPeek c b (some q) = (popByte c q x).setWidth 32 := by
  unfold popByte
  rcases hi : x.items with _ | ⟨y, l⟩
  · exact uartPeek_of_empty hx hi
  · exact uartPeek_of_items hx hi

/-- The read of such a field takes the byte and pops the FIFO (R80). -/
theorem readField_pop {r : Nat} {be : Word} {s : State} {f : FieldDesc} {q : Nat} {qt : Option Nat} {x : Fifo} (acc : Word)
    (hr : readBeh s.cfg f = .read) (hb : f.bind = .uartData (some q) qt) (ht : touched be f = true) (hx : s.blk.fifo[q]? = some x) :
    readField r be (s, acc) f = (fifoPop q s, insertField acc f.off f.wid ((popByte s.cfg q x).setWidth 32)) := by
  have hread : bindRead r f s = fifoPop q s := by
    unfold bindRead
    rw [hb]
  have hval : fieldValue s.cfg s.blk r f = trunc f.wid ((popByte s.cfg q x).setWidth 32) := by
    unfold fieldValue bindPeek
    rw [hb, ← uartPeek_eq_popByte hx]
  unfold readField
  dsimp only
  rw [if_neg (by rw [hr]; decide), if_pos ht, hread, hval, insertField_trunc]

/-- A ReadToClear field without a read action is a stored or a pending field (R75, R81). -/
theorem readToClear_idle {c : Cfg} (hv : validCfg c = true) {r : Nat} {f : FieldDesc} (hf : f ∈ fieldsOf c r)
    (h : idleOnRead c f = true) (hr : readBeh c f = .readToClear) : f.bind = .stored ∨ ∃ i, f.bind = .irqPending i := by
  rcases readToClear_binding hv hf hr with hb | hb | ⟨a, b, d, hb⟩
  · exact .inl hb
  · exact .inr hb
  · simp [idleOnRead, hr, readAction, hb] at h

/-- A masked read whose only read action is the pop of one data field (R80, R81). -/
theorem readMasked_pop {r : Nat} {be : Word} {s : State} {l l' : List FieldDesc} {f : FieldDesc} {q : Nat} {qt : Option Nat} {x : Fifo}
    (hv : validCfg s.cfg = true) (hl : fieldsOf s.cfg r = l ++ f :: l') (hb : f.bind = .uartData (some q) qt)
    (ht : touched be f = true) (hidle : ∀ g ∈ l ++ l', touched be g = true → idleOnRead s.cfg g = true)
    (hpost : ∀ d, s.cfg.regs[r]? = some d → d.postRead = none) (hx : s.blk.fifo[q]? = some x) :
    readMasked r be s =
      ({ fifoPop q s with blk := Block.readCleared s.cfg (popBlock s.cfg s.blk q x) r be },
        composeFrom s.cfg (popBlock s.cfg s.blk q x) r
          (insertField (composeFrom s.cfg s.blk r (s.blk.reg.getD r 0) l) f.off f.wid ((popByte s.cfg q x).setWidth 32)) l') := by
  have hf : f ∈ fieldsOf s.cfg r := by simp [hl]
  have hr := readBeh_of_uartData hv hf hb
  have hcfg : (fifoPop q s).cfg = s.cfg := (keeps_fifoPop q s).cfg
  have hblk : (fifoPop q s).blk = popBlock s.cfg s.blk q x := (fifoPop_eq q s x hx).1
  have hloop : readLoop r be s = (fifoPop q s, composeFrom s.cfg (popBlock s.cfg s.blk q x) r
      (insertField (composeFrom s.cfg s.blk r (s.blk.reg.getD r 0) l) f.off f.wid ((popByte s.cfg q x).setWidth 32)) l') := by
    unfold readLoop
    rw [hl, List.foldl_append, readFields_idle r be s _ l fun g hg => hidle g (List.mem_append_left _ hg), List.foldl_cons,
      readField_pop _ hr hb ht hx,
      readFields_idle r be _ _ l' fun g hg => hcfg.symm ▸ hidle g (List.mem_append_right _ hg), hcfg, hblk]
    rfl
  have hclear : ∀ g ∈ fieldsOf s.cfg r, readBeh s.cfg g = .readToClear → touched be g = true →
      g.bind = .stored ∨ ∃ i, g.bind = .irqPending i := by
    intro g hg hgr hgt
    have hne : g ≠ f := by
      rintro rfl
      rw [hr] at hgr
      cases hgr
    have hmem : g ∈ l ++ l' := by
      rw [hl] at hg
      simpa [hne] using hg
    exact readToClear_idle hv hg (hidle g hmem hgt) hgr
  unfold readMasked
  dsimp only
  rw [hloop]
  dsimp only
  rw [clearFields_eq s.cfg r be _ (fifoPop q s) hcfg hclear, Option.bind_eq_none_iff.2 hpost, hblk]
  rfl

/-- Settles O25: the fields before the data field are read before its pop, the fields after it and all clears after. -/
theorem readOfDataFieldPops : Obligations.ReadOfDataFieldPops := by
  intro i s r be l l' f q qt x hv ha hp hl hb ht hidle hpost hx
  have hc := completes_read ha hp
  rw [readMasked_pop (s := s.start) hv hl hb ht hidle hpost hx] at hc
  have ho : outputs (fifoPop q s.start).trace = popEvents q x := (fifoPop_eq q s.start x hx).2
  rw [ho] at hc
  exact hc

/-! ## New values of written fields (R72, R73, R74, R82; 41_interrupts.md R98) -/

theorem newValue_write_getLsbD (old x be : Word) (j : Nat) :
    (newValue .write old x be).getLsbD j = if be.getLsbD j then x.getLsbD j else old.getLsbD j := by
  by_cases hj : j < 32
  · simp only [newValue, BitVec.getLsbD_or, BitVec.getLsbD_and, BitVec.getLsbD_not, hj, decide_true, Bool.true_and]
    cases be.getLsbD j <;> simp
  · rw [BitVec.getLsbD_of_ge _ j (by omega), BitVec.getLsbD_of_ge x j (by omega), BitVec.getLsbD_of_ge old j (by omega), ite_self]

theorem newValue_w1c_getLsbD (old x be : Word) (j : Nat) :
    (newValue .w1c old x be).getLsbD j = (old.getLsbD j && !(x.getLsbD j && be.getLsbD j)) := by
  by_cases hj : j < 32
  · simp [newValue, hj]
  · rw [BitVec.getLsbD_of_ge _ j (by omega), BitVec.getLsbD_of_ge old j (by omega), Bool.false_and]

theorem newValue_w1s_getLsbD (old x be : Word) (j : Nat) :
    (newValue .w1s old x be).getLsbD j = (old.getLsbD j || (x.getLsbD j && be.getLsbD j)) := by
  simp [newValue]

/-- A bit that neither the old nor the written value has is not in the new one. -/
theorem newValue_getLsbD_of_clear (wb : WriteBeh) {old x : Word} (be : Word) {j : Nat} (ho : old.getLsbD j = false)
    (hx : x.getLsbD j = false) : (newValue wb old x be).getLsbD j = false := by
  cases wb with
  | none => exact ho
  | write => rw [newValue_write_getLsbD, hx, ho, ite_self]
  | w1c => rw [newValue_w1c_getLsbD, ho, Bool.false_and]
  | w1s => rw [newValue_w1s_getLsbD, ho, hx, Bool.false_and, Bool.false_or]

/-- A field that is not bound to a pending flag behaves as its mode says (R72). -/
theorem behaviours_of_mode (c : Cfg) {f : FieldDesc} (h : ∀ i, f.bind ≠ .irqPending i) :
    readBeh c f = modeRead f.mode ∧ writeBeh c f = modeWrite f.mode := by
  unfold readBeh writeBeh
  rcases hb : f.bind
  case irqPending i => exact absurd hb (h i)
  all_goals exact ⟨rfl, rfl⟩

/-- A pending field behaves as its source's effective policy says (R73). -/
theorem behaviours_of_pending (c : Cfg) {f : FieldDesc} {i : Nat} (h : f.bind = .irqPending i) :
    readBeh c f = policyRead (eff c i) ∧ writeBeh c f = policyWrite (eff c i) := by
  unfold readBeh writeBeh
  rw [h]
  exact ⟨rfl, rfl⟩

theorem eff_of_autoClear {c : Cfg} {i : Nat} {d : SourceDesc} (hd : c.sources[i]? = some d) (h : d.clear = .autoClear) :
    eff c i = .autoClear := by
  simp only [eff, hd, h, if_true]

theorem eff_of_unbound {c : Cfg} {i : Nat} {d : SourceDesc} (hd : c.sources[i]? = some d) (h : d.clear ≠ .autoClear)
    (hs : statusRegOf c i = none) : eff c i = d.clear := by
  simp only [eff, hd, h, hs, if_false]

theorem eff_of_status {c : Cfg} {i : Nat} {d : SourceDesc} {r : RegDesc} (hd : c.sources[i]? = some d) (h : d.clear ≠ .autoClear)
    (hs : statusRegOf c i = some r) : eff c i = policyOf d.clear r.statusClear := by
  simp only [eff, hd, h, hs, if_false]

theorem statusRegOf_eq_none {c : Cfg} {i : Nat} (h : ∀ r ∈ c.regs, ∀ f ∈ r.fields, f.bind ≠ .irqPending i) : statusRegOf c i = none := by
  refine List.find?_eq_none.2 fun r hr => ?_
  simpa using h r hr

theorem statusRegOf_some {c : Cfg} {i : Nat} {r : RegDesc} (h : statusRegOf c i = some r) :
    r ∈ c.regs ∧ ∃ f ∈ r.fields, f.bind = .irqPending i := by
  unfold statusRegOf at h
  have hany := List.find?_some h
  simp only [List.any_eq_true, decide_eq_true_eq] at hany
  exact ⟨List.mem_of_find?_eq_some h, hany⟩

theorem mem_pendingOf {r : RegDesc} {f : FieldDesc} {i : Nat} (hf : f ∈ r.fields) (hb : f.bind = .irqPending i) :
    i ∈ r.fields.filterMap pendingOf :=
  List.mem_filterMap.2 ⟨f, hf, by simp only [pendingOf, hb]⟩

/-- In a valid configuration the register of a pending field is the one that `eff` looks up: no source has two such fields (R155). -/
theorem statusRegOf_of_mem {c : Cfg} (hv : validCfg c = true) {r : RegDesc} (hr : r ∈ c.regs) {f : FieldDesc} (hf : f ∈ r.fields) {i : Nat}
    (hb : f.bind = .irqPending i) : statusRegOf c i = some r := by
  rcases hs : statusRegOf c i with _ | r'
  · have hnone := List.find?_eq_none.1 hs r hr
    exact absurd (List.any_eq_true.2 ⟨f, hf, decide_eq_true hb⟩) hnone
  · obtain ⟨hr', g, hg, hgb⟩ := statusRegOf_some hs
    have hcheck := (checked_of_valid hv).bindings
    simp only [checkBindings, Bool.and_eq_true, decide_eq_true_eq] at hcheck
    have hpw := (List.nodup_flatMap.1 hcheck.2).2
    rcases disjoint_of_pairwise (fun _ _ h => h.symm) hpw hr' hr with rfl | hdis
    · rfl
    · exact absurd (mem_pendingOf hf hb) (hdis (mem_pendingOf hg hgb))

/-- The fields that a write reaches, in declaration order (R82). -/
theorem fieldWrites_fields (c : Cfg) (b : Block) (r : Nat) (v be : Word) :
    (fieldWrites c b r v be).map (·.1) =
      (fieldsOf c r).filter (fun f => decide (writeBeh c f ≠ .none) && decide (slice be f.off f.wid ≠ 0)) := by
  unfold fieldWrites
  rw [List.map_map]
  exact List.map_id _

/-- A field that a write reaches, with its value before the write and the new one (R82). -/
theorem fieldWrites_values {c : Cfg} {b : Block} {r : Nat} {v be : Word} {w : FieldWrite} (h : w ∈ fieldWrites c b r v be) :
    w.2.1 = trunc w.1.wid (bindPeek c b r w.1) ∧
      w.2.2 = newValue (writeBeh c w.1) w.2.1 (slice v w.1.off w.1.wid) (slice be w.1.off w.1.wid) := by
  obtain ⟨f, -, rfl⟩ := List.mem_map.1 h
  exact ⟨rfl, rfl⟩

/-- A new value of a field has no bit above the field's width. -/
theorem fieldWrites_above {c : Cfg} {b : Block} {r : Nat} {v be : Word} {w : FieldWrite} (h : w ∈ fieldWrites c b r v be) {j : Nat}
    (hj : w.1.wid ≤ j) : w.2.2.getLsbD j = false := by
  obtain ⟨hold, hnew⟩ := fieldWrites_values h
  have hlt : decide (j < w.1.wid) = false := decide_eq_false (by omega)
  rw [hnew]
  refine newValue_getLsbD_of_clear _ _ ?_ ?_
  · rw [hold, trunc_getLsbD_any, hlt, Bool.and_false]
  · rw [slice_getLsbD_any, hlt, Bool.and_false]

/-- A bit of a field's new value, from the written word and its byte enables (R74). -/
theorem fieldWrites_bit {c : Cfg} {b : Block} {r : Nat} {v be : Word} {w : FieldWrite} (h : w ∈ fieldWrites c b r v be) {j : Nat}
    (hj : j < w.1.wid) :
    let x := v.getLsbD (w.1.off + j)
    let e := be.getLsbD (w.1.off + j)
    (writeBeh c w.1 = .write → w.2.2.getLsbD j = if e then x else w.2.1.getLsbD j) ∧
      (writeBeh c w.1 = .w1c → w.2.2.getLsbD j = (w.2.1.getLsbD j && !(x && e))) ∧
      (writeBeh c w.1 = .w1s → w.2.2.getLsbD j = (w.2.1.getLsbD j || (x && e))) := by
  have hnew := (fieldWrites_values h).2
  have hslice (u : Word) : (slice u w.1.off w.1.wid).getLsbD j = u.getLsbD (w.1.off + j) := by
    rw [slice_getLsbD_any, decide_eq_true hj, Bool.and_true]
  refine ⟨fun hw => ?_, fun hw => ?_, fun hw => ?_⟩ <;> rw [hnew, hw]
  · rw [newValue_write_getLsbD, hslice, hslice]
  · rw [newValue_w1c_getLsbD, hslice, hslice]
  · rw [newValue_w1s_getLsbD, hslice, hslice]

/-- Settles O28: the tables of R72 and R73 give the behaviours, and the one register that binds a source gives its effective policy. -/
theorem newValueBitByBit : Obligations.NewValueBitByBit := by
  refine ⟨fun old x be j => ⟨newValue_write_getLsbD old x be j, newValue_w1c_getLsbD old x be j, newValue_w1s_getLsbD old x be j⟩,
    fun c f hf => ?_, fun c f i hf => ?_, fun c i d hv hd => ⟨eff_of_autoClear hd, fun hne hun => ?_, fun hne r hr f hf hb => ?_⟩,
    fun c b r v be => ⟨fieldWrites_fields c b r v be, fun w hw => ⟨(fieldWrites_values hw).1, fun d hv _ hz => ?_, fun j => fieldWrites_bit hw,
      fun j => fieldWrites_above hw⟩⟩⟩
  · obtain ⟨hr, hw⟩ := behaviours_of_mode c hf
    rw [hr, hw]
    cases f.mode <;> decide
  · obtain ⟨hr, hw⟩ := behaviours_of_pending c hf
    rw [hr, hw]
    cases eff c i <;> decide
  · exact eff_of_unbound hd hne (statusRegOf_eq_none hun)
  · rw [eff_of_status hd hne (statusRegOf_of_mem hv hr hf hb)]
    cases r.statusClear <;> simp [policyOf]
  · rw [(fieldWrites_values hw).1, slice_peekReg hv b (mem_fieldWrites hw), if_neg hz]

/-! ## WRITEs (R82, R83, R86 to R90, R94, R95) -/

/-- Field writes are their relations in turn: the applies, the effects, `post_write` (R82, R83). -/
theorem tracks_writes {s : State} {r : Nat} (ws : List FieldWrite) (hv : validCfg s.cfg = true) (h : standardReg s.cfg r = true ∨ Inv s)
    (hfield : ∀ w ∈ ws, w.1 ∈ fieldsOf s.cfg r) :
    ∃ s1 o1 s2 o2 s3 o3,
      InTurn (ApplyDone r) ws s s1 o1 ∧
      InTurn (EffectDone r) ws s1 s2 o2 ∧
      PostDone r ((s.cfg.regs[r]?).bind (·.postWrite)) s2 s3 o3 ∧
      Alike s3 (runPost r ((s.cfg.regs[r]?).bind (·.postWrite)) (ws.foldl (effectWrite r) (ws.foldl (applyWrite r) s.start))) ∧
      outputs (runPost r ((s.cfg.regs[r]?).bind (·.postWrite)) (ws.foldl (effectWrite r) (ws.foldl (applyWrite r) s.start))).trace =
        o1 ++ (o2 ++ o3) := by
  have hcu : ∀ w ∈ ws, ∀ a b d, w.1.bind = .custom a b d → Inv s := fun w hw a b d => inv_of_custom h (hfield w hw)
  have heff : ∀ w ∈ ws, w.1.effect ≠ none → Inv s := fun w hw hne => h.resolve_left fun hst => hne (standard_field hst (hfield w hw)).1
  have hpost : (s.cfg.regs[r]?).bind (·.postWrite) ≠ none → Inv s := fun hne => h.resolve_left fun hst => hne (standard_post hst).2
  have happly : ∀ w ∈ ws, ∀ u, Held s.cfg (Inv s) u → Held s.cfg (Inv s) (applyWrite r u w) :=
    fun w hw u hu => hu.keeps (keeps_bindApply r w.1 w.2.2 u (hu.cfg.symm ▸ hfield w hw))
  have heffect : ∀ w ∈ ws, ∀ u, Held s.cfg (Inv s) u → Held s.cfg (Inv s) (effectWrite r u w) := by
    intro w _ u hu
    unfold effectWrite
    split
    · exact hu
    · exact hu.keeps (keeps_runActs r _ u)
  have k1 := (held_start s).foldl (applyWrite r) ws happly
  have k2 := k1.foldl (effectWrite r) ws heffect
  obtain ⟨s1, o1, h1, a1, t1⟩ := tracks_inTurn ws (fun w hw => tracks_apply hv (hfield w hw) (hcu w hw)) happly s s.start
    (Alike.start s) (held_start s)
  obtain ⟨s2, o2, h2, a2, t2⟩ := tracks_inTurn ws (fun w hw => tracks_effect r w (heff w hw)) heffect s1 _ a1 k1
  obtain ⟨s3, o3, h3, a3, t3⟩ := tracks_post r _ hpost s2 _ a2 k2
  refine ⟨s1, o1, s2, o2, s3, o3, h1, h2, h3, a3, t3.trans ?_⟩
  rw [t2, t1, List.append_assoc]
  rfl

/-- The outcome of a WRITE that reaches a register, from the masked write. -/
theorem completes_write {i : Instr} {s : State} {r : Nat} {v be : Word} (ha : s.cfg.admits i = true)
    (hp : writeParts s.cfg s.blk i = some (r, v, be)) :
    Completes i s (Block.recomputed s.cfg (writeMasked r v be s.start).blk) .none (outputs (writeMasked r v be s.start).trace) :=
  completes_recompute ha (write_body (s := s.start) hp) (keepsAll_writeMasked r v be s.start).toKeeps rfl rfl

/-- Settles O29: a masked write does what the three relations say in turn. -/
theorem writeAppliesFieldsInOrder : Obligations.WriteAppliesFieldsInOrder := by
  intro i s r v be hv ha hp h
  obtain ⟨s1, o1, s2, o2, s3, o3, h1, h2, h3, a3, t3⟩ := tracks_writes (fieldWrites s.cfg s.blk r v be) hv h fun _ => mem_fieldWrites
  have hc : Completes i s (Block.recomputed s.cfg s3.blk) .none (o1 ++ (o2 ++ o3)) := by
    rw [← a3.blk, ← t3]
    exact completes_write ha hp
  exact ⟨s1, o1, s2, o2, s3, o3, h1, h2, h3, hc⟩

/-- Settles O30: on a register without custom functions a masked write is its applies, which have a closed form for plain bindings. -/
theorem plainWriteChangesOnlyItsFields : Obligations.PlainWriteChangesOnlyItsFields := by
  intro i s r v be ha hp hst hplain
  have hm : writeMasked r v be s.start =
      { s.start with blk := Block.plainWritten s.blk r (fieldWrites s.cfg s.blk r v be) } := by
    rw [writeMasked_standard r v be s.start hst]
    exact applies_plain r s.blk s.start _ hplain rfl
  have hc := completes_write ha hp
  rw [hm] at hc
  exact hc

/-! ### Reserved bits (R84, 10_state.md R18, R19) -/

/-- A bit of a mask lies in its field, whatever the width. -/
theorem hits_of_mask {f : FieldDesc} {j : Nat} (h : (mask f.off f.wid).getLsbD j = true) : FieldDesc.hits f j := by
  have hm : mask f.off f.wid = ones f.wid <<< f.off := rfl
  have ho : ones f.wid = trunc f.wid (BitVec.allOnes 32) := (BitVec.allOnes_and ..).symm
  rw [hm, ho, BitVec.getLsbD_shiftLeft, trunc_getLsbD_any] at h
  simp only [Bool.and_eq_true, Bool.not_eq_true', decide_eq_true_eq, decide_eq_false_iff_not] at h
  obtain ⟨⟨-, hge⟩, -, hlt⟩ := h
  exact ⟨by omega, by omega⟩

theorem storedMask_getLsbD_eq_false {d : RegDesc} {j : Nat} (h : ∀ f ∈ d.fields, f.bind = .stored → ¬ FieldDesc.hits f j) :
    (storedMask d).getLsbD j = false := by
  rw [storedMask_getLsbD, List.any_eq_false]
  intro f hf hbit
  simp only [Bool.and_eq_true, decide_eq_true_eq] at hbit
  exact h f hf hbit.1 (hits_of_mask hbit.2)

/-- Words that agree outside a mask agree at each bit that is not in it. -/
theorem getLsbD_of_outside {v w m : Word} (h : v &&& ~~~m = w &&& ~~~m) {j : Nat} (hj : m.getLsbD j = false) :
    v.getLsbD j = w.getLsbD j := by
  by_cases hlt : j < 32
  · have hb := congrArg (fun x => BitVec.getLsbD x j) h
    simp only [BitVec.getLsbD_and, BitVec.getLsbD_not, hj, hlt, decide_true, Bool.not_false, Bool.and_true] at hb
    exact hb
  · rw [BitVec.getLsbD_of_ge v j (by omega), BitVec.getLsbD_of_ge w j (by omega)]

/-- The operations of code 0x01 are entry points other than RESET and SIGNAL_SAMPLE. -/
theorem transaction_of_write {i : Instr} (h : i.opcode = 0x01) : i.isTransaction = true ∧ i ≠ .reset ∧ ∀ g, i ≠ .signalSample g := by
  refine ⟨?_, ?_, fun g => ?_⟩
  · simp only [Instr.isTransaction, h]
    decide
  · rintro rfl
    exact absurd h (by decide)
  · rintro rfl
    exact absurd h (by simp [Instr.opcode])

/-- Settles O31: every operation inside a WRITE keeps the register bits outside the `Stored` fields, and recompute keeps them all. -/
theorem writeKeepsReservedBits : Obligations.WriteKeepsReservedBits := by
  intro i s ha hop
  obtain ⟨htx, hr, hg⟩ := transaction_of_write hop
  obtain ⟨s1, res, hk, hb⟩ := entry_body s.start htx hr hg
  refine ⟨bodyOf i s.start, exec_admitted ha, fun r d j hd hj => ?_⟩
  have hreg : (bodyOf i s.start).blk.reg = s1.blk.reg := by
    rw [hb]
    rfl
  rw [hreg]
  exact getLsbD_of_outside (hk.bits r d hd) (storedMask_getLsbD_eq_false hj)

/-! ### A window write, then a READ (R91) -/

/-- A field whose first bit is enabled is one that the access reaches (R82). -/
theorem touched_of_bit {be : Word} {f : FieldDesc} (hw : 1 ≤ f.wid) (h : be.getLsbD f.off = true) : touched be f = true := by
  refine decide_eq_true fun h0 => ?_
  have hbit := bit0_slice be f.off hw
  rw [h0, bit0_zero, h] at hbit
  cases hbit

theorem mask_getLsbD_of_hits {f : FieldDesc} {j : Nat} (hin : f.off + f.wid ≤ 32) (h : FieldDesc.hits f j) :
    (mask f.off f.wid).getLsbD j = true := by
  obtain ⟨h1, h2⟩ := h
  rw [mask_getLsbD _ _ _ (by omega), decide_eq_true (show j < 32 by omega), decide_eq_true h1, decide_eq_true h2]
  rfl

theorem masks_getLsbD (l : List FieldDesc) (m : Word) (j : Nat) :
    (l.foldl (fun m f => m ||| mask f.off f.wid) m).getLsbD j = (m.getLsbD j || l.any (fun f => (mask f.off f.wid).getLsbD j)) := by
  induction l generalizing m with
  | nil => simp
  | cons f l ih => rw [List.foldl_cons, ih, BitVec.getLsbD_or, List.any_cons, Bool.or_assoc]

theorem fieldsMask_getLsbD (l : List FieldDesc) (j : Nat) :
    (fieldsMask l).getLsbD j = l.any (fun f => (mask f.off f.wid).getLsbD j) := by
  simp [fieldsMask, masks_getLsbD]

/-- A word rebuilt from its fields' bits of `x`: those of `x` under the fields' mask, its own elsewhere (R91). -/
theorem insertAll_slices {l : List FieldDesc} (hl : Laid l) (val : FieldDesc → Word) (acc x : Word)
    (hval : ∀ f ∈ l, ∀ j, j < f.wid → (val f).getLsbD j = x.getLsbD (f.off + j)) :
    insertAll val acc l = (x &&& fieldsMask l) ||| (acc &&& ~~~(fieldsMask l)) := by
  apply BitVec.eq_of_getLsbD_eq
  intro j hj
  simp only [BitVec.getLsbD_or, BitVec.getLsbD_and, BitVec.getLsbD_not, hj, decide_true, Bool.true_and]
  by_cases hit : ∃ f ∈ l, FieldDesc.hits f j
  · obtain ⟨f, hf, h⟩ := hit
    have hF : (fieldsMask l).getLsbD j = true := by
      rw [fieldsMask_getLsbD]
      exact List.any_eq_true.2 ⟨f, hf, mask_getLsbD_of_hits (hl.inside f hf).2 h⟩
    obtain ⟨h1, h2⟩ := h
    rw [insertAll_inside val acc l hl j f hf ⟨h1, h2⟩, hval f hf _ (by omega), hF, Nat.add_sub_cancel' h1]
    simp
  · have hno : ∀ f ∈ l, ¬ FieldDesc.hits f j := fun f hf h => hit ⟨f, hf, h⟩
    have hF : (fieldsMask l).getLsbD j = false := by
      rw [fieldsMask_getLsbD]
      exact List.any_eq_false.2 fun f hf h => hno f hf (hits_of_mask h)
    rw [insertAll_outside val acc l (fun f hf => by have := hl.inside f hf; omega) j hno, hF]
    simp

/-- A register of a valid configuration has a width that a bus access can have (20_memory.md R40). -/
theorem busSize_regBytes {c : Cfg} (hv : validCfg c = true) {r : Nat} {d : RegDesc} (hd : c.regs[r]? = some d) :
    busSize (c.regBytes r) = true := by
  rcases (regBytes_of_valid hv hd).2 with h | h | h <;> rw [h] <;> rfl

/-- A register as R91 asks: every field is stored, ReadWrite and without effect, and there is no `post_read` and no `post_write`. -/
structure StoredReg (d : RegDesc) : Prop where
  fields : ∀ f ∈ d.fields, f.bind = .stored ∧ f.mode = .readWrite ∧ f.effect = none
  postRead : d.postRead = none
  postWrite : d.postWrite = none

theorem StoredReg.behaviours (c : Cfg) {d : RegDesc} (hs : StoredReg d) {f : FieldDesc} (hf : f ∈ d.fields) :
    readBeh c f = .read ∧ writeBeh c f = .write := by
  obtain ⟨hb, hm, -⟩ := hs.fields f hf
  obtain ⟨hr, hw⟩ := behaviours_of_mode c (f := f) fun i h => by rw [hb] at h; cases h
  rw [hr, hw, hm]
  exact ⟨rfl, rfl⟩

section
variable {c : Cfg} {r : Nat} {d : RegDesc} (hv : validCfg c = true) (hd : c.regs[r]? = some d) (hs : StoredReg d)
include hd hs

theorem StoredReg.standard : standardReg c r = true := by
  have hfield : ∀ f ∈ d.fields, standardField f = true := by
    intro f hf
    obtain ⟨hb, -, he⟩ := hs.fields f hf
    unfold standardField
    rw [hb, he]
    rfl
  unfold standardReg
  rw [hd]
  dsimp only
  rw [hs.postRead, hs.postWrite, List.all_eq_true.2 hfield]
  rfl

include hv

/-- Such a register shows its word as it is stored (R75, R79). -/
theorem StoredReg.peekReg_eq_word (b : Block) : peekReg c b r = b.reg.getD r 0 := by
  have hl : Laid d.fields := (laid_of_valid hv (List.mem_of_getElem? hd)).1
  rw [peekReg_eq, fieldsOf_of hd, insertAll_slices hl _ _ (b.reg.getD r 0) fun f hf j hj => ?_]
  · apply BitVec.eq_of_getLsbD_eq
    intro j hj
    simp only [BitVec.getLsbD_or, BitVec.getLsbD_and, BitVec.getLsbD_not, hj, decide_true, Bool.true_and]
    cases (fieldsMask d.fields).getLsbD j <;> simp
  · have hshown : shownValue c b r f = trunc f.wid (slice (b.reg.getD r 0) f.off f.wid) := by
      unfold shownValue fieldValue bindPeek
      rw [(hs.behaviours _ hf).1, (hs.fields f hf).1]
      rfl
    rw [hshown, trunc_getLsbD_any, slice_getLsbD_any, decide_eq_true hj, Bool.and_true, Bool.and_true]

/-- A whole write of such a register reaches all its fields (R82). -/
theorem StoredReg.fieldWrites_eq (b : Block) (v : Word) : fieldWrites c b r v (ones d.w) = d.fields.map (fun f =>
    (f, fieldValue c b r f, newValue .write (fieldValue c b r f) (slice v f.off f.wid) (slice (ones d.w) f.off f.wid))) := by
  have hm := List.mem_of_getElem? hd
  have hw : d.w ≤ 32 := by have := (regWidth_of_valid hv hm).1; omega
  have htouch : ∀ f ∈ d.fields, touched (ones d.w) f = true := by
    intro f hf
    obtain ⟨hl, hin⟩ := laid_of_valid hv hm
    have h1 := (hl.inside f hf).1
    have h2 := hin f hf
    refine touched_of_bit h1 ?_
    rw [ones_getLsbD _ _ hw]
    exact decide_eq_true (by omega)
  unfold fieldWrites
  rw [fieldsOf_of hd, List.filter_eq_self.2 fun f hf => by rw [(hs.behaviours _ hf).2, htouch f hf]; rfl]
  refine List.map_congr_left fun f hf => ?_
  rw [(hs.behaviours _ hf).2]

/-- The register word after a whole write of `v` (R82, R91). -/
theorem StoredReg.reg_written {b : Block} (hr : r < b.reg.length) (v : Word) :
    (Block.plainWritten b r (fieldWrites c b r v (ones d.w))).reg.getD r 0 =
      (v &&& fieldsMask d.fields) ||| (b.reg.getD r 0 &&& ~~~(fieldsMask d.fields)) := by
  have hm := List.mem_of_getElem? hd
  obtain ⟨hl, hin⟩ := laid_of_valid hv hm
  have hw : d.w ≤ 32 := by have := (regWidth_of_valid hv hm).1; omega
  have hstored : ∀ w ∈ fieldWrites c b r v (ones d.w), decide (w.1.bind = .stored) = true := by
    intro w hmem
    have hf := mem_fieldWrites hmem
    rw [fieldsOf_of hd] at hf
    exact decide_eq_true (hs.fields w.1 hf).1
  unfold Block.plainWritten
  dsimp only
  rw [List.filter_eq_self.2 hstored, getD_set_self _ _ _ hr, hs.fieldWrites_eq hv hd, List.foldl_map]
  refine insertAll_slices hl (fun f => newValue .write (fieldValue c b r f) (slice v f.off f.wid) (slice (ones d.w) f.off f.wid)) _ v
    fun f hf j hj => ?_
  have := hin f hf
  rw [newValue_write_getLsbD, slice_getLsbD_any, slice_getLsbD_any, ones_getLsbD _ _ hw, decide_eq_true hj,
    decide_eq_true (show f.off + j < d.w by omega), Bool.and_true, Bool.and_true]
  rfl

end

/-- A whole WRITE of such a register, of the word `v`, and then a READ of it (R91). -/
theorem StoredReg.write_then_read {s : State} {r : Nat} {d : RegDesc} {i : Instr} {v : Word} (hs : StoredReg d) (hi : Inv s)
    (hd : s.cfg.regs[r]? = some d) (ha : s.cfg.admits i = true) (hp : writeParts s.cfg s.blk i = some (r, v, ones (widthOf s.cfg r))) :
    ∃ t u, exec i s = .next t ∧ exec (.read r) t = .next u ∧
      u.result = .word (d.w / 8) ((v &&& fieldsMask d.fields) ||| (peekReg s.cfg s.blk r &&& ~~~(fieldsMask d.fields))) := by
  have hwidth : widthOf s.cfg r = d.w := by
    unfold widthOf
    rw [hd]
  rw [hwidth] at hp
  have hplain : ∀ w ∈ fieldWrites s.cfg s.blk r v (ones d.w), plainBinding w.1.bind = true := by
    intro w hmem
    have hf := mem_fieldWrites hmem
    rw [fieldsOf_of hd] at hf
    rw [(hs.fields w.1 hf).1]
    rfl
  obtain ⟨t, ht, hcfg, -, hblk, -, -⟩ := plainWriteChangesOnlyItsFields i s r v _ ha hp (hs.standard hd) hplain
  have hbytes := (regBytes_of_valid hi.valid hd).1
  have hinert : ∀ f ∈ d.fields, inertOnRead t.cfg f = true := by
    intro f hf
    rw [hcfg]
    simp [inertOnRead, idleOnRead, readAction, hs.behaviours _ hf, (hs.fields f hf).1]
  have hread : t.cfg.admits (.read r) = true := by
    rw [hcfg]
    exact busSize_regBytes hi.valid hd
  have hsettled : Settled t.cfg t.blk := by
    rw [hcfg, hblk]
    exact recomputed_settled _ _
  obtain ⟨u, hu, -, -, -, hres, -⟩ := completes_read_inert hsettled hread (hcfg.symm ▸ hd) hinert hs.postRead
  refine ⟨t, u, ht, hu, hres.trans ?_⟩
  have hreg : r < s.blk.reg.length := by
    rw [hi.shaped.reg]
    exact (List.getElem?_eq_some_iff.1 hd).1
  rw [hcfg, hblk, hbytes, hs.peekReg_eq_word hi.valid hd, hs.peekReg_eq_word hi.valid hd, ← hs.reg_written hi.valid hd hreg]
  rfl

/-- Settles O32: each window writes its combination with the peeked word, which the READ shows in the fields. -/
theorem windowWriteThenRead : Obligations.WindowWriteThenRead := by
  intro s r d m hi hal hd hfit hf hpr hpw
  have hs : StoredReg d := ⟨hf, hpr, hpw⟩
  have hbus := busSize_regBytes hi.valid hd
  refine ⟨hs.write_then_read hi hd ?_ rfl, hs.write_then_read hi hd ?_ rfl, hs.write_then_read hi hd ?_ rfl⟩ <;>
    simp [Cfg.admits, hbus, hal, hfit]

end Sys2Proof.Machine
end

section
/-! PROOFS. The statements of 41_interrupts.md: the flag primitives, recompute, and the ways in which a pending flag falls. -/

namespace Sys2Proof.Machine

/-! ## Flags and lines (41_interrupts.md R106, R107) -/

theorem getD_false_iff (l : List Bool) (n : Nat) : l.getD n false = true ↔ l[n]? = some true := by
  rw [List.getD_eq_getElem?_getD]
  rcases l[n]? with _ | v <;> simp

theorem isPending_iff (b : Block) (n : Nat) : b.isPending n = true ↔ b.pending[n]? = some true := getD_false_iff _ n

theorem isPending_of_getElem? {b : Block} {n : Nat} {p : Bool} (h : b.pending[n]? = some p) : b.isPending n = p := by
  unfold Block.isPending
  rw [List.getD_eq_getElem?_getD, h, Option.getD_some]

/-- A line is high exactly when one of its sources is pending and enabled (R107). -/
theorem lineLevel_iff {c : Cfg} {l : Nat} {d : LineDesc} (hd : c.lines[l]? = some d) (b : Block) :
    lineLevel c b l = true ↔ ∃ i ∈ d.sources, b.pending[i]? = some true ∧ b.enabled[i]? = some true := by
  simp only [lineLevel, hd, List.any_eq_true, Bool.and_eq_true, Block.isPending, Block.isEnabled, getD_false_iff]

theorem admits_irqLevel {c : Cfg} {l : Nat} {d : LineDesc} (hd : c.lines[l]? = some d) : c.admits (.irqLevel l) = true :=
  decide_eq_true (List.getElem?_eq_some_iff.1 hd).1

/-! ## What recompute does to a flag (R101, R109) -/

/-- Recompute clears the flag of an AutoClear source whose condition is false (R101). -/
theorem autoClears_eq (b : Block) (d : SourceDesc) :
    autoClears b d = (decide (d.clear = .autoClear) && d.cond.any (fun k => !b.holds k)) := by
  unfold autoClears
  cases d.clear <;> cases d.cond <;> rfl

theorem autoClears_iff (b : Block) (d : SourceDesc) :
    autoClears b d = true ↔ d.clear = .autoClear ∧ ∃ k, d.cond = some k ∧ b.holds k = false := by
  rw [autoClears_eq, Bool.and_eq_true, decide_eq_true_eq, Option.any_eq_true]
  simp only [Bool.not_eq_true']

theorem autoClears_of_cond {b : Block} {d : SourceDesc} {k : Cond} (hc : d.clear = .autoClear) (hk : d.cond = some k) :
    autoClears b d = !b.holds k := by
  rw [autoClears_eq, hc, hk]
  rfl

/-- Recompute changes nothing that a condition reads (R108). -/
@[simp] theorem recomputed_holds (c : Cfg) (b : Block) (k : Cond) : (Block.recomputed c b).holds k = b.holds k :=
  holds_congr k rfl rfl rfl rfl

/-- A flag after recompute: as before, unless its source is one that recompute clears (R109). -/
theorem recomputed_isPending (c : Cfg) (b : Block) (n : Nat) :
    (Block.recomputed c b).isPending n = (b.isPending n && !(c.sources[n]?).any (autoClears b)) := by
  have h : (Block.recomputed c b).pending[n]? = (b.pending[n]?).map (fun p => p && !(c.sources[n]?).any (autoClears b)) :=
    clearAuto_getElem? b c.sources b.pending n
  unfold Block.isPending
  rw [List.getD_eq_getElem?_getD, List.getD_eq_getElem?_getD, h]
  cases b.pending[n]? <;> rfl

theorem recomputed_isPending_of_source {c : Cfg} {n : Nat} {d : SourceDesc} (hd : c.sources[n]? = some d) (b : Block) :
    (Block.recomputed c b).isPending n = (b.isPending n && !autoClears b d) := by
  rw [recomputed_isPending, hd, Option.any_some]

theorem recomputed_isPending_of_cond {c : Cfg} {n : Nat} {d : SourceDesc} {k : Cond} (hd : c.sources[n]? = some d)
    (hc : d.clear = .autoClear) (hk : d.cond = some k) (b : Block) :
    (Block.recomputed c b).isPending n = (b.isPending n && b.holds k) := by
  rw [recomputed_isPending_of_source hd, autoClears_of_cond hc hk, Bool.not_not]

/-- A flag that falls in recompute is that of an AutoClear source whose condition is false (R101, R102). -/
theorem autoCleared_of_recomputed {c : Cfg} {b : Block} {n : Nat} (h : b.isPending n = true)
    (h' : (Block.recomputed c b).isPending n = false) :
    ∃ d k, c.sources[n]? = some d ∧ d.clear = .autoClear ∧ d.cond = some k ∧ b.holds k = false := by
  rw [recomputed_isPending, h, Bool.true_and, Bool.not_eq_false', Option.any_eq_true] at h'
  obtain ⟨d, hd, ha⟩ := h'
  obtain ⟨hc, k, hk, hf⟩ := (autoClears_iff b d).1 ha
  exact ⟨d, k, hd, hc, hk, hf⟩

/-! ## What recompute leaves (R110, R111) -/

theorem Settled.sig_eq {c : Cfg} {b : Block} (h : Settled c b) {g : Nat} {d : SignalDesc} (hd : c.signals[g]? = some d) :
    b.sig[g]? = some (evalSignal c b d.expr) := by
  rw [h.sig, List.getElem?_map, hd, Option.map_some]

/-- In a settled block an AutoClear source is pending only while its condition holds (R111). -/
theorem Settled.holds_of_pending {c : Cfg} {b : Block} (h : Settled c b) {n : Nat} {d : SourceDesc} {k : Cond}
    (hd : c.sources[n]? = some d) (hc : d.clear = .autoClear) (hk : d.cond = some k) (hp : b.isPending n = true) :
    b.holds k = true := by
  have hn := recomputed_isPending_of_cond hd hc hk b
  rwa [h.recomputed_eq, hp, Bool.true_and, eq_comm] at hn

/-- RECOMPUTE answers in every state the recomputed block. -/
theorem exec_recompute (s : State) : exec .recompute s = .next (recompute s.start) := exec_admitted rfl

/-! ## The pending field of a source (R98, R99) -/

/-- A source has at most one pending field (70_reset_and_hazards.md R155). -/
theorem pendingField_unique {c : Cfg} (hv : validCfg c = true) {r : Nat} {f g : FieldDesc} {n : Nat} (hf : f ∈ fieldsOf c r)
    (hg : g ∈ fieldsOf c r) (hfb : f.bind = .irqPending n) (hgb : g.bind = .irqPending n) : f = g := by
  obtain ⟨d, hd, hfm⟩ := mem_fieldsOf hf
  have hgm : g ∈ d.fields := fieldsOf_of hd ▸ hg
  have hcheck := (checked_of_valid hv).bindings
  simp only [checkBindings, Bool.and_eq_true, decide_eq_true_eq] at hcheck
  have hnodup := (List.nodup_flatMap.1 hcheck.2).1 d (List.mem_of_getElem? hd)
  have hpw := List.pairwise_filterMap.1 hnodup
  rcases disjoint_of_pairwise (fun _ _ h b hb b' hb' => (h b' hb' b hb).symm) hpw hfm hgm with h | h
  · exact h
  · exact absurd rfl (h n (by simp only [pendingOf, hfb]) n (by simp only [pendingOf, hgb]))

/-- A policy under which a pending field is written is one under which writing 1 clears it (R73, R99). -/
theorem policyWrite_ne_none {p : ClearPolicy} (h : policyWrite p ≠ .none) :
    (p = .writeOneToClear ∨ p = .both) ∧ policyWrite p = .w1c := by
  cases p with
  | writeOneToClear => exact ⟨.inl rfl, rfl⟩
  | both => exact ⟨.inr rfl, rfl⟩
  | clearOnRead => exact absurd rfl h
  | autoClear => exact absurd rfl h

theorem policyWrite_w1c {p : ClearPolicy} (h : p = .writeOneToClear ∨ p = .both) : policyWrite p = .w1c := by
  rcases h with rfl | rfl <;> rfl

/-- A policy under which a pending field is cleared by a read (R73, R100). -/
theorem policyRead_readToClear {p : ClearPolicy} (h : policyRead p = .readToClear) : p = .clearOnRead ∨ p = .both := by
  cases p with
  | writeOneToClear => cases h
  | both => exact .inr rfl
  | clearOnRead => exact .inl rfl
  | autoClear => cases h

theorem fieldWrites_writeBeh {c : Cfg} {b : Block} {r : Nat} {v be : Word} {w : FieldWrite} (h : w ∈ fieldWrites c b r v be) :
    writeBeh c w.1 ≠ .none := by
  simp only [fieldWrites, List.mem_map, List.mem_filter, Bool.and_eq_true, decide_eq_true_eq] at h
  obtain ⟨f, ⟨-, hwb, -⟩, rfl⟩ := h
  exact hwb

/-- A write that reaches a pending field does so under a policy that allows it, and clears the flag exactly where it writes 1 (R99). -/
theorem pendingWrite {c : Cfg} (hv : validCfg c = true) {b : Block} {r : Nat} {v be : Word} {w : FieldWrite} {n : Nat}
    (h : w ∈ fieldWrites c b r v be) (hb : w.1.bind = .irqPending n) :
    (eff c n = .writeOneToClear ∨ eff c n = .both) ∧ be.getLsbD w.1.off = true ∧
      bit0 w.2.2 = (b.isPending n && !v.getLsbD w.1.off) := by
  have hwb := (behaviours_of_pending c hb).2
  have hwid := pending_wid hv (mem_fieldWrites h) hb
  have hbe := touched_one hwid (fieldWrites_touched h)
  have hne := fieldWrites_writeBeh h
  rw [hwb] at hne
  obtain ⟨hpol, hw1c⟩ := policyWrite_ne_none hne
  have hold : w.2.1.getLsbD 0 = b.isPending n := by
    rw [(fieldWrites_values h).1, bindPeek, hb, trunc_getLsbD_any, hwid]
    exact (Bool.and_true _).trans (bit0_ofBit _)
  have hnew := (fieldWrites_bit (j := 0) h (by omega)).2.1 (hwb.trans hw1c)
  rw [hold, Nat.add_zero, hbe, Bool.and_true] at hnew
  exact ⟨hpol, hbe, hnew⟩

/-! ### The last write to a binding -/

theorem lastWrite_of_bound {ws : List FieldWrite} {k : Binding} (h : ∃ w ∈ ws, w.1.bind = k) :
    ∃ w ∈ ws, w.1.bind = k ∧ lastWrite ws k = some w.2.2 := by
  obtain ⟨w, hw, hk⟩ := h
  have hne : ws.filter (fun w => decide (w.1.bind = k)) ≠ [] := List.ne_nil_of_mem (List.mem_filter.2 ⟨hw, decide_eq_true hk⟩)
  obtain ⟨hmem, hbind⟩ := List.mem_filter.1 (List.getLast_mem hne)
  exact ⟨_, hmem, of_decide_eq_true hbind, by rw [lastWrite, List.getLast?_eq_some_getLast hne, Option.map_some]⟩

theorem lastBit_of_bound {ws : List FieldWrite} {k : Binding} (h : ∃ w ∈ ws, w.1.bind = k) (old : Bool) :
    ∃ w ∈ ws, w.1.bind = k ∧ lastBit ws k old = bit0 w.2.2 := by
  obtain ⟨w, hw, hk, hl⟩ := lastWrite_of_bound h
  exact ⟨w, hw, hk, by simp only [lastBit, hl]⟩

/-- A pending flag after writes to plain bindings, one of which is its own (R82). -/
theorem plainWritten_isPending {b : Block} {r : Nat} {ws : List FieldWrite} {n : Nat} {p : Bool}
    (h : ∃ w ∈ ws, w.1.bind = .irqPending n) (hp : ∀ w ∈ ws, w.1.bind = .irqPending n → bit0 w.2.2 = (b.isPending n && p)) :
    (Block.plainWritten b r ws).isPending n = (b.isPending n && p) := by
  have hlast (old : Bool) : lastBit ws (.irqPending n) old = (b.isPending n && p) := by
    obtain ⟨w, hw, hk, hl⟩ := lastBit_of_bound h old
    exact hl.trans (hp w hw hk)
  have hbit : (Block.plainWritten b r ws).isPending n = ((b.pending[n]?).map (lastBit ws (.irqPending n))).getD false := by
    unfold Block.isPending Block.plainWritten
    rw [List.getD_eq_getElem?_getD, List.getElem?_mapIdx]
  rw [hbit]
  rcases hn : b.pending[n]? with _ | old
  · rw [Block.isPending, List.getD_eq_getElem?_getD, hn]
    rfl
  · exact hlast old

/-- A source that a bus access may clear is none that recompute clears (R98). -/
theorem autoClears_of_eff {c : Cfg} {n : Nat} (h : eff c n ≠ .autoClear) (b : Block) :
    (c.sources[n]?).any (autoClears b) = false := by
  rcases hd : c.sources[n]? with _ | d
  · rfl
  · have hc : d.clear ≠ .autoClear := fun hc => h (eff_of_autoClear hd hc)
    rw [Option.any_some, autoClears_eq, decide_eq_false hc, Bool.false_and]

/-! ## Falling flags (R102) -/

/-- The reason why source `n`'s flag falls in the access `i`: a WRITE of 1 to its field, or a READ of it, under a policy that allows
it (R99, R100). -/
def ClearedByAccess (c : Cfg) (b : Block) (i : Instr) (n : Nat) : Prop :=
  (∃ r v be f, writeParts c b i = some (r, v, be) ∧ f ∈ fieldsOf c r ∧ f.bind = .irqPending n ∧
    (eff c n = .writeOneToClear ∨ eff c n = .both) ∧ be.getLsbD f.off = true ∧ v.getLsbD f.off = true) ∨
  (∃ r be f, readParts c i = some (r, be) ∧ f ∈ fieldsOf c r ∧ f.bind = .irqPending n ∧
    (eff c n = .clearOnRead ∨ eff c n = .both) ∧ be.getLsbD f.off = true)

/-- A masked read of a standard register keeps a flag, or reaches its field under a policy that clears on read (R100). -/
theorem readMasked_isPending {s : State} {r : Nat} {be : Word} {n : Nat} (hv : validCfg s.cfg = true)
    (hst : standardReg s.cfg r = true) (hp : s.blk.isPending n = true) :
    (readMasked r be s).1.blk.isPending n = true ∨
      ∃ f ∈ fieldsOf s.cfg r, f.bind = .irqPending n ∧ (eff s.cfg n = .clearOnRead ∨ eff s.cfg n = .both) ∧
        be.getLsbD f.off = true := by
  rcases (readMasked_ctl r be s hv hst).2 n hp with h | ⟨f, hf, hb, hr, ht⟩
  · exact .inl h
  · rw [(behaviours_of_pending _ hb).1] at hr
    exact .inr ⟨f, hf, hb, policyRead_readToClear hr, touched_one (pending_wid hv hf hb) ht⟩

/-- A masked write of a standard register keeps a flag, or writes 1 to its field under a policy that allows it (R99). -/
theorem writeMasked_isPending {s : State} {r : Nat} {v be : Word} {n : Nat} (hv : validCfg s.cfg = true)
    (hst : standardReg s.cfg r = true) (hp : s.blk.isPending n = true) :
    (writeMasked r v be s).blk.isPending n = true ∨
      ∃ f ∈ fieldsOf s.cfg r, f.bind = .irqPending n ∧ (eff s.cfg n = .writeOneToClear ∨ eff s.cfg n = .both) ∧
        be.getLsbD f.off = true ∧ v.getLsbD f.off = true := by
  rw [writeMasked_standard r v be s hst]
  have hcu : ∀ w ∈ fieldWrites s.cfg s.blk r v be, ∀ a b d, w.1.bind ≠ .custom a b d :=
    fun w hw => (standard_field hst (mem_fieldWrites hw)).2
  rcases writes_pending r n _ s hcu hp with h | ⟨w, hw, hb, h0⟩
  · exact .inl h
  · obtain ⟨hpol, hbe, hbit⟩ := pendingWrite hv hw hb
    rw [h0, hp, Bool.true_and, eq_comm, Bool.not_eq_false'] at hbit
    exact .inr ⟨w.1, mem_fieldWrites hw, hb, hpol, hbe, hbit⟩

/-- A flag that an entry point other than RESET finds set stays so, or the access clears it, or it is still set when recompute begins
(R102). -/
theorem body_isPending {i : Instr} {s : State} {n : Nat} (hv : validCfg s.cfg = true) (hst : standardCfg s.cfg = true)
    (htx : i.isTransaction = true) (hr : i ≠ .reset) (hp : s.blk.isPending n = true) :
    (bodyOf i s).blk.isPending n = true ∨ ClearedByAccess s.cfg s.blk i n ∨
      ∃ b, (bodyOf i s).blk = Block.recomputed s.cfg b ∧ b.isPending n = true := by
  by_cases hg : ∃ g, i = .signalSample g
  · obtain ⟨g, rfl⟩ := hg
    exact .inl hp
  rcases body_kind s htx hr (fun g e => hg ⟨g, e⟩) with
    ⟨s1, res, hb, hq⟩ | ⟨r, be, res, hparts, hb⟩ | ⟨r, v, be, hparts, hb⟩
  · exact .inr (.inr ⟨s1.blk, by rw [hb, State.returning_blk, recompute_blk, hq.cfg], hq.pending n hp⟩)
  · rcases readMasked_isPending hv (standardReg_of hst r) hp with h | ⟨f, h⟩
    · have hcfg := (keepsAll_readMasked r be s).cfg
      exact .inr (.inr ⟨_, by rw [hb, State.returning_blk, recompute_blk, hcfg], h⟩)
    · exact .inr (.inl (.inr ⟨r, be, f, hparts, h⟩))
  · rcases writeMasked_isPending hv (standardReg_of hst r) hp with h | ⟨f, h⟩
    · have hcfg := (keepsAll_writeMasked r v be s).cfg
      exact .inr (.inr ⟨_, by rw [hb, recompute_blk, hcfg], h⟩)
    · exact .inr (.inl (.inl ⟨r, v, be, f, hparts, h⟩))

/-- Settles O43: before recompute a flag falls only by an access to its field, and recompute clears AutoClear sources only. -/
theorem pendingFallsOnlyByPolicy : Obligations.PendingFallsOnlyByPolicy := by
  intro i s t n hi hst htx hx hp hf
  obtain ⟨-, rfl⟩ := exec_next hx
  by_cases hr : i = .reset
  · exact .inl hr
  refine .inr ?_
  rcases body_isPending (s := s.start) hi.valid hst htx hr hp with h | h | ⟨b, hb, h⟩
  · rw [h] at hf
    cases hf
  · exact .inr h
  · rw [hb] at hf ⊢
    obtain ⟨d, k, hd, hc, hk, hfalse⟩ := autoCleared_of_recomputed h hf
    exact .inl ⟨d, k, hd, hc, hk, (recomputed_holds _ b k).trans hfalse⟩

/-- Settles O33: the write reaches the source's one pending field, and recompute does not clear a source of these policies. -/
theorem writeOneClearsPending : Obligations.WriteOneClearsPending := by
  intro i s r v be f n hi ha hparts hst hplain hf hb hpol hbe
  obtain ⟨t, ht, -, -, hblk, -, -⟩ := plainWriteChangesOnlyItsFields i s r v be ha hparts hst hplain
  have hne : eff s.cfg n ≠ .autoClear := by
    rcases hpol with h | h <;> rw [h] <;> decide
  have hwb : writeBeh s.cfg f = .w1c := (behaviours_of_pending _ hb).2.trans (policyWrite_w1c hpol)
  have hwid := pending_wid hi.valid hf hb
  have hreached : f ∈ (fieldWrites s.cfg s.blk r v be).map (·.1) := by
    rw [fieldWrites_fields]
    refine List.mem_filter.2 ⟨hf, ?_⟩
    have ht := touched_of_bit (by omega) hbe
    rw [hwb, Bool.and_eq_true]
    exact ⟨rfl, ht⟩
  obtain ⟨w, hw, hwf⟩ := List.mem_map.1 hreached
  refine ⟨t, ht, ?_⟩
  rw [hblk, recomputed_isPending, autoClears_of_eff hne, Bool.not_false, Bool.and_true]
  refine plainWritten_isPending ⟨w, hw, hwf ▸ hb⟩ fun w' hw' hb' => ?_
  have hsame : w'.1 = f := pendingField_unique hi.valid (mem_fieldWrites hw') hf hb' hb
  exact hsame ▸ (pendingWrite hi.valid hw' hb').2.2

/-! ## Lines and recompute (R107, R109 to R111) -/

/-- Settles O39: the bit that IRQ_LEVEL returns is the level of the line. -/
theorem irqLevelIsOrOfEnabledPending : Obligations.IrqLevelIsOrOfEnabledPending := by
  intro s l d hd
  exact ⟨lineLevel s.cfg s.blk l, completes_of_body (admits_irqLevel hd) rfl rfl rfl, lineLevel_iff hd s.blk⟩

/-- Settles O40: each flag and each signal of the recomputed block. -/
theorem recomputeClearsAndLatches : Obligations.RecomputeClearsAndLatches := by
  intro s
  have hsig : ∀ (g : Nat) (d : SignalDesc), s.cfg.signals[g]? = some d →
      (Block.recomputed s.cfg s.blk).sig[g]? = some (evalSignal s.cfg (Block.recomputed s.cfg s.blk) d.expr) :=
    fun g d hd => recomputed_sig s.blk hd
  refine ⟨_, exec_recompute s, rfl, rfl, rfl, fun i d hd => ?_, fun i q d p F hd hc hk hF => ?_, hsig,
    fun g d hd => ⟨_, hsig g d hd, fun l L he hL => ?_, fun q p F he hF => ?_, fun b he => ?_, fun n he => ?_⟩, rfl⟩
  · rw [← autoClears_eq]
    exact recomputed_isPending_of_source hd s.blk
  · have hflag := recomputed_isPending_of_cond hd hc hk s.blk
    rw [← fifoPred_iff hF p, ← Bool.and_eq_true]
    exact Bool.eq_iff_iff.1 hflag
  · rw [he]
    exact lineLevel_iff hL _
  · rw [he]
    exact fifoPred_iff (b := Block.recomputed s.cfg s.blk) hF p
  · rw [he]
    rfl
  · rw [he]
    rfl

/-- Settles O41: recompute leaves a settled block, and changes nothing in one. -/
theorem recomputeIsIdempotent : Obligations.RecomputeIsIdempotent := by
  refine ⟨fun s => ⟨_, _, exec_recompute s, exec_recompute _, ?_⟩, fun s hs => ?_⟩
  · exact (recomputed_settled s.cfg s.blk).recomputed_eq
  · have hb : bodyOf .recompute s.start = s.start := Settled.recompute_eq (s := s.start) hs
    exact completes_of_body rfl hb rfl rfl

/-- Settles O42: every entry point keeps the invariant, and with it leaves a settled block. -/
theorem outputsCurrentAfterEntryPoint : Obligations.OutputsCurrentAfterEntryPoint := by
  intro i s hi ha htx
  have hx := exec_admitted ha
  have hs := (inv_exec hi hx htx).settled
  rw [exec_next_cfg hx] at hs
  refine ⟨_, hx, fun g l d hd he => ?_, fun n d k hd hc hk hp => hs.holds_of_pending hd hc hk hp, fun n q d p F hd hc hk hF hp => ?_⟩
  · have hg := hs.sig_eq hd
    rwa [he] at hg
  · exact (fifoPred_iff hF p).1 (hs.holds_of_pending hd hc hk hp)

/-! ## Between entry points, and the flag primitives (R104 to R106, R112) -/

/-- Settles O8: a step serves the first transaction of the inbox, and there is none. -/
theorem nothingChangesBetweenEntryPoints : Obligations.NothingChangesBetweenEntryPoints := by
  intro s hs hl
  unfold step advance
  rw [if_pos hs, hl]

/-- Settles O36: IRQ_SET sets the flag alone, so the condition is still false when recompute runs. -/
theorem irqSetWritesOneFlag : Obligations.IrqSetWritesOneFlag := by
  intro s i b hlt
  have ha (v : Bool) : s.cfg.admits (.irqSet i v) = true := decide_eq_true hlt
  refine ⟨completes_of_body (ha b) rfl rfl rfl, fun d k hd hc hk hf => ⟨_, _, exec_admitted (ha true), exec_recompute _, ?_⟩⟩
  have hflag := recomputed_isPending_of_cond hd hc hk (irqSet i true s).blk
  have hholds : (irqSet i true s).blk.holds k = false := (holds_congr k rfl rfl rfl rfl).trans hf
  rw [hholds, Bool.and_false] at hflag
  exact hflag

/-- Settles O37: the enable flag is set and the pending flag stays, so the line has a pending and enabled source. -/
theorem irqSetEnabledWritesOneFlag : Obligations.IrqSetEnabledWritesOneFlag := by
  intro s i b hlt
  have ha (v : Bool) : s.cfg.admits (.irqSetEnabled i v) = true := decide_eq_true hlt
  refine ⟨completes_of_body (ha b) rfl rfl rfl, fun l d hs hd hi hp => ⟨_, exec_admitted (ha true), ?_⟩⟩
  have hset : (s.blk.enabled.set i true)[i]? = some true := List.getElem?_set_self (by rw [hs.enabled]; exact hlt)
  exact (lineLevel_iff hd _).2 ⟨i, hi, (isPending_iff _ i).1 hp, hset⟩

/-- Settles O38: the bit that IRQ_IS_PENDING returns is the flag itself. -/
theorem irqIsPendingReturnsRawFlag : Obligations.IrqIsPendingReturnsRawFlag := by
  intro s i p hlt hp
  have ha : s.cfg.admits (.irqIsPending i) = true := decide_eq_true hlt
  rw [← isPending_of_getElem? hp]
  exact completes_of_body ha rfl rfl rfl

end Sys2Proof.Machine
end

section
/-! PROOFS. The statements of 42_fifo.md: what each FIFO primitive does to the block, its result and its notification, and what every
sequence of them keeps. -/

namespace Sys2Proof.Machine

/-! ## The classification (42_fifo.md R113) -/

theorem fifoClass_eq_empty_iff (n cap : Nat) : fifoClass n cap = .empty ↔ n = 0 := by
  unfold fifoClass; split_ifs <;> simp_all

theorem fifoClass_eq_full_iff {n cap : Nat} (hc : 1 ≤ cap) : fifoClass n cap = .full ↔ cap ≤ n := by
  unfold fifoClass; split_ifs <;> simp <;> omega

theorem fifoClass_eq_ready_iff (n cap : Nat) : fifoClass n cap = .ready ↔ n ≠ 0 ∧ n < cap := by
  unfold fifoClass; split_ifs <;> simp <;> omega

theorem Fifo.st_of_consistent {f : Fifo} (h : f.consistent = true) : f.st = fifoClass f.items.length f.cap :=
  congrArg Fifo.st ((consistent_iff f).1 h).2.2

theorem Fifo.wmx_of_consistent {f : Fifo} (h : f.consistent = true) : f.wmx = decide (f.wm < f.items.length) :=
  congrArg Fifo.wmx ((consistent_iff f).1 h).2.2

/-! ## A FIFO replaced and settled (R114) -/

/-- The state after FIFO `q` went from `f` to `g` and settled: what `refit_eq` and the equations of the primitives give. -/
def State.refitted (s : State) (q : Nat) (f g : Fifo) : State :=
  { s with blk := Block.afterFifo s.cfg s.blk q f g [], trace := s.trace ++ fifoNotice q f g }

theorem completes_of_refitted {i : Instr} {s : State} {q : Nat} {f g : Fifo} (ha : s.cfg.admits i = true)
    (hb : bodyOf i s.start = s.start.refitted q f g) :
    Completes i s (Block.afterFifo s.cfg s.blk q f g []) .none (fifoNotice q f g) := by
  have hc := completes_of_body ha hb rfl rfl
  rwa [show (s.start.refitted q f g).trace = fifoNotice q f g from rfl, outputs_notice] at hc

@[simp] theorem fifoNotice_self (q : Nat) (f : Fifo) : fifoNotice q f f = [] := by simp [fifoNotice, noticeTrace]

@[simp] theorem noticeEvents_self (q : Nat) (st : FifoState) (w : Bool) : noticeEvents q st st w w = [] := by
  cases w <;> simp [noticeEvents]

theorem afterFifo_getElem? {b : Block} {q : Nat} {f : Fifo} (h : b.fifo[q]? = some f) (c : Cfg) (g : Fifo) (es : List IEvent) :
    (Block.afterFifo c b q f g es).fifo[q]? = some g :=
  List.getElem?_set_self (List.getElem?_eq_some_iff.1 h).1

/-- Refitting a FIFO to itself changes nothing, and so notifies nothing. -/
theorem refitted_self {s : State} {q : Nat} {f : Fifo} (h : s.blk.fifo[q]? = some f) : s.refitted q f f = s := by
  obtain ⟨hq, rfl⟩ := List.getElem?_eq_some_iff.1 h
  simp [State.refitted, Block.afterFifo]

/-! ## FIFO_PUSH and FIFO_POP (R116, R117; 41_interrupts.md R103) -/

theorem setBy_eq_any (d : SourceDesc) (es : List IEvent) : SourceDesc.setBy d es = d.triggers.any (fun e => decide (e ∈ es)) := by
  rw [Bool.eq_iff_iff]
  simp [SourceDesc.setBy, and_comm]

/-- A pop raises `popRaises`, whether it takes a byte or underflows (R117). -/
theorem popBlock_pending (c : Cfg) (b : Block) (q : Nat) (f : Fifo) :
    (popBlock c b q f).pending = triggered c (popRaises q f) b.pending := by
  unfold popBlock popRaises
  split <;> rfl

theorem pushResult_eq {s : State} {q : Nat} {f : Fifo} (h : s.blk.fifo[q]? = some f) :
    pushResult q s = if f.cap ≤ f.items.length then .pushOverflow else .pushOk := by
  unfold pushResult; rw [h]

theorem popResult_eq {s : State} {q : Nat} {f : Fifo} (h : s.blk.fifo[q]? = some f) :
    popResult q s = if f.items = [] then .popUnderflow (popByte s.cfg q f) else .popOk (popByte s.cfg q f) := by
  unfold popResult popByte; rw [h]; dsimp only
  cases f.items <;> rfl

/-- Settles O44: the push leaves `pushBlock`, whose flags are those that `pushRaises` triggers. -/
theorem fifoPushAppendsOrOverflows : Obligations.FifoPushAppendsOrOverflows := by
  intro s q x f hq hf
  have ha : s.cfg.admits (.fifoPush q x) = true := decide_eq_true hq
  have hk : Keeps s.start (fifoPush q x s.start) := keeps_fifoPush q x s.start
  obtain ⟨hblk, hout⟩ := fifoPush_eq q x s.start f hf
  refine ⟨completes_of ha hk.cfg hk.inbox hblk (pushResult_eq (s := s.start) hf) hout, _, exec_admitted ha, fun i d v hd hv => ?_⟩
  have hp : (fifoPush q x s.start).blk.pending = triggered s.cfg (pushRaises q f x) s.blk.pending := by
    rw [hblk, pushBlock_eq s.start.cfg s.start.blk q f x hf]; rfl
  rw [← setBy_eq_any, ← triggered_of_source (pushRaises q f x) hd hv, ← hp]
  rfl

/-- Settles O45: the pop leaves `popBlock`, whose flags are those that `popRaises` triggers. -/
theorem fifoPopTakesHeadOrUnderflows : Obligations.FifoPopTakesHeadOrUnderflows := by
  intro s q f hq hf
  have ha : s.cfg.admits (.fifoPop q) = true := decide_eq_true hq
  have hk : Keeps s.start (fifoPop q s.start) := keeps_fifoPop q s.start
  obtain ⟨hblk, hout⟩ := fifoPop_eq q s.start f hf
  refine ⟨completes_of ha hk.cfg hk.inbox hblk (popResult_eq (s := s.start) hf) hout, _, exec_admitted ha, fun i d v hd hv => ?_⟩
  have hp : (fifoPop q s.start).blk.pending = triggered s.cfg (popRaises q f) s.blk.pending := by
    rw [hblk]; exact popBlock_pending s.cfg s.blk q f
  rw [← setBy_eq_any, ← triggered_of_source (popRaises q f) hd hv, ← hp]
  rfl

/-! ## FIFO_FLUSH (R118) -/

section
variable {s : State} {q : Nat} {f : Fifo} (hq : q < s.cfg.fifos.length) (hf : s.blk.fifo[q]? = some f)

include hq hf in
theorem exec_fifoFlush : exec (.fifoFlush q) s = .next (s.start.refitted q f (settledFifo [] f.cap f.wm)) :=
  have ha : s.cfg.admits (.fifoFlush q) = true := decide_eq_true hq
  (exec_admitted ha).trans (congrArg Host.Outcome.next (fifoFlush_eq q s.start f hf))

include hf in
/-- A second flush refits the empty FIFO to itself. -/
theorem fifoFlush_of_flushed : bodyOf (.fifoFlush q) (s.start.refitted q f (settledFifo [] f.cap f.wm)).start =
    (s.start.refitted q f (settledFifo [] f.cap f.wm)).start := by
  have hg : (s.start.refitted q f (settledFifo [] f.cap f.wm)).start.blk.fifo[q]? = some (settledFifo [] f.cap f.wm) :=
    afterFifo_getElem? hf s.cfg _ []
  exact (fifoFlush_eq q _ _ hg).trans (refitted_self hg)
end

/-- Settles O46: the flush refits the FIFO to no items, and a second one refits it to itself. -/
theorem fifoFlushEmpties : Obligations.FifoFlushEmpties := by
  intro s q f hq hf b
  have ha : s.cfg.admits (.fifoFlush q) = true := decide_eq_true hq
  refine ⟨completes_of_refitted ha (fifoFlush_eq q s.start f hf), fun t ht => ?_⟩
  rw [exec_fifoFlush hq hf] at ht
  cases ht
  exact completes_of_body (s := s.start.refitted q f (settledFifo [] f.cap f.wm)) ha (fifoFlush_of_flushed hf) rfl rfl

/-! ## FIFO_SET_CAPACITY (R119) -/

/-- The check of the capacity, in the terms of the FIFO's descriptor. -/
theorem badCapacity_iff {c : Cfg} {q : Nat} {d : FifoDesc} (hd : c.fifos[q]? = some d) (n : Nat) :
    (n < 1 ∨ (needsPow2 c q = true ∧ isPow2 n = false)) ↔ n < 1 ∨ (d.pow2 = true ∧ ∀ e, n ≠ 2 ^ e) := by
  have hp : needsPow2 c q = d.pow2 := by unfold needsPow2; rw [hd]
  rw [hp, ← Bool.not_eq_true, isPow2_iff, not_exists]

section
variable {s : State} {q n : Nat} {f : Fifo} {d : FifoDesc}

theorem fifoSetCapacity_same (hf : s.blk.fifo[q]? = some f) : fifoSetCapacity q f.cap s = s := by
  unfold fifoSetCapacity; rw [hf]; exact if_pos rfl

/-- A new capacity is refused with a diagnostic while an enable is set, or when it is not allowed. -/
theorem fifoSetCapacity_refused (hd : s.cfg.fifos[q]? = some d) (hf : s.blk.fifo[q]? = some f) (hn : n ≠ f.cap)
    (h : (s.blk.txEn = true ∨ s.blk.rxEn = true) ∨ (n < 1 ∨ (d.pow2 = true ∧ ∀ e, n ≠ 2 ^ e))) :
    ∃ g, fifoSetCapacity q n s = s.diag g := by
  rw [← badCapacity_iff hd n, ← Bool.or_eq_true] at h
  unfold fifoSetCapacity; rw [hf]; dsimp only
  rw [if_neg hn]
  rcases em ((s.blk.txEn || s.blk.rxEn) = true) with he | he
  · exact ⟨_, if_pos he⟩
  · exact ⟨_, (if_neg he).trans (if_pos (h.resolve_left he))⟩

/-- An allowed capacity is set with both enables clear. -/
theorem fifoSetCapacity_set (hd : s.cfg.fifos[q]? = some d) (hf : s.blk.fifo[q]? = some f) (hn : n ≠ f.cap)
    (htx : s.blk.txEn = false) (hrx : s.blk.rxEn = false) (h1 : 1 ≤ n) (hp : d.pow2 = true → ∃ e, n = 2 ^ e) :
    fifoSetCapacity q n s = s.refitted q f (settledFifo (keptItems f n) n (min f.wm n)) := by
  have hb : ¬ (n < 1 ∨ (needsPow2 s.cfg q = true ∧ isPow2 n = false)) := by
    rw [badCapacity_iff hd n]
    rintro (h | ⟨h, hne⟩)
    · omega
    · obtain ⟨e, he⟩ := hp h
      exact hne e he
  unfold fifoSetCapacity; rw [hf]; dsimp only
  rw [if_neg hn, if_neg (by simp [htx, hrx]), if_neg hb]
  exact refit_eq q f _ n (min f.wm n) s hf
end

/-- Settles O47: the three ways through FIFO_SET_CAPACITY. -/
theorem fifoSetCapacityCases : Obligations.FifoSetCapacityCases := by
  intro s q n f d hd hf
  have ha : s.cfg.admits (.fifoSetCapacity q n) = true := decide_eq_true (List.getElem?_eq_some_iff.1 hd).1
  have refused (hn : n ≠ f.cap) (h : (s.blk.txEn = true ∨ s.blk.rxEn = true) ∨ (n < 1 ∨ (d.pow2 = true ∧ ∀ e, n ≠ 2 ^ e))) :
      Completes (.fifoSetCapacity q n) s s.blk .none [] := by
    obtain ⟨g, hg⟩ := fifoSetCapacity_refused (s := s.start) hd hf hn h
    exact completes_of_body ha hg rfl rfl
  refine ⟨fun hn => ?_, fun hn he => refused hn (.inl he), fun hn hb => refused hn (.inr hb), fun hn htx hrx h1 hp => ?_⟩
  · subst hn
    exact completes_of_body ha (fifoSetCapacity_same (s := s.start) hf) rfl rfl
  · exact completes_of_refitted ha (fifoSetCapacity_set (s := s.start) hd hf hn htx hrx h1 hp)

/-! ## FIFO_SET_WATERMARK (R120) -/

/-- Settles O48: the FIFO is settled again with the new watermark, and its state depends on items and capacity alone. -/
theorem fifoSetWatermarkClamps : Obligations.FifoSetWatermarkClamps := by
  intro s q n f hq hf hc x
  have hx : settledFifo f.items f.cap (min n f.cap) = x := by
    simp only [x, settledFifo_eq, Fifo.st_of_consistent hc]; rfl
  have hb := fifoSetWatermark_eq q n s.start f hf
  rw [hx] at hb
  exact completes_of_refitted (decide_eq_true hq) hb

/-! ## Every sequence of primitives (R121) -/

/-- What a FIFO primitive can do to the FIFOs and to the architectural trace: nothing, or one FIFO is settled with contents that fit. -/
inductive FifoTurn (s t : State) : Prop where
  | kept (fifo : t.blk.fifo = s.blk.fifo) (out : outputs t.trace = outputs s.trace)
  | refitted (q : Nat) (f : Fifo) (items : List Byte) (cap wm : Nat)
      (fits : FifosOk s.blk → items.length ≤ cap ∧ wm ≤ cap ∧ 1 ≤ cap)
      (fifo : t.blk.fifo = s.blk.fifo.set q (settledFifo items cap wm))
      (out : outputs t.trace = outputs s.trace ++ fifoNotice q f (settledFifo items cap wm))

theorem FifoTurn.refl (s : State) : FifoTurn s s := .kept rfl rfl

theorem FifoTurn.ofDiag (s : State) (d : Diag) : FifoTurn s (s.diag d) := .kept rfl (by simp [outputs_append])

theorem FifoTurn.ofRaiseDiag (s : State) (e : IEvent) (d : Diag) : FifoTurn s ((raise e s).diag d) :=
  .kept rfl (by simp [raise, outputs_append])

theorem FifoTurn.ofRefit {s : State} {q : Nat} {f : Fifo} {items : List Byte} {cap wm : Nat} (h : s.blk.fifo[q]? = some f)
    (fits : FifosOk s.blk → items.length ≤ cap ∧ wm ≤ cap ∧ 1 ≤ cap) : FifoTurn s (refit q f items cap wm s) := by
  rw [refit_eq q f items cap wm s h]
  exact .refitted q f items cap wm fits rfl (by rw [outputs_append, outputs_notice])

theorem FifoTurn.returning {s t : State} (h : FifoTurn s t) (r : Result) : FifoTurn s (t.returning r) := by
  cases h with
  | kept fifo out => exact .kept fifo out
  | refitted q f items cap wm fits fifo out => exact .refitted q f items cap wm fits fifo out

theorem fifoTurn_fifoPush (q : Nat) (x : Byte) (s : State) : FifoTurn s (fifoPush q x s) := by
  rcases h : s.blk.fifo[q]? with _ | f
  · rw [fifoPush_absent q x s h]; exact .refl s
  · rcases Nat.lt_or_ge f.items.length f.cap with hr | hf
    · rw [fifoPush_room q x s f h hr]
      refine .refitted q f (f.items ++ [x]) f.cap f.wm (fun g => ?_) rfl (by rw [outputs_append, outputs_notice])
      obtain ⟨-, hw, hc⟩ := g.at h
      exact ⟨by simpa using hr, hw, hc⟩
    · rw [fifoPush_full q x s f h hf]; exact .ofRaiseDiag s _ _

theorem fifoTurn_fifoPop (q : Nat) (s : State) : FifoTurn s (fifoPop q s) := by
  rcases h : s.blk.fifo[q]? with _ | f
  · rw [fifoPop_absent q s h]; exact .refl s
  · rcases hi : f.items with _ | ⟨b, rest⟩
    · rw [fifoPop_empty q s f h hi]; exact .ofRaiseDiag s _ _
    · unfold fifoPop; rw [h]; simp only [hi]
      refine .ofRefit h (fun g => ?_)
      obtain ⟨hl, hw, hc⟩ := g.at h
      rw [hi, List.length_cons] at hl
      exact ⟨by omega, hw, hc⟩

theorem fifoTurn_fifoFlush (q : Nat) (s : State) : FifoTurn s (fifoFlush q s) := by
  unfold fifoFlush
  split
  · exact .refl s
  · rename_i f h
    exact .ofRefit h (fun g => ⟨Nat.zero_le _, (g.at h).2⟩)

theorem fifoTurn_fifoSetWatermark (q n : Nat) (s : State) : FifoTurn s (fifoSetWatermark q n s) := by
  unfold fifoSetWatermark
  split
  · exact .refl s
  · rename_i f h
    refine .ofRefit h (fun g => ?_)
    obtain ⟨hl, -, hc⟩ := g.at h
    exact ⟨hl, Nat.min_le_right n f.cap, hc⟩

theorem keptItems_length (f : Fifo) (n : Nat) : (keptItems f n).length ≤ n := by
  unfold keptItems; split
  · exact Nat.zero_le n
  · omega

theorem fifoTurn_fifoSetCapacity (q n : Nat) (s : State) : FifoTurn s (fifoSetCapacity q n s) := by
  rcases fifoSetCapacity_cases q n s with h | ⟨d, h⟩ | ⟨f, hf, -, -, hn, h⟩ <;> rw [h]
  · exact .refl s
  · exact .ofDiag s d
  · exact .ofRefit hf (fun _ => ⟨keptItems_length f n, Nat.min_le_right f.wm n, hn⟩)

theorem fifoTurn_body {i : Instr} (hi : isFifoPrimitive i = true) (s : State) : FifoTurn s (bodyOf i s) := by
  cases i with
  | fifoPush q x => exact (fifoTurn_fifoPush q x s).returning _
  | fifoPop q => exact (fifoTurn_fifoPop q s).returning _
  | fifoFlush q => exact fifoTurn_fifoFlush q s
  | fifoSetCapacity q n => exact fifoTurn_fifoSetCapacity q n s
  | fifoSetWatermark q n => exact fifoTurn_fifoSetWatermark q n s
  | _ => cases hi

theorem FifoTurn.fifosOk {s t : State} (h : FifoTurn s t) (hs : FifosOk s.blk) : FifosOk t.blk := by
  intro y hy
  cases h with
  | kept fifo _ => exact hs y (fifo ▸ hy)
  | refitted q f items cap wm fits fifo _ =>
    obtain ⟨hl, hw, hc⟩ := fits hs
    rw [fifo] at hy
    rcases List.mem_or_eq_of_mem_set hy with hy | rfl
    · exact hs y hy
    · exact ⟨settledFifo_consistent items cap wm hl hw, hc⟩

theorem fifoNotice_length (q : Nat) (f g : Fifo) : (fifoNotice q f g).length ≤ 1 := by
  unfold fifoNotice noticeTrace; split <;> simp

/-- From an empty trace there is at most one architectural event. -/
theorem FifoTurn.outputs_length {s t : State} (h : FifoTurn s t) (hs : s.trace = []) : (outputs t.trace).length ≤ 1 := by
  cases h with
  | kept _ out => rw [out, hs]; exact Nat.zero_le 1
  | refitted q f items cap wm _ _ out => rw [out, hs]; exact fifoNotice_length q f _

/-- A notification is an architectural event. -/
theorem filter_isNotify_length (l : List Event) : (l.filter isNotify).length ≤ (outputs l).length := by
  unfold outputs
  rw [← List.countP_eq_length_filter, ← List.countP_eq_length_filter]
  refine List.countP_mono_left (fun e _ he => ?_)
  cases e with
  | diag d => cases he
  | _ => rfl

/-- What every instruction of a list keeps, the list keeps. -/
theorem runAll_keeps {P : State → Prop} {l : List Instr} (h : ∀ i ∈ l, ∀ s t, exec i s = .next t → P s → P t) {s t : State}
    (hs : P s) (hr : runAll l s = some t) : P t := by
  induction l generalizing s with
  | nil => cases hr; exact hs
  | cons i l ih =>
    unfold runAll at hr
    split at hr
    · rename_i u hu
      exact ih (fun j hj => h j (List.mem_cons_of_mem i hj)) (h i List.mem_cons_self s u hu hs) hr
    · cases hr

theorem fifosOk_exec {i : Instr} (hi : isFifoPrimitive i = true) {s t : State} (h : exec i s = .next t) (hs : FifosOk s.blk) :
    FifosOk t.blk := by
  obtain ⟨-, rfl⟩ := exec_next h
  exact (fifoTurn_body hi s.start).fifosOk hs

/-- What R25 says of one FIFO, with the classification of R113 spelled out. -/
theorem Fifo.classified {f : Fifo} (h : f.consistent = true) (hc : 1 ≤ f.cap) :
    (f.st = .empty ↔ f.items = []) ∧ (f.st = .full ↔ f.cap ≤ f.items.length) ∧
      (f.st = .ready ↔ f.items ≠ [] ∧ f.items.length < f.cap) := by
  rw [Fifo.st_of_consistent h, fifoClass_eq_empty_iff, fifoClass_eq_full_iff hc, fifoClass_eq_ready_iff, ne_eq,
    List.length_eq_zero_iff]
  exact ⟨Iff.rfl, Iff.rfl, Iff.rfl⟩

section
variable {s : State} {q : Nat} {f : Fifo} (hq : q < s.cfg.fifos.length) (hf : s.blk.fifo[q]? = some f)
include hq hf

theorem exec_fifoPush_full (x : Byte) (h : f.cap ≤ f.items.length) :
    ∃ t, exec (.fifoPush q x) s = .next t ∧ t.blk.fifo[q]? = some f ∧ t.result = .pushOverflow := by
  have hb := fifoPush_full q x s.start f hf h
  refine ⟨_, exec_admitted (decide_eq_true hq), ?_, (pushResult_eq (s := s.start) hf).trans (if_pos h)⟩
  exact (congrArg (·.blk.fifo[q]?) hb).trans hf

theorem exec_fifoPop_empty (h : f.items = []) :
    ∃ t b, exec (.fifoPop q) s = .next t ∧ t.blk.fifo[q]? = some f ∧ t.result = .popUnderflow b := by
  have hb := fifoPop_empty q s.start f hf h
  refine ⟨_, _, exec_admitted (decide_eq_true hq), ?_, (popResult_eq (s := s.start) hf).trans (if_pos h)⟩
  exact (congrArg (·.blk.fifo[q]?) hb).trans hf

theorem exec_fifoFlush_twice :
    ∃ t u, exec (.fifoFlush q) s = .next t ∧ exec (.fifoFlush q) t = .next u ∧ u = { t with trace := [] } :=
  ⟨_, _, exec_fifoFlush hq hf, exec_admitted (decide_eq_true hq), fifoFlush_of_flushed hf⟩
end

/-- Settles O49: R25 by induction over the sequence, the refused push and pop and the second flush by their equations, and the
notifications from what a primitive can emit. -/
theorem fifoPropertiesHoldForEverySequence : Obligations.FifoPropertiesHoldForEverySequence := by
  refine ⟨fun l s t hl hs hr f hf => ?_, fun s q f x hs hq hf => ?_, fun i s t hi h => ?_⟩
  · have ht : FifosOk t.blk := runAll_keeps (P := fun u => FifosOk u.blk) (fun i hi _ _ h => fifosOk_exec (hl i hi) h) hs hr
    obtain ⟨hcon, hcap⟩ := ht f hf
    obtain ⟨hlen, hwm, -⟩ := (consistent_iff f).1 hcon
    obtain ⟨hempty, hfull, hready⟩ := Fifo.classified hcon hcap
    exact ⟨hlen, hwm, Fifo.st_of_consistent hcon, hempty, hfull, hready, Fifo.wmx_of_consistent hcon⟩
  · obtain ⟨hcon, hcap⟩ := hs f (List.mem_of_getElem? hf)
    obtain ⟨hempty, hfull, -⟩ := Fifo.classified hcon hcap
    exact ⟨fun h => exec_fifoPush_full hq hf x (hfull.1 h), fun h => exec_fifoPop_empty hq hf (hempty.1 h), exec_fifoFlush_twice hq hf⟩
  · obtain ⟨-, rfl⟩ := exec_next h
    exact (filter_isNotify_length _).trans ((fifoTurn_body hi s.start).outputs_length rfl)

end Sys2Proof.Machine
end

section
/-! PROOFS. The statements of 43_peripheral.md: the receive and transmit paths, FLUSH, the timers and the output signals. -/

namespace Sys2Proof.Machine

/-! ## How a completion and its flags are shown (41_interrupts.md R103) -/

/-- The outcome of a primitive that keeps what every operation keeps, from the block and the events it leaves. -/
theorem completes_of_keeps {i : Instr} {s : State} {b : Block} {out : List Event} (ha : s.cfg.admits i = true)
    (hk : Keeps s.start (bodyOf i s.start)) (hb : (bodyOf i s.start).blk = b) (ho : outputs (bodyOf i s.start).trace = out) :
    Completes i s b .none out :=
  completes_of ha hk.cfg hk.inbox hb hk.result ho

/-- Of a block whose flags the events `es` set, the flag of a source is as before, or set by one of them. -/
theorem flag_of_triggered {c : Cfg} {b b' : Block} {es : List IEvent} (h : b'.pending = triggered c es b.pending) {n : Nat}
    {d : SourceDesc} {v : Bool} (hd : c.sources[n]? = some d) (hv : b.pending[n]? = some v) :
    b'.pending[n]? = some (v || d.triggers.any (fun e => decide (e ∈ es))) := by
  rw [h, triggered_of_source es hd hv, setBy_eq_any]

/-- Recompute leaves the flag of a source that is not AutoClear (R101). -/
theorem recomputed_pending_of_ne {c : Cfg} {n : Nat} {d : SourceDesc} (hd : c.sources[n]? = some d) (hc : d.clear ≠ .autoClear)
    (b : Block) : (Block.recomputed c b).pending[n]? = b.pending[n]? := by
  have h : (Block.recomputed c b).pending[n]? = (b.pending[n]?).map (fun p => p && !(c.sources[n]?).any (autoClears b)) :=
    clearAuto_getElem? b c.sources b.pending n
  have ha : autoClears b d = false := by simp [autoClears_eq, hc]
  rw [h, hd, Option.any_some, ha]
  cases b.pending[n]? <;> simp

/-- The flags after a primitive whose events are `es` (R103). -/
theorem Completes.flags {i : Instr} {s : State} {b : Block} {res : Result} {out : List Event} {es : List IEvent}
    (h : Completes i s b res out) (hp : b.pending = triggered s.cfg es s.blk.pending) :
    ∃ t, exec i s = .next t ∧ ∀ (n : Nat) (d : SourceDesc) (v : Bool), s.cfg.sources[n]? = some d → s.blk.pending[n]? = some v →
      t.blk.pending[n]? = some (v || d.triggers.any (fun e => decide (e ∈ es))) := by
  obtain ⟨t, ht, -, -, rfl, -, -⟩ := h
  exact ⟨t, ht, fun n d v hd hv => flag_of_triggered hp hd hv⟩

/-- The flags after an entry point whose events are `es`, of sources that recompute leaves (R103, R101). -/
theorem Completes.flags_recomputed {i : Instr} {s : State} {b : Block} {res : Result} {out : List Event} {es : List IEvent}
    (h : Completes i s (Block.recomputed s.cfg b) res out) (hp : b.pending = triggered s.cfg es s.blk.pending) :
    ∃ t, exec i s = .next t ∧ ∀ (n : Nat) (d : SourceDesc) (v : Bool), s.cfg.sources[n]? = some d → d.clear ≠ .autoClear →
      s.blk.pending[n]? = some v → t.blk.pending[n]? = some (v || d.triggers.any (fun e => decide (e ∈ es))) := by
  obtain ⟨t, ht, -, -, hb, -, -⟩ := h
  refine ⟨t, ht, fun n d v hd hc hv => ?_⟩
  rw [hb, recomputed_pending_of_ne hd hc]
  exact flag_of_triggered hp hd hv

/-! ## RX_BYTE (43_peripheral.md R124, R125) -/

/-- The FIFO of a role is the first one with that role. -/
theorem fifoOf_eq_some_iff {c : Cfg} {r : Role} {q : Nat} : fifoOf c r = some q ↔
    ∃ d, c.fifos[q]? = some d ∧ d.role = r ∧ ∀ p e, p < q → c.fifos[p]? = some e → e.role ≠ r := by
  simp only [fifoOf, List.findIdx?_eq_some_iff_getElem, decide_eq_true_eq]
  constructor
  · rintro ⟨hq, hr, hfirst⟩
    refine ⟨_, List.getElem?_eq_getElem hq, hr, fun p e hp he => ?_⟩
    obtain ⟨_, rfl⟩ := List.getElem?_eq_some_iff.1 he
    exact hfirst p hp
  · rintro ⟨d, hd, hr, hfirst⟩
    obtain ⟨hq, rfl⟩ := List.getElem?_eq_some_iff.1 hd
    exact ⟨hq, hr, fun p hp => hfirst p _ hp (List.getElem?_eq_getElem (hp.trans hq))⟩

/-- A push sets the flags of the events `pushRaises` (42_fifo.md R116). -/
theorem pushBlock_pending {c : Cfg} {b : Block} {q : Nat} {f : Fifo} (h : b.fifo[q]? = some f) (x : Byte) :
    (pushBlock c b q f x).pending = triggered c (pushRaises q f x) b.pending := by
  rw [pushBlock_eq c b q f x h]

/-- Settles O50: the receive path drops the byte or is a push, and recompute follows. -/
theorem rxBytePushesOrDrops : Obligations.RxBytePushesOrDrops := by
  intro s x
  refine ⟨fun h => ?_, fun q f he hq hf => ?_, fun r q => fifoOf_eq_some_iff⟩
  · exact completes_diag_recomputed rfl (congrArg recompute (rxPath_drop x s.start h))
  · obtain ⟨hb, ho⟩ := fifoPush_eq q x s.start f hf
    rw [← rxPath_push x s.start q he hq] at hb ho
    have h := completes_recompute (i := .rxByte x) rfl rfl (keeps_rxPath x s.start) hb ho
    exact ⟨h, h.flags_recomputed (pushBlock_pending hf x)⟩

/-! ## TX_BYTE and TX_ENABLE (R126 to R128) -/

theorem txByte_enabled {s : State} (h : s.blk.txEn = true) (x : Byte) : txByte x s = deliver x s := by
  unfold txByte; rw [if_pos h]

theorem txByte_queued {s : State} {q : Nat} (h : s.blk.txEn = false) (hq : fifoOf s.cfg .tx = some q) (x : Byte) :
    txByte x s = fifoPush q x s := by
  unfold txByte; rw [h, hq]; rfl

theorem txByte_lost {s : State} (h : s.blk.txEn = false) (hq : fifoOf s.cfg .tx = none) (x : Byte) :
    txByte x s = s.diag (.txDropped x) := by
  unfold txByte; rw [h, hq]; rfl

/-- With transmit enabled the byte goes where a drain would hand it. -/
theorem completes_txByte_handed {s : State} {line : Bool} {into : Into} (he : s.blk.txEn = true) (h : Handed s.start line into)
    (x : Byte) :
    Completes (.txByte x) s
      { s.blk with fifo := handedFifos into [x] s.blk.fifo, pending := triggered s.cfg (into.raises x) s.blk.pending }
      .none (into.events x ++ if line then [.transmit x] else []) := by
  obtain ⟨hb, ho, -⟩ := deliver_handed h x
  rw [← txByte_enabled (s := s.start) he x] at hb ho
  exact completes_of_keeps rfl (keeps_txByte x s.start) hb ho

/-- Settles O51: an enabled byte is handed to the line, to nobody or to the rx FIFO; a disabled one is pushed or lost. -/
theorem txByteSendsLoopsOrQueues : Obligations.TxByteSendsLoopsOrQueues := by
  intro s x
  refine ⟨fun he hl => ?_, fun he hl hd => ?_, fun q f he hl hr hq hf => ?_, fun q f he hq hf => ?_, fun he hq => ?_⟩
  · have h := completes_txByte_handed he (.line hl) x
    rwa [Into.raises_none, triggered_nil] at h
  · have h := completes_txByte_handed he (.lost hl hd) x
    rwa [Into.raises_none, triggered_nil] at h
  · rw [pushBlock_eq s.cfg s.blk q f x hf]
    exact completes_txByte_handed he (.looped q f hl hr hq hf) x
  · obtain ⟨hb, ho⟩ := fifoPush_eq q x s.start f hf
    rw [← txByte_queued (s := s.start) he hq x] at hb ho
    exact completes_of_keeps rfl (keeps_txByte x s.start) hb ho
  · exact completes_of_body (i := .txByte x) (s := s) rfl (txByte_lost (s := s.start) he hq x) rfl rfl

theorem txEnable_rise {s : State} (h : s.blk.txEn = false) : txEnable true s = txDrain (s.setTxEn true) := by
  unfold txEnable; rw [h]; rfl

theorem txEnable_of_not_rise {s : State} {b : Bool} (h : ¬ (s.blk.txEn = false ∧ b = true)) : txEnable b s = s.setTxEn b := by
  unfold txEnable
  exact if_neg (by simpa using h)

/-- Settles O52: a rise sets the bit and runs the body of TX_DRAIN, anything else only writes the bit. -/
theorem txEnableDrainsOnRise : Obligations.TxEnableDrainsOnRise := by
  refine fun s b => ⟨fun he hb => ?_, fun h => ?_⟩
  · subst hb
    exact ⟨_, (exec_admitted rfl).trans (congrArg Host.Outcome.next (txEnable_rise (s := s.start) he)), exec_admitted rfl⟩
  · exact completes_of_body (i := .txEnable b) (s := s) rfl (txEnable_of_not_rise (s := s.start) h) rfl rfl

/-! ## TX_DRAIN (R129, R170) -/

/-- The tx FIFO is in the block, or nothing is queued. -/
theorem txFifo_cases (c : Cfg) (b : Block) : (∃ q f, fifoOf c .tx = some q ∧ b.fifo[q]? = some f) ∨ txItems c b = [] := by
  unfold txItems
  rcases fifoOf c .tx with _ | q
  · exact .inr rfl
  · rcases h : b.fifo[q]? with _ | f
    · exact .inr (by simp only [h])
    · exact .inl ⟨q, f, rfl, h⟩

theorem txDrain_at {s : State} {q : Nat} {f : Fifo} (hq : fifoOf s.cfg .tx = some q) (hf : s.blk.fifo[q]? = some f) :
    txDrain s = drainLoop q f.items.length s := by
  unfold txDrain; rw [hq]; dsimp only; rw [hf]

theorem txDrain_idle {s : State} (h : txItems s.cfg s.blk = []) : txDrain s = s := by
  unfold txDrain
  split
  · rfl
  · rename_i q hq
    split
    · rfl
    · rename_i f hf
      rw [txItems_at hf hq] at h
      rw [h]; rfl

theorem completes_txDrain_idle {s : State} (h : txItems s.cfg s.blk = []) : Completes .txDrain s s.blk .none [] :=
  completes_of_body (i := .txDrain) (s := s) rfl (txDrain_idle (s := s.start) h) rfl rfl

/-- The whole outcome of TX_DRAIN where the tx FIFO is in the block. -/
theorem completes_txDrain {s : State} {q : Nat} {f : Fifo} {line : Bool} {into : Into} (hq : fifoOf s.cfg .tx = some q)
    (hf : s.blk.fifo[q]? = some f) (hh : Handed s.start line into) :
    Completes .txDrain s
      { s.blk with
        fifo := handedFifos into f.items (s.blk.fifo.set q (drainedFifo f))
        pending := triggered s.cfg (drainRaises q f into f.items) s.blk.pending }
      .none (drainOutputs q line f into f.items) := by
  obtain ⟨hb, ho⟩ := drainLoop_eq q f.items.length s.start f line into hq hf le_rfl hh
  rw [← txDrain_at (s := s.start) hq hf] at hb ho
  exact completes_of_keeps rfl (keeps_txDrain s.start) hb ho

/-! ### The bytes that reach the line -/

/-- A transmitted byte is an architectural event. -/
theorem sentBytes_outputs (l : List Event) : sentBytes (outputs l) = sentBytes l := by
  unfold sentBytes outputs
  rw [List.filterMap_filter]
  refine List.filterMap_congr (fun e _ => ?_)
  cases e <;> rfl

/-- Handing a byte to a FIFO sends nothing to the line. -/
theorem sentBytes_handed (into : Into) (x : Byte) : sentBytes (into.events x) = [] := by
  rcases into with _ | ⟨r, g⟩
  · rfl
  · rw [Into.events_some]; unfold pushEvents
    split
    · rfl
    · exact sentBytes_notice r g _

/-- A drain sends all its bytes in order, or none. -/
theorem sentBytes_drainOutputs (q : Nat) (line : Bool) (f : Fifo) (into : Into) (l : List Byte) :
    sentBytes (drainOutputs q line f into l) = if line then l else [] := by
  induction l generalizing f into with
  | nil => cases line <;> rfl
  | cons x rest ih =>
    unfold drainOutputs
    rw [sentBytes_append, sentBytes_notice, sentBytes_append, sentBytes_handed, sentBytes_append, ih]
    cases line <;> rfl

theorem drainedFifo_items (f : Fifo) : (drainedFifo f).items = [] := by
  unfold drainedFifo; split
  · assumption
  · rfl

/-- Settles O53: the whole outcome is that of the drain loop with the line as its only target. -/
theorem txDrainSendsInOrder : Obligations.TxDrainSendsInOrder := by
  intro s hl
  have hline : Handed s.start true none := .line hl
  refine ⟨?_, completes_txDrain_idle, fun q f hq hf => ?_⟩
  · have hempty : txItems s.cfg (txDrain s.start).blk = [] := txDrain_empties s.start
    have hquiet := (quiet_txDrain s.start).pending
    rcases txFifo_cases s.cfg s.blk with ⟨q, f, hq, hf⟩ | h
    · obtain ⟨t, ht, hc, hi, hb, -, ho⟩ := completes_txDrain hq hf hline
      obtain ⟨-, rfl⟩ := exec_next ht
      refine ⟨_, ht, ?_, hempty, fun p hp => ?_, hquiet, hc, hi, ?_⟩
      · rw [← sentBytes_outputs, ho, sentBytes_drainOutputs, txItems_at hf hq]; rfl
      · have hne : q ≠ p := fun e => hp (e ▸ hq)
        rw [hb]; exact List.getElem?_set_ne hne
      · rw [hb]
    · have hs : txDrain s.start = s.start := txDrain_idle (s := s.start) h
      refine ⟨s.start, (exec_admitted rfl).trans (congrArg Host.Outcome.next hs), ?_, h, fun _ _ => rfl, fun _ hn => hn, rfl, rfl, rfl⟩
      rw [h]; rfl
  · have h := completes_txDrain hq hf hline
    exact ⟨h, h.flags rfl⟩

/-! ### Into the rx FIFO -/

/-- A FIFO takes the pushed bytes as far as they fit, and keeps its capacity and watermark (42_fifo.md R116). -/
theorem foldl_pushedFifo (l : List Byte) (f : Fifo) (h : f.items.length ≤ f.cap) :
    (l.foldl pushedFifo f).items = (f.items ++ l).take f.cap ∧ (l.foldl pushedFifo f).cap = f.cap ∧
      (l.foldl pushedFifo f).wm = f.wm := by
  induction l generalizing f with
  | nil => exact ⟨by rw [List.append_nil, List.take_of_length_le h]; rfl, rfl, rfl⟩
  | cons x l ih =>
    rw [List.foldl_cons]
    rcases Nat.lt_or_ge f.items.length f.cap with hroom | hfull
    · have hp : pushedFifo f x = settledFifo (f.items ++ [x]) f.cap f.wm := if_neg (by omega)
      have hlen : (settledFifo (f.items ++ [x]) f.cap f.wm).items.length ≤ f.cap := by
        rw [settledFifo_eq, List.length_append]; exact hroom
      obtain ⟨hi, hc, hw⟩ := ih _ hlen
      rw [hp]
      exact ⟨by rw [hi, settledFifo_eq, List.append_assoc]; rfl, hc, hw⟩
    · have hp : pushedFifo f x = f := if_pos hfull
      obtain ⟨hi, hc, hw⟩ := ih f h
      rw [hp]
      refine ⟨?_, hc, hw⟩
      rw [hi, List.take_append_of_le_length hfull, List.take_append_of_le_length hfull]

/-- In loopback, the rx FIFO after the drain: the bytes that fit while receive is enabled, else as it was. -/
theorem rxFifo_of_drained {s : State} (hl : s.blk.loopOn = true) {r q : Nat} {f g : Fifo} (hr : fifoOf s.cfg .rx = some r)
    (hg : s.blk.fifo[r]? = some g) (hfit : g.items.length ≤ g.cap) (hq : fifoOf s.cfg .tx = some q) (hf : s.blk.fifo[q]? = some f) :
    ∃ t g', exec .txDrain s = .next t ∧ t.blk.fifo[r]? = some g' ∧
      g'.items = (if s.blk.rxEn then (g.items ++ f.items).take g.cap else g.items) ∧ g'.cap = g.cap ∧ g'.wm = g.wm ∧
      txItems s.cfg t.blk = [] ∧ sentBytes t.trace = if s.cfg.loopbackAlsoTransmits then f.items else [] := by
  have hempty : txItems s.cfg (txDrain s.start).blk = [] := txDrain_empties s.start
  have hother : (s.blk.fifo.set q (drainedFifo f))[r]? = some g := by
    have hne : q ≠ r := fun e => fifoOf_rx_ne_tx s.cfg r hr (e ▸ hq)
    rw [List.getElem?_set_ne hne]; exact hg
  rcases he : s.blk.rxEn with _ | _
  · obtain ⟨t, ht, -, -, hb, -, ho⟩ := completes_txDrain hq hf (.lost hl (.inl he))
    obtain ⟨-, rfl⟩ := exec_next ht
    refine ⟨_, g, ht, ?_, rfl, rfl, rfl, hempty, ?_⟩
    · rw [hb]; exact hother
    · rw [← sentBytes_outputs, ho, sentBytes_drainOutputs]; rfl
  · obtain ⟨t, ht, -, -, hb, -, ho⟩ := completes_txDrain hq hf (.looped r g hl he hr hg)
    obtain ⟨-, rfl⟩ := exec_next ht
    obtain ⟨hi, hc, hw⟩ := foldl_pushedFifo f.items g hfit
    refine ⟨_, f.items.foldl pushedFifo g, ht, ?_, hi, hc, hw, hempty, ?_⟩
    · rw [hb]; exact List.getElem?_set_self (List.getElem?_eq_some_iff.1 hother).1
    · rw [← sentBytes_outputs, ho, sentBytes_drainOutputs]; rfl

/-- Settles O54: the drain loop with the receive path as its target, which takes the bytes or loses them. -/
theorem txDrainLoopsIntoReceive : Obligations.TxDrainLoopsIntoReceive := by
  intro s hl
  refine ⟨fun r g hr hg hfit => ?_, completes_txDrain_idle, fun q f hq hf => ⟨fun hd => ?_, fun r g he hr hg => ?_⟩⟩
  · rcases txFifo_cases s.cfg s.blk with ⟨q, f, hq, hf⟩ | h
    · rw [txItems_at hf hq]
      exact rxFifo_of_drained hl hr hg hfit hq hf
    · obtain ⟨t, ht, -, -, hb, -, ho⟩ := completes_txDrain_idle h
      refine ⟨t, g, ht, hb ▸ hg, ?_, rfl, rfl, hb ▸ h, ?_⟩
      · rw [h, List.append_nil, List.take_of_length_le hfit, ite_self]
      · rw [← sentBytes_outputs, ho, h, ite_self]; rfl
  · have h := completes_txDrain hq hf (.lost hl hd)
    exact ⟨h, h.flags rfl⟩
  · have h := completes_txDrain hq hf (.looped r g hl he hr hg)
    exact ⟨h, h.flags rfl⟩

/-! ## FLUSH (R131) -/

/-- Settles O55: FLUSH is FIFO_FLUSH and recompute; an index out of range leaves recompute alone. -/
theorem flushEmptiesNamedFifo : Obligations.FlushEmptiesNamedFifo := by
  intro s q
  refine ⟨?_, fun hq => ?_⟩
  · intro f hq hf x
    have hflush : flushBody q.toNat s.start = s.start.refitted q.toNat f x :=
      (if_pos hq).trans (fifoFlush_eq q.toNat s.start f hf)
    have hout : outputs (flushBody q.toNat s.start).trace = fifoNotice q.toNat f x := by
      rw [hflush]; exact outputs_notice q.toNat f x
    have h := completes_recompute (i := .flush q) rfl rfl (keepsAll_flushBody q.toNat s.start).toKeeps (congrArg State.blk hflush) hout
    exact ⟨h, h.flags_recomputed rfl⟩
  · exact completes_diag_recomputed rfl (congrArg recompute (if_neg (Nat.not_lt.2 hq)))

/-! ## Timers (R132 to R135) -/

/-- The announcement that an armed firing is void is an architectural event. -/
theorem outputs_voided (t : Nat) (x : Timer) :
    outputs (if x.phase = .armed then [.timerCancel t x.token] else []) = if x.phase = .armed then [.timerCancel t x.token] else [] := by
  split <;> rfl

/-- Settles O56: the equation of TIMER_ARM, whose events are all architectural. -/
theorem timerArmSchedulesNewToken : Obligations.TimerArmSchedulesNewToken := by
  intro s t x ht hx
  obtain ⟨hb, htr⟩ := timerArm_eq t s.start x hx
  refine completes_of_keeps (decide_eq_true ht) (keeps_timerArm t s.start) hb ?_
  show outputs (timerArm t s.start).trace = _
  rw [htr, outputs_append, outputs_append, outputs_voided]
  rfl

/-- Settles O57: the equation of TIMER_CANCEL. -/
theorem timerCancelAdvancesToken : Obligations.TimerCancelAdvancesToken := by
  intro s t x ht hx
  obtain ⟨hb, htr⟩ := timerCancel_eq t s.start x hx
  refine completes_of_keeps (decide_eq_true ht) (keeps_timerCancel t s.start) hb ?_
  show outputs (timerCancel t s.start).trace = _
  rw [htr, outputs_append, outputs_voided]
  rfl

/-- A firing with the token of an armed timer (R135). -/
theorem timerFireBody_live {s : State} {t : Nat} {tok : Token} (ht : t < s.cfg.timers.length)
    (hx : s.blk.timer[t]? = some ⟨.armed, tok⟩) :
    timerFireBody t tok s = raise (.timerFired t) (s.setTimer t ⟨.fired, tok⟩) := by
  unfold timerFireBody
  rw [if_pos ht, hx]
  exact if_pos ⟨rfl, rfl⟩

/-- Any other firing leaves at most a diagnostic (R135, R132). -/
theorem timerFireBody_stale {s : State} {t : Nat} {tok : Token}
    (h : s.blk.timer[t]? ≠ some ⟨.armed, tok⟩ ∨ s.cfg.timers.length ≤ t) :
    timerFireBody t tok s = s ∨ ∃ d, timerFireBody t tok s = s.diag d := by
  unfold timerFireBody
  split
  · rename_i ht
    split
    · exact .inl rfl
    · rename_i x hx
      have hstale : ¬ (x.phase = .armed ∧ x.token = tok) := by
        rintro ⟨hp, rfl⟩
        exact h.elim (fun hne => hne (by rw [hx, ← hp])) (fun hle => by omega)
      exact .inr ⟨_, if_neg hstale⟩
  · exact .inr ⟨_, rfl⟩

/-- Settles O58: a live firing raises its event alone; any other leaves the block to recompute. -/
theorem timerFireOnlyWithLiveToken : Obligations.TimerFireOnlyWithLiveToken := by
  refine fun s t tok => ⟨fun hx ht => ?_, fun h => ?_⟩
  · have hfire := timerFireBody_live (s := s.start) ht hx
    rw [raise_eq] at hfire
    have h := completes_recompute (i := .timerFire t tok) (out := []) rfl rfl
      (keepsAll_timerFireBody t.toNat tok s.start).toKeeps (congrArg State.blk hfire) (by rw [hfire]; rfl)
    obtain ⟨u, hu, hflags⟩ := h.flags_recomputed (es := [.timerFired t.toNat]) rfl
    refine ⟨h, u, hu, fun n d v hd hc hv => ?_⟩
    rw [hflags n d v hd hc hv, ← setBy_eq_any]
    simp [SourceDesc.setBy]
  · rcases timerFireBody_stale (s := s.start) h with hs | ⟨d, hs⟩
    · exact completes_of_body (i := .timerFire t tok) (s := s) rfl (congrArg recompute hs) rfl rfl
    · exact completes_diag_recomputed rfl (congrArg recompute hs)

/-! ## Output signals (R137, R138) -/

/-- SIGNAL_SAMPLE of a signal that the configuration has returns its latched level. -/
theorem exec_signalSample {s : State} {g : BitVec 64} {v : Bool} (hg : g.toNat < s.cfg.signals.length)
    (hv : s.blk.sig[g.toNat]? = some v) : exec (.signalSample g) s = .next { s with trace := [], result := .bit v } := by
  have hs : sampled s.start g.toNat = v := by
    unfold sampled
    rw [List.getD_eq_getElem?_getD]
    exact (if_pos hg).trans (congrArg (·.getD false) hv)
  rw [exec_admitted rfl, ← hs]; rfl

theorem exec_signalSample_absent {s : State} {g : BitVec 64} (hg : s.cfg.signals.length ≤ g.toNat) :
    exec (.signalSample g) s = .next { s with trace := [], result := .bit false } := by
  have hs : sampled s.start g.toNat = false := if_neg (Nat.not_lt.2 hg)
  rw [exec_admitted rfl, ← hs]; rfl

/-- Settles O60: in a settled block the latched level is the value of the expression, which each kind of expression says. -/
theorem signalSampleReturnsLatchedLevel : Obligations.SignalSampleReturnsLatchedLevel := by
  refine fun s g => ⟨fun v hg hv => exec_signalSample hg hv, exec_signalSample_absent, fun d hi hd => hi.settled.sig_eq hd,
    fun d hi hd => ⟨evalSignal s.cfg s.blk d.expr, ?_, fun l L he hL => ?_, fun q p F he hF => ?_, fun b he => ?_, fun n he => ?_⟩⟩
  · exact exec_signalSample (List.getElem?_eq_some_iff.1 hd).1 (hi.settled.sig_eq hd)
  · rw [he]; exact lineLevel_iff hL s.blk
  · rw [he]; exact fifoPred_iff hF p
  · rw [he]; rfl
  · rw [he]; rfl

end Sys2Proof.Machine
end

section
/-! PROOFS. The statements of 60_exceptions.md: every entry point completes, a READ returns a value of the size asked for, and no
descriptor with an agent's code stops a constructed block. -/

namespace Sys2Proof.Machine

/-! ## Values of a size (30_encoding.md R62) -/

theorem trunc_eq_self_of_above {n : Nat} {v : Word} (h : ∀ j, n ≤ j → v.getLsbD j = false) : trunc n v = v := by
  refine BitVec.eq_of_getLsbD_eq fun j _ => ?_
  rw [trunc_getLsbD_any]
  by_cases hj : j < n
  · rw [decide_eq_true hj, Bool.and_true]
  · rw [h j (by omega), Bool.false_and]

theorem trunc_trunc_of_le {m n : Nat} (h : m ≤ n) (v : Word) : trunc n (trunc m v) = trunc m v :=
  trunc_eq_self_of_above fun j hj => by rw [trunc_getLsbD_any, decide_eq_false (by omega), Bool.and_false]

theorem trunc_setWidth_busValue (n : Nat) (x : BitVec 64) :
    trunc (8 * n) ((busValue n x).setWidth 32) = (busValue n x).setWidth 32 :=
  trunc_eq_self_of_above fun j hj => by
    rw [BitVec.getLsbD_setWidth, busValue_getLsbD, decide_eq_false (show ¬ j < 8 * n by omega), Bool.and_false, Bool.and_false]

theorem busValue_busValue (n : Nat) (x : BitVec 64) : busValue n (busValue n x) = busValue n x :=
  busValue_congr fun j hj => by rw [busValue_getLsbD, decide_eq_true hj, Bool.and_true]

/-! ## The operation of an address class (20_memory.md R45, 30_encoding.md R63)

A class that `classify` gives meets what `Cfg.admits` asks of its row, in any configuration. -/

/-- The range that gives an access its class. -/
theorem classify_cases (c : Cfg) (a : Addr) (n : Nat) :
    c.classify a n = .unmapped ∨
      ∃ sp ∈ c.spans, ∃ k < sp.len, c.classify a n = c.accessForm sp.win sp.reg sp.len k n := by
  unfold Cfg.classify
  cases hf : c.spans.find? (·.covers a.toNat) with
  | none => exact .inl rfl
  | some sp =>
    have hcov : sp.covers a.toNat = true := List.find?_some (p := fun x : Span => x.covers a.toNat) hf
    simp only [Span.covers, Bool.and_eq_true, decide_eq_true_eq] at hcov
    exact .inr ⟨sp, List.mem_of_find?_eq_some hf, _, by omega, rfl⟩

/-- A range has the length of its register, and lies in a window only where the block has them. -/
theorem span_register {c : Cfg} {sp : Span} (h : sp ∈ c.spans) :
    sp.len = c.regBytes sp.reg ∧ (sp.win ≠ none → c.hasAlias = true) := by
  obtain ⟨d, hd, hlen, hwin⟩ := mem_spans_iff.1 h
  refine ⟨by simp only [Cfg.regBytes, hd, hlen], fun hne => ?_⟩
  rcases hwin with ⟨hnone, -⟩ | ⟨hal, -⟩
  · exact absurd hnone hne
  · exact hal

/-- The forms of an access to a register (20_memory.md R45). -/
theorem accessForm_cases (c : Cfg) (win : Option Window) (r len k n : Nat) :
    c.accessForm win r len k n = .rejected ∨
      (busSize n = true ∧ n = len ∧ c.accessForm win r len k n = .exact win r) ∨
      (busSize n = true ∧ n < len ∧ k % n = 0 ∧ c.translation = .widen ∧ c.accessForm win r len k n = .narrow win r k) := by
  unfold Cfg.accessForm
  split
  · exact .inl rfl
  · have hsize : busSize n = true := by simpa using ‹¬ busSize n = false›
    split
    · rename_i hexact
      exact .inr (.inl ⟨hsize, hexact.1, rfl⟩)
    · split
      · rename_i hnarrow
        obtain ⟨hlt, hmod, ht⟩ := hnarrow
        exact .inr (.inr ⟨hsize, hlt, hmod, ht, rfl⟩)
      · exact .inl rfl

/-- An exact access has the size of its register, which is a bus size. -/
theorem exact_of_classify {c : Cfg} {a : Addr} {n : Nat} {win : Option Window} {r : Nat} (h : c.classify a n = .exact win r) :
    busSize (c.regBytes r) = true ∧ n = c.regBytes r ∧ (win ≠ none → c.hasAlias = true) := by
  rcases classify_cases c a n with hu | ⟨sp, hs, k, -, hf⟩
  · cases hu.symm.trans h
  · obtain ⟨hlen, hal⟩ := span_register hs
    rw [hf] at h
    rcases accessForm_cases c sp.win sp.reg sp.len k n with hc | ⟨hsize, hn, hc⟩ | ⟨-, -, -, -, hc⟩ <;> cases hc.symm.trans h
    have hbytes := hn.trans hlen
    exact ⟨hbytes ▸ hsize, hbytes, hal⟩

theorem narrow_of_classify {c : Cfg} {a : Addr} {n : Nat} {win : Option Window} {r k : Nat} (h : c.classify a n = .narrow win r k) :
    c.narrowFits r k n = true ∧ (win ≠ none → c.hasAlias = true) := by
  rcases classify_cases c a n with hu | ⟨sp, hs, k', hk, hf⟩
  · cases hu.symm.trans h
  · obtain ⟨hlen, hal⟩ := span_register hs
    rw [hf] at h
    rcases accessForm_cases c sp.win sp.reg sp.len k' n with hc | ⟨-, -, hc⟩ | ⟨hsize, hlt, hmod, ht, hc⟩ <;> cases hc.symm.trans h
    exact ⟨narrowFits_iff.2 ⟨hsize, hlen ▸ hlt, hlen ▸ hk, hmod, ht⟩, hal⟩

/-- Every READ descriptor stands for an operation that the configuration has. -/
theorem admits_decodeRead (c : Cfg) (size : BitVec 8) (a : Addr) : c.admits (c.decodeRead size a) = true := by
  unfold Cfg.decodeRead
  split <;> rename_i h
  case h_1 => exact (exact_of_classify h).1
  case h_2 | h_3 | h_4 =>
    obtain ⟨hsize, -, hal⟩ := exact_of_classify h
    exact Bool.and_eq_true_iff.2 ⟨hsize, hal nofun⟩
  case h_5 => exact (narrow_of_classify h).1
  case h_6 =>
    obtain ⟨hfits, hal⟩ := narrow_of_classify h
    exact Bool.and_eq_true_iff.2 ⟨hfits, hal nofun⟩
  case h_7 | h_8 => exact decide_eq_true h

/-- Every WRITE descriptor stands for an operation that the configuration has: its value is cut to the size of the access. -/
theorem admits_decodeWrite (c : Cfg) (size : BitVec 8) (a : Addr) (x : BitVec 64) : c.admits (c.decodeWrite size a x) = true := by
  have hvalue : decide (trunc (8 * size.toNat) ((busValue size.toNat x).setWidth 32) = (busValue size.toNat x).setWidth 32) = true :=
    decide_eq_true (trunc_setWidth_busValue ..)
  have hreg {r : Nat} (hn : size.toNat = c.regBytes r) : c.fitsReg r ((busValue size.toNat x).setWidth 32) = true := by
    unfold Cfg.fitsReg
    rw [← hn, hvalue]
  unfold Cfg.decodeWrite
  dsimp only
  split <;> rename_i h
  case h_1 =>
    obtain ⟨hsize, hn, -⟩ := exact_of_classify h
    exact Bool.and_eq_true_iff.2 ⟨hsize, hreg hn⟩
  case h_2 | h_3 | h_4 =>
    obtain ⟨hsize, hn, hal⟩ := exact_of_classify h
    exact Bool.and_eq_true_iff.2 ⟨Bool.and_eq_true_iff.2 ⟨hsize, hal nofun⟩, hreg hn⟩
  case h_5 =>
    obtain ⟨hfits, -⟩ := narrow_of_classify h
    exact Bool.and_eq_true_iff.2 ⟨hfits, hvalue⟩
  case h_6 =>
    obtain ⟨hfits, hal⟩ := narrow_of_classify h
    exact Bool.and_eq_true_iff.2 ⟨Bool.and_eq_true_iff.2 ⟨hfits, hal nofun⟩, hvalue⟩
  case h_7 | h_8 => exact Bool.and_eq_true_iff.2 ⟨decide_eq_true h, decide_eq_true (busValue_busValue ..)⟩

/-! ## Agents' descriptors (R140, R143; 30_encoding.md R59) -/

/-- A code of an agent names a row that the configuration admits, whatever the other fields hold. -/
theorem decodeRow_agent (c : Cfg) {op : BitVec 8} (h : op ∈ [0x00#8, 0x01, 0x10, 0x20, 0x30, 0x40, 0x50])
    (size : BitVec 8) (a x : BitVec 64) : ∃ i, c.decodeRow op size a x = some i ∧ c.admits i = true := by
  simp only [List.mem_cons, List.not_mem_nil, or_false] at h
  rcases h with rfl | rfl | rfl | rfl | rfl | rfl | rfl
  · exact ⟨_, rfl, admits_decodeRead c size a⟩
  · exact ⟨_, rfl, admits_decodeWrite c size a x⟩
  all_goals exact ⟨_, rfl, rfl⟩

theorem decode_agent (c : Cfg) {d : Desc} (h : d.op ∈ [0x00#8, 0x01, 0x10, 0x20, 0x30, 0x40, 0x50]) :
    ∃ i, decode c d = .ok i ∧ i.isTransaction = true := by
  obtain ⟨i, hrow, ha⟩ := decodeRow_agent c h d.size d.addr d.data
  have hd := decode_eq_ok_iff.2 ⟨hrow, ha⟩
  have hop : i.opcode = d.op := (decodedIsWellFormed _ _ _ hd).2
  exact ⟨i, hd, List.contains_iff_mem.2 (hop ▸ h)⟩

/-- Settles O10: the descriptor decodes to an entry point that the configuration admits; it answers a next state, the invariant holds
there, and with it the check after the transaction. -/
theorem agentTransactionsNeverStop : Obligations.AgentTransactionsNeverStop := by
  intro s d rest hi hl hop
  obtain ⟨i, hd, htx⟩ := decode_agent s.cfg hop
  obtain ⟨t, hexec, hnext, -⟩ := stepRunsDecodedTransaction.1 s d rest i hi.consistent hl hd htx
  have ht : Inv t := inv_exec (hi.withInbox rest) hexec htx
  obtain ⟨-, rfl⟩ := exec_next hexec
  exact ⟨_, hnext ht.consistent, (body_frame i _).2, ht⟩

/-! ## The value of a READ (R140; 30_encoding.md R62) -/

/-- A field of a register covers no bit above the register's width. -/
theorem not_hits_above {c : Cfg} (hv : validCfg c = true) {r : Nat} {d : RegDesc} (hd : c.regs[r]? = some d) {j : Nat} (hj : d.w ≤ j)
    {f : FieldDesc} (hf : f ∈ d.fields) : ¬ FieldDesc.hits f j := by
  have hin := (laid_of_valid hv (List.mem_of_getElem? hd)).2 f hf
  exact fun ⟨_, hlt⟩ => by omega

/-- A register word of a constructed block has zeros above its width (log 5). -/
theorem regWord_above {s : State} (hi : Inv s) {r : Nat} {d : RegDesc} (hd : s.cfg.regs[r]? = some d) {j : Nat} (hj : d.w ≤ j) :
    (s.blk.reg.getD r 0).getLsbD j = false := by
  rw [List.getD_eq_getElem?_getD]
  cases hw : s.blk.reg[r]? with
  | none => simp
  | some v =>
    have hbit := getLsbD_of_outside (hi.fixed r d v hd hw)
      (storedMask_getLsbD_eq_false fun f hf _ => not_hits_above hi.valid hd hj hf)
    have hreset := (regWidth_of_valid hi.valid (List.mem_of_getElem? hd)).2
    rw [Option.getD_some, hbit, ← hreset, trunc_getLsbD_any, decide_eq_false (by omega), Bool.and_false]

/-- One field of a read replaces that field in the composed word (40_register_file.md R80). -/
theorem readField_word (r : Nat) (be : Word) (p : State × Word) (f : FieldDesc) :
    ∃ x, (readField r be p f).2 = insertField p.2 f.off f.wid x := by
  unfold readField
  split <;> exact ⟨_, rfl⟩

/-- Reading fields leaves a bit that none of them covers, whatever their read actions do. -/
theorem readFields_outside (r : Nat) (be : Word) {l : List FieldDesc} (hw : ∀ f ∈ l, f.wid ≤ 32) {j : Nat}
    (h : ∀ f ∈ l, ¬ FieldDesc.hits f j) (p : State × Word) : (l.foldl (readField r be) p).2.getLsbD j = p.2.getLsbD j := by
  induction l generalizing p with
  | nil => rfl
  | cons f l ih =>
    obtain ⟨x, hx⟩ := readField_word r be p f
    rw [List.foldl_cons, ih (fun g hg => hw g (List.mem_cons_of_mem _ hg)) fun g hg => h g (List.mem_cons_of_mem _ hg), hx,
      insertField_getLsbD _ _ _ _ _ (hw f (List.mem_cons_self ..))]
    exact if_neg (h f (List.mem_cons_self ..))

section
variable {s : State} (hi : Inv s) {r : Nat} (hb : busSize (s.cfg.regBytes r) = true)
include hi hb

/-- A word that keeps the bits which no field of the register covers fits the register. -/
theorem fits_of_outside {v : Word}
    (h : ∀ j, (∀ f ∈ fieldsOf s.cfg r, ¬ FieldDesc.hits f j) → v.getLsbD j = (s.blk.reg.getD r 0).getLsbD j) :
    trunc (8 * s.cfg.regBytes r) v = v := by
  obtain ⟨d, hd⟩ := reg_of_busSize hb
  have hwidth : d.w ≤ 8 * s.cfg.regBytes r := by
    have := (regWidth_of_valid hi.valid (List.mem_of_getElem? hd)).1
    rw [(regBytes_of_valid hi.valid hd).1]
    omega
  refine trunc_eq_self_of_above fun j hj => ?_
  rw [h j fun f hf => not_hits_above hi.valid hd (hwidth.trans hj) (fieldsOf_of hd ▸ hf), regWord_above hi hd (hwidth.trans hj)]

theorem peekReg_fits : trunc (8 * s.cfg.regBytes r) (peekReg s.cfg s.blk r) = peekReg s.cfg s.blk r :=
  fits_of_outside hi hb fun _ hj => peekReg_reserved hi.valid s.blk r hj

theorem readMasked_fits (be : Word) : trunc (8 * s.cfg.regBytes r) (readMasked r be s.start).2 = (readMasked r be s.start).2 :=
  fits_of_outside hi hb fun _ hj => readFields_outside r be
    (fun f hf => by have := (laid_fieldsOf hi.valid r).inside f hf; omega) hj (s.start, s.start.regWord r)

end

theorem size_packExact {c : Cfg} {r : Nat} (hb : busSize (c.regBytes r) = true) (op : BitVec 8) (win : Option Window) (v : Word) :
    (c.packExact op win r v).size.toNat = c.regBytes r := by
  rw [Cfg.packExact, Desc.size_pack, toNat_ofNat_of_busSize hb]

theorem size_packNarrow {n : Nat} (hn : busSize n = true) (c : Cfg) (op : BitVec 8) (win : Option Window) (r k : Nat) (x : Word) :
    (c.packNarrow op win r k n x).size.toNat = n := by
  rw [Cfg.packNarrow, Desc.size_pack, toNat_ofNat_of_busSize hn]

/-- The body of a READ of a constructed block returns a value of the size that its descriptor asks for. -/
theorem read_returns_word {s : State} {i : Instr} (hi : Inv s) (ha : s.cfg.admits i = true) (hop : i.opcode = 0x00) :
    ∃ n v, (bodyOf i s.start).result = .word n v ∧ trunc (8 * n) v = v ∧ (encode s.cfg i).size.toNat = n := by
  cases i with
  | read r => exact ⟨_, _, rfl, readMasked_fits hi ha _, size_packExact ha ..⟩
  | readSet r | readClr r | readTgl r =>
    obtain ⟨hb, -⟩ := Bool.and_eq_true_iff.1 ha
    exact ⟨_, _, rfl, peekReg_fits hi hb, size_packExact hb ..⟩
  | readNarrow r k n => exact ⟨_, _, rfl, trunc_trunc _ _, size_packNarrow (narrowFits_iff.1 ha).size ..⟩
  | readNarrowAlias w r k n =>
    obtain ⟨hfits, -⟩ := Bool.and_eq_true_iff.1 ha
    exact ⟨_, _, rfl, trunc_trunc _ _, size_packNarrow (narrowFits_iff.1 hfits).size ..⟩
  | readRejected a n | readUnmapped a n =>
    exact ⟨_, _, rfl, trunc_trunc_of_le (by omega) _, congrArg BitVec.toNat (Desc.size_pack ..)⟩
  | _ => exact absurd hop (by simp [Instr.opcode])

/-- Settles O9: an admitted operation runs its body, which for a READ returns a word. -/
theorem everyEntryPointCompletes : Obligations.EveryEntryPointCompletes := by
  refine ⟨fun s i ha _ => ⟨_, exec_admitted ha⟩, fun s i hi ha hop => ?_⟩
  obtain ⟨n, v, hresult, hfits, hsize⟩ := read_returns_word hi ha hop
  exact ⟨_, n, v, exec_admitted ha, hresult, hfits, hsize⟩

end Sys2Proof.Machine
end

section
/-! PROOFS. The statements of 70_reset_and_hazards.md: what construction accepts and where a block starts, RESET of a fresh block, window
writes to pending fields, and firings that come too late. -/

namespace Sys2Proof.Machine

/-! ## The checks of construction (R155) -/

theorem validCfg_iff_checked (c : Cfg) : validCfg c = true ↔ Checked c := by
  refine ⟨checked_of_valid, fun h => ?_⟩
  simp [validCfg, configChecks, h.widths, h.fields, h.alignment, h.ranges, h.bindings, h.sources, h.fifos, h.signals]

/-- Each check of construction decides what R155 says of it. -/
theorem validCfg_iff_passesChecks (c : Cfg) : validCfg c = true ↔ PassesChecks c := by
  rw [validCfg_iff_checked]
  constructor
  · intro h
    have widths := (checkWidths_iff c).1 h.widths
    obtain ⟨inside, apart⟩ := (checkFields_iff c (fun r hr => by have := (widths r hr).1; omega)).1 h.fields
    obtain ⟨aligned, offsets⟩ := (checkAlignment_iff c).1 h.alignment
    obtain ⟨ranges, windows⟩ := (checkRanges_iff c).1 h.ranges
    obtain ⟨bindings, pendingOnce⟩ := (checkBindings_iff c).1 h.bindings
    obtain ⟨conditions, lines, named⟩ := (checkSources_iff c).1 h.sources
    obtain ⟨roles, fifos⟩ := (checkFifos_iff c).1 h.fifos
    have signals := (checkSignals_iff c).1 h.signals
    exact { widths, inside, apart, aligned, offsets, ranges, windows, bindings, pendingOnce, conditions, lines, named, roles, fifos, signals }
  · intro h
    exact {
      widths := (checkWidths_iff c).2 h.widths
      fields := (checkFields_iff c (fun r hr => by have := (h.widths r hr).1; omega)).2 ⟨h.inside, h.apart⟩
      alignment := (checkAlignment_iff c).2 ⟨h.aligned, h.offsets⟩
      ranges := (checkRanges_iff c).2 ⟨h.ranges, h.windows⟩
      bindings := (checkBindings_iff c).2 ⟨h.bindings, h.pendingOnce⟩
      sources := (checkSources_iff c).2 ⟨h.conditions, h.lines, h.named⟩
      fifos := (checkFifos_iff c).2 ⟨h.roles, h.fifos⟩
      signals := (checkSignals_iff c).2 h.signals }

theorem configError_eq_none_iff (c : Cfg) : configError c = none ↔ validCfg c = true := by
  simp [configError, validCfg]

/-- Construction of a configuration that fails a check fails with it (60_exceptions.md R142). -/
theorem construct_of_invalid {c : Cfg} (hv : validCfg c = false) : ∃ e, construct c = .error e := by
  cases he : configError c with
  | none => rw [(configError_eq_none_iff c).1 he] at hv; cases hv
  | some e => exact ⟨e, by unfold construct; rw [he]⟩

/-! ## The block after construction (R156) -/

/-- The timers of a new block. -/
def newTimers (c : Cfg) : List Timer := c.timers.map (fun _ => ⟨.idle, 0⟩)

/-- The machine just after construction. -/
def newState (c : Cfg) : State :=
  recompute { cfg := c, blk := rstBlock c (newTimers c), inbox := [], trace := [], result := .none }

theorem construct_eq_newState {c : Cfg} (hv : validCfg c = true) : construct c = .ok (newState c) := construct_of_valid hv

theorem newState_blk (c : Cfg) : (newState c).blk = Block.recomputed c (rstBlock c (newTimers c)) := rfl

theorem eq_of_mem_newTimers {c : Cfg} {x : Timer} (hx : x ∈ newTimers c) : x = ⟨.idle, 0⟩ := by
  obtain ⟨-, -, rfl⟩ := List.mem_map.1 hx
  rfl

/-- Recompute sets no flag, so all are clear after a reset (10_state.md R32). -/
theorem resetBlock_pendings (c : Cfg) (ts : List Timer) :
    (Block.recomputed c (rstBlock c ts)).pending = c.sources.map (fun _ => false) := by
  apply List.ext_getElem?
  intro i
  rw [resetBlock_pending, List.getElem?_map]

theorem freshBlock_new (c : Cfg) : FreshBlock c (newState c).blk where
  reg := rfl
  pending := by rw [newState_blk, resetBlock_pendings, List.length_map]
  enabled := by simp [newState_blk, Block.recomputed, rstBlock]
  fifo := rfl
  timer := List.length_map ..
  sig := List.length_map ..

theorem inv_newState {c : Cfg} (hv : validCfg c = true) : Inv (newState c) :=
  inv_of_fresh hv (freshBlock_new c) (recomputed_settled c _)

/-! ## RESET of a block that was just reset (R157, R159) -/

/-- Timers with their tokens advanced and their phases kept. -/
def advancedTimers (ts : List Timer) : List Timer := ts.map (fun x => ⟨x.phase, x.token + 1⟩)

theorem idledTimers_of_idle {ts : List Timer} (h : ∀ x ∈ ts, x.phase = .idle) : idledTimers ts = advancedTimers ts :=
  List.map_congr_left fun x hx => by rw [h x hx]

theorem idle_of_mem_idledTimers {ts : List Timer} {x : Timer} (h : x ∈ idledTimers ts) : x.phase = .idle := by
  obtain ⟨-, -, rfl⟩ := List.mem_map.1 h
  rfl

theorem rstEvents_of_idle {ts : List Timer} (h : ∀ x ∈ ts, x.phase = .idle) : rstEvents ts = [] := by
  refine List.eq_nil_iff_forall_not_mem.2 fun e he => ?_
  obtain ⟨n, x, hx, harmed, -⟩ := (mem_rstEvents ts e).1 he
  rw [h x (List.mem_of_getElem? hx)] at harmed
  cases harmed

/-- Only a custom signal can show a timer (43_peripheral.md R137). -/
theorem evalSignal_timer {c : Cfg} (hp : plainSignals c = true) {g : SignalDesc} (hg : g ∈ c.signals) (b : Block) (ts : List Timer) :
    evalSignal c { b with timer := ts } g.expr = evalSignal c b g.expr := by
  have hplain := List.all_eq_true.1 hp g hg
  cases he : g.expr with
  | line l => rfl
  | fifo q p => rfl
  | const v => rfl
  | custom n => rw [he] at hplain; cases hplain

/-- Recompute clears the same flags whatever the timers are (41_interrupts.md R108). -/
theorem clearAuto_timer (b : Block) (ts : List Timer) : clearAuto { b with timer := ts } = clearAuto b := by
  have h : autoClears { b with timer := ts } = autoClears b := autoClears_congr rfl rfl rfl rfl
  funext ds ps
  exact clearAuto_congr h ds ps

/-- The timers take no part in recompute, but for the signals (R109). -/
theorem recomputed_timer (c : Cfg) (b : Block) (ts : List Timer) :
    Block.recomputed c { b with timer := ts } =
      { Block.recomputed c b with timer := ts, sig := (Block.recomputed c { b with timer := ts }).sig } := by
  unfold Block.recomputed
  simp only [clearAuto_timer]

theorem recomputed_timer_sig {c : Cfg} (hp : plainSignals c = true) (b : Block) (ts : List Timer) :
    (Block.recomputed c { b with timer := ts }).sig = (Block.recomputed c b).sig := by
  unfold Block.recomputed
  simp only [clearAuto_timer]
  exact List.map_congr_left fun g hg => evalSignal_timer hp hg { b with pending := clearAuto b c.sources b.pending } ts

/-- RESET of a block as a reset leaves it: no event, and nothing changes but the tokens, and custom signals that show them. -/
theorem exec_reset_of_fresh {s : State} {ts : List Timer} (hb : s.blk = Block.recomputed s.cfg (rstBlock s.cfg ts))
    (hts : ∀ x ∈ ts, x.phase = .idle) :
    ∃ t, exec .reset s = .next t ∧ t.trace = [] ∧
      t.blk = { s.blk with timer := advancedTimers s.blk.timer, sig := t.blk.sig } ∧
      (plainSignals s.cfg = true → t.blk.sig = s.blk.sig) := by
  obtain ⟨t, ht, hblk, htrace⟩ := exec_reset s
  have htimer : s.blk.timer = ts := by rw [hb, resetBlock_timer]
  rw [htimer] at hblk htrace
  rw [idledTimers_of_idle hts] at hblk
  refine ⟨t, ht, htrace.trans (rstEvents_of_idle hts), ?_, fun hp => ?_⟩
  · rw [hblk, htimer, hb]
    exact recomputed_timer s.cfg (rstBlock s.cfg ts) (advancedTimers ts)
  · rw [hblk, hb]
    exact recomputed_timer_sig hp (rstBlock s.cfg ts) (advancedTimers ts)

/-- Settles O14: a new block is a fresh one, recomputed, with every timer idle. -/
theorem constructionStartsBlock : Obligations.ConstructionStartsBlock := by
  refine ⟨validCfg_iff_passesChecks, fun c hv => ?_, fun c => construct_of_invalid⟩
  obtain ⟨t, ht, htrace, hblk, hsig⟩ := exec_reset_of_fresh (newState_blk c) fun x hx => by rw [eq_of_mem_newTimers hx]
  refine ⟨newState c, t, construct_eq_newState hv, rfl, inv_newState hv, rfl, rfl, fun x => eq_of_mem_newTimers, rfl,
    resetBlock_pendings c _, fun q d hd => ⟨rstFifo c q d, ?_, rfl, rfl, rfl, rfl⟩, fun g d hd => recomputed_sig _ hd,
    ht, htrace, hblk, hsig⟩
  rw [newState_blk, resetBlock_fifo, hd, Option.map_some]

/-- Settles O20: the first RESET leaves a fresh block with idle timers. -/
theorem secondResetOnlyAdvancesTokens : Obligations.SecondResetOnlyAdvancesTokens := by
  intro s hp
  obtain ⟨t, ht, hb, -⟩ := exec_reset s
  have hc : t.cfg = s.cfg := exec_next_cfg ht
  rw [← hc] at hb hp
  obtain ⟨u, hu, htrace, hblk, hsig⟩ := exec_reset_of_fresh hb fun x => idle_of_mem_idledTimers
  rw [hsig hp] at hblk
  exact ⟨t, u, ht, hu, hblk, htrace⟩

/-! ## Window writes to pending fields (R163) -/

/-- A pending field shows its source's flag (40_register_file.md R73, R75). -/
theorem peekReg_pending {c : Cfg} (hv : validCfg c = true) (b : Block) {r : Nat} {f : FieldDesc} {n : Nat} (hf : f ∈ fieldsOf c r)
    (hb : f.bind = .irqPending n) : (peekReg c b r).getLsbD f.off = b.isPending n := by
  have hwid := pending_wid hv hf hb
  have hread : readBeh c f ≠ .zero := by
    rw [(behaviours_of_pending c hb).1]
    cases eff c n <;> decide
  rw [← bit0_slice _ _ (Nat.le_of_eq hwid.symm), slice_peekReg hv b hf, if_neg hread, bindPeek, hb, hwid, trunc_one_ofBit]
  cases b.isPending n <;> rfl

/-- The first bit of a field lies in its register. -/
theorem ones_widthOf_getLsbD_off {c : Cfg} (hv : validCfg c = true) {r : Nat} {f : FieldDesc} (hf : f ∈ fieldsOf c r) :
    (ones (widthOf c r)).getLsbD f.off = true := by
  obtain ⟨d, hd, hm⟩ := mem_fieldsOf hf
  have hdm := List.mem_of_getElem? hd
  have hwidth : widthOf c r = d.w := by
    unfold widthOf
    rw [hd]
  obtain ⟨hl, hin⟩ := laid_of_valid hv hdm
  have hreg := (regWidth_of_valid hv hdm).1
  have hpos := (hl.inside f hm).1
  have hend := hin f hm
  rw [hwidth, ones_getLsbD _ _ (by omega)]
  exact decide_eq_true (by omega)

/-- A whole WRITE to a register of plain bindings and a WriteOneToClear flag in it: a 1 in the flag's bit clears it (41_interrupts.md R99). -/
theorem wholeWrite_isPending {i : Instr} {s : State} {r : Nat} {v : Word} {f : FieldDesc} {n : Nat} (hi : Inv s)
    (ha : s.cfg.admits i = true) (hparts : writeParts s.cfg s.blk i = some (r, v, ones (widthOf s.cfg r)))
    (hst : standardReg s.cfg r = true) (hplain : ∀ g ∈ fieldsOf s.cfg r, writeBeh s.cfg g ≠ .none → plainBinding g.bind = true)
    (hf : f ∈ fieldsOf s.cfg r) (hb : f.bind = .irqPending n) (hpol : eff s.cfg n = .writeOneToClear) {p : Bool}
    (hp : (s.blk.isPending n && !v.getLsbD f.off) = p) : ∃ t, exec i s = .next t ∧ t.blk.isPending n = p := by
  subst hp
  exact writeOneClearsPending i s r v _ f n hi ha hparts hst
    (fun w hw => hplain w.1 (mem_fieldWrites hw) (fieldWrites_writeBeh hw)) hf hb (.inl hpol) (ones_widthOf_getLsbD_off hi.valid hf)

/-- Settles O34: the word written has in the flag's bit the flag itself, combined with that bit of `m`. -/
theorem windowWriteClearsFlags : Obligations.WindowWriteClearsFlags := by
  intro s r m f n hi hal hfit hst hplain hf hb hpol
  obtain ⟨d, hd, -⟩ := mem_fieldsOf hf
  have hadmits : (busSize (s.cfg.regBytes r) && s.cfg.hasAlias && s.cfg.fitsReg r m) = true := by
    rw [busSize_regBytes hi.valid hd, hal, hfit]
    rfl
  have hpeek := peekReg_pending hi.valid s.blk hf hb
  have hlt : f.off < 32 := BitVec.lt_of_getLsbD (ones_widthOf_getLsbD_off hi.valid hf)
  refine ⟨wholeWrite_isPending (i := .writeSet r m) hi hadmits rfl hst hplain hf hb hpol ?_,
    wholeWrite_isPending (i := .writeClr r m) hi hadmits rfl hst hplain hf hb hpol ?_,
    wholeWrite_isPending (i := .writeTgl r m) hi hadmits rfl hst hplain hf hb hpol ?_⟩
  · rw [BitVec.getLsbD_or, hpeek]
    cases s.blk.isPending n <;> rfl
  · rw [BitVec.getLsbD_and, BitVec.getLsbD_not, hpeek, decide_eq_true hlt]
    cases s.blk.isPending n <;> simp
  · rw [BitVec.getLsbD_xor, hpeek]
    cases s.blk.isPending n <;> simp

/-! ## Firings that come too late (R173) -/

/-- After any instruction, a firing with a token that is not that of an armed timer leaves the block to recompute (43_peripheral.md R135). -/
theorem completes_staleFiring {i : Instr} {s u : State} (hu : exec i s = .next u) {t : BitVec 64} {y : Timer}
    (hy : u.blk.timer[t.toNat]? = some y) {tok : Token} (h : y ≠ ⟨.armed, tok⟩) :
    Completes (.timerFire t tok) u (Block.recomputed s.cfg u.blk) .none [] := by
  rw [← exec_next_cfg hu]
  exact (timerFireOnlyWithLiveToken u t tok).2 (.inl fun hlive => h (Option.some.inj (hy.symm.trans hlive)))

theorem idle_ne_armed (k k' : Token) : (⟨.idle, k⟩ : Timer) ≠ ⟨.armed, k'⟩ := nofun

/-- Settles O59: arming leaves a new token, cancelling and RESET an idle timer, for which every firing is stale. -/
theorem staleFiringIsIgnored : Obligations.StaleFiringIsIgnored := by
  intro s t x ht hx
  have hset : ∀ y : Timer, (s.blk.timer.set t.toNat y)[t.toNat]? = some y := fun y =>
    List.getElem?_set_self (List.getElem?_eq_some_iff.1 hx).1
  refine ⟨?_, ?_, ?_⟩
  · obtain ⟨u, hu, hcfg, -, hblk, -, -⟩ := timerArmSchedulesNewToken s t.toNat x ht hx
    have hy : u.blk.timer[t.toNat]? = some ⟨.armed, x.token + 1⟩ := by rw [hblk]; exact hset _
    obtain ⟨v, hv, -, -, hvblk, -, -⟩ := ((timerFireOnlyWithLiveToken u t (x.token + 1)).1 hy (hcfg ▸ ht)).1
    refine ⟨u, hu, fun tok htok => completes_staleFiring hu hy fun h => htok (congrArg Timer.token h).symm, v, hv, ?_⟩
    rw [hvblk]
    exact List.getElem?_set_self (List.getElem?_eq_some_iff.1 hy).1
  · obtain ⟨u, hu, -, -, hblk, -, -⟩ := timerCancelAdvancesToken s t.toNat x ht hx
    have hy : u.blk.timer[t.toNat]? = some ⟨.idle, x.token + 1⟩ := by rw [hblk]; exact hset _
    exact ⟨u, hu, by rw [hblk], fun tok => completes_staleFiring hu hy (idle_ne_armed _ _)⟩
  · obtain ⟨u, hu, htimer, -⟩ := resetIdlesTimers s
    exact ⟨u, hu, fun tok => completes_staleFiring hu (htimer _ x hx) (idle_ne_armed _ _)⟩

end Sys2Proof.Machine
end
